-- ==== Sys2Proof/Word.lean ====
section
/-!
DEFINITION. The value types of the Huffman codec core: 32-bit words, bytes, arena indices, bit sequences.
Nothing here is arithmetic of the machine; the helpers that a test could show wrong stand under Machine/.
-/

namespace Sys2Proof

/-- A 32-bit element of `REG`, `FREQ`, `NODE` or `CWLEN`, and a command word (R14, R40, R60). -/
abbrev Word := BitVec 32

/-- A byte: an element of `IBUF`, `OBUF`, `PAYB`, `CWDATA`, and a symbol value (R4, R6). -/
abbrev Byte := BitVec 8

/-- A 9-bit index into the node arena (R22). -/
abbrev NodeIdx := BitVec 9

/-- `NIL`, the node index `0x1FF` that names no node (R9). -/
def NodeIdx.nil : NodeIdx := 0x1FF

/-- A BitSequence value is exactly a finite list of bits, logical bit 0 first (R8, R11): the backing
bytes are a function of the value and are no state of their own. -/
abbrev BitSeq := List Bool

end Sys2Proof
end

