-- ==== Sys2Proof/Config.lean ====
section
/-!
DEFINITION. What an implementation fixes (the OPEN capacities of R5) and the free values of the model.
-/

namespace Sys2Proof

/-- The OPEN capacities of R5. Every state carries the capacities of its own core in a field that no
step writes, so a claim about every state is a claim about every implementation (assumption 1).
`BUS_MAP` is left out: no rule reads it (R5, D2). -/
structure Config where
  /-- `IBUF_CAP`, the input buffer's capacity in bytes. -/
  ibufCap : Nat
  /-- `OBUF_CAP`, the output buffer's capacity in bytes. -/
  obufCap : Nat
  /-- `PAY_CAP`, the capacity of `PAY` in bits. -/
  payCap : Nat
  /-- `BS_CAP`, the capacity of each `BS[i]` in bits. -/
  bsCap : Nat
deriving DecidableEq, Repr

/-- The reference configuration of R5, the one every vector of spec/95_test_vectors.md uses. -/
def Config.reference : Config :=
  { ibufCap := 65536, obufCap := 65536, payCap := 524288, bsCap := 4096 }

/-- The free value behind every UNSPECIFIED read (R25, R56, R225 (a)): the byte that draw number `draw`
finds at index `idx`. It has no body, so no proof can see a value of it; the machine never uses one
draw number twice, so two reads of one unspecified byte need not agree (assumption 2). -/
opaque Config.freeByte (draw idx : Nat) : Byte

end Sys2Proof
end

