-- ==== Sys2Proof/Syntax.lean ====
section
/-!
DEFINITION. The commands of the core, one constructor per row of spec/opcode_table.json (R63), and the
host's accesses, which stand where a processor has a program (R1, R13, R40).
-/

namespace Sys2Proof

/-- One constructor per row of the opcode map (R63). `rd` and `rs` name `BS[0]` to `BS[3]`; `imm8` is an
unsigned integer of 8 bits, checked by `Instr.wellFormed` (R62). -/
inductive Instr where
  /-- `SYS.NOP`, R174 -/
  | sysNop
  /-- `SYS.RESET`, R175 -/
  | sysReset
  /-- `BS.CLR rd`, R90 -/
  | bsClr (rd : Fin 4)
  /-- `BS.LD rd`, R91 -/
  | bsLd (rd : Fin 4)
  /-- `BS.ST rd`, R99 -/
  | bsSt (rd : Fin 4)
  /-- `BS.PUSHF rd, imm8`, R92 -/
  | bsPushf (rd : Fin 4) (imm8 : Nat)
  /-- `BS.SHR rd`, R93 -/
  | bsShr (rd : Fin 4)
  /-- `BS.SHL rd`, R94 -/
  | bsShl (rd : Fin 4)
  /-- `BS.CAT rd, rs`, R95 -/
  | bsCat (rd rs : Fin 4)
  /-- `BS.STW rd, rs`, R96 -/
  | bsStw (rd rs : Fin 4)
  /-- `BS.EQ rd, rs`, R97 -/
  | bsEq (rd rs : Fin 4)
  /-- `ENC.COUNT`, R110 -/
  | encCount
  /-- `ENC.TREE`, R112 -/
  | encTree
  /-- `ENC.TABLE`, R118 -/
  | encTable
  /-- `ENC.HDR`, R121 -/
  | encHdr
  /-- `ENC.PACK`, R126 -/
  | encPack
  /-- `ENC.ALL`, R128 -/
  | encAll
  /-- `DEC.HDR`, R140 -/
  | decHdr
  /-- `DEC.LOAD`, R145 -/
  | decLoad
  /-- `DEC.STEP`, R148 -/
  | decStep
  /-- `DEC.RUN`, R153 -/
  | decRun
  /-- `DEC.ALL`, R155 -/
  | decAll
deriving DecidableEq, Repr

/-- The eight address spaces the host sees (R40). -/
inductive Space where
  | reg
  | ibuf
  | obuf
  | payb
  | freq
  | node
  | cwlen
  | cwdata
deriving DecidableEq, Repr

/-- One element of an address space: a byte or a 32-bit word, never a mixture (R42, R45). -/
inductive Elem where
  | byte (b : Byte)
  | word (w : Word)
deriving DecidableEq, Repr

/-- What the world outside the core can do to it: `HostRead(space, idx)`, `HostWrite(space, idx, value)`
(R40) and the platform's power-on reset (R210). -/
inductive HostAction where
  | read (space : Space) (idx : Nat)
  | write (space : Space) (idx : Nat) (value : Elem)
  | powerOnReset
deriving DecidableEq, Repr

end Sys2Proof
end

