-- ==== Sys2Proof/WellFormed.lean ====
section
/-!
DEFINITION. Which instructions and which configurations are well formed.
-/

namespace Sys2Proof

/-- The one operand whose type does not bound it: `imm8` is an unsigned 8-bit value (R62). The register
operands are bounded by their type, and every other operand of every command is implicit (R62). -/
def Instr.wellFormed : Instr → Bool
  | .bsPushf _ imm8 => decide (imm8 < 256)
  | .sysNop | .sysReset | .bsClr _ | .bsLd _ | .bsSt _ | .bsShr _ | .bsShl _ | .bsCat _ _ | .bsStw _ _
  | .bsEq _ _ | .encCount | .encTree | .encTable | .encHdr | .encPack | .encAll | .decHdr | .decLoad
  | .decStep | .decRun | .decAll => true

/-- The constraints R5 puts on the OPEN capacities. -/
abbrev Config.WellFormed (c : Config) : Prop :=
  (4 ≤ c.ibufCap ∧ c.ibufCap ≤ 2 ^ 32 - 1) ∧
  (max 8708 ((c.bsCap + 7) / 8) ≤ c.obufCap ∧ c.obufCap ≤ 2 ^ 32 - 1) ∧
  (8 ∣ c.payCap ∧ 8 ≤ c.payCap ∧ c.payCap ≤ 2 ^ 32 - 8) ∧
  (8 ∣ c.bsCap ∧ 256 ≤ c.bsCap ∧ c.bsCap ≤ 2 ^ 32 - 8)

end Sys2Proof
end

