-- ==== Sys2Proof/Decode.lean ====
section
/-!
DEFINITION. From a 32-bit command word to a command or a rejection by name (R60 to R65), and the encoder.
-/

namespace Sys2Proof

/-- The four formats of R61. -/
inductive Format where
  | Z
  | R
  | RR
  | RI
deriving DecidableEq, Repr

/-- Why a word is no command (R64): both kinds raise `IllegalCommand` at dispatch (R65). -/
inductive Illegal where
  /-- The opcode is in no row of R63. -/
  | unassignedOpcode
  /-- A bit that the row's format wants 0 is 1. -/
  | mustBeZeroBitSet
deriving DecidableEq, Repr

/-- The `mask` column of R61: a 1 for every bit that the format fixes. -/
def Format.mask : Format → Word
  | .Z => 0xFFFFFFFF
  | .R => 0xFFFFFCFF
  | .RR => 0xFFFFF0FF
  | .RI => 0xFF00FCFF

/-- `op = w[7:0]` (R60). -/
def opField (w : Word) : Byte := w.extractLsb' 0 8

/-- `rd = w[9:8]` (R62). -/
def rdField (w : Word) : Fin 4 := (w.extractLsb' 8 2).toFin

/-- `rs = w[11:10]` (R62). -/
def rsField (w : Word) : Fin 4 := (w.extractLsb' 10 2).toFin

/-- `imm8 = w[23:16]`, zero-extended (R62). -/
def immField (w : Word) : Nat := (w.extractLsb' 16 8).toNat

/-- One row of the opcode map: its opcode, its format, and the command with the operand fields in place. -/
structure OpRow where
  op : Byte
  format : Format
  build : (rd rs : Fin 4) → (imm8 : Nat) → Instr

/-- The opcode map of R63, row by row. -/
def opcodeMap : List OpRow :=
  [⟨0x00, .Z, fun _ _ _ => .sysNop⟩,
   ⟨0x01, .Z, fun _ _ _ => .sysReset⟩,
   ⟨0x10, .R, fun rd _ _ => .bsClr rd⟩,
   ⟨0x11, .R, fun rd _ _ => .bsLd rd⟩,
   ⟨0x12, .R, fun rd _ _ => .bsSt rd⟩,
   ⟨0x13, .RI, fun rd _ imm8 => .bsPushf rd imm8⟩,
   ⟨0x14, .R, fun rd _ _ => .bsShr rd⟩,
   ⟨0x15, .R, fun rd _ _ => .bsShl rd⟩,
   ⟨0x16, .RR, fun rd rs _ => .bsCat rd rs⟩,
   ⟨0x17, .RR, fun rd rs _ => .bsStw rd rs⟩,
   ⟨0x18, .RR, fun rd rs _ => .bsEq rd rs⟩,
   ⟨0x20, .Z, fun _ _ _ => .encCount⟩,
   ⟨0x21, .Z, fun _ _ _ => .encTree⟩,
   ⟨0x22, .Z, fun _ _ _ => .encTable⟩,
   ⟨0x23, .Z, fun _ _ _ => .encHdr⟩,
   ⟨0x24, .Z, fun _ _ _ => .encPack⟩,
   ⟨0x2F, .Z, fun _ _ _ => .encAll⟩,
   ⟨0x30, .Z, fun _ _ _ => .decHdr⟩,
   ⟨0x31, .Z, fun _ _ _ => .decLoad⟩,
   ⟨0x32, .Z, fun _ _ _ => .decStep⟩,
   ⟨0x33, .Z, fun _ _ _ => .decRun⟩,
   ⟨0x3F, .Z, fun _ _ _ => .decAll⟩]

/-- Decoding is total (R64): look the opcode up, test `(w AND mask) = op`, read the operand fields. -/
def decode (w : Word) : Except Illegal Instr :=
  match opcodeMap.find? (fun row => row.op == opField w) with
  | none => .error .unassignedOpcode
  | some row =>
    if w &&& row.format.mask = row.op.setWidth 32 then .ok (row.build (rdField w) (rsField w) (immField w))
    else .error .mustBeZeroBitSet

/-- The host's question about a table row: the instruction the decoder reads from the word `w` of
`nbits` bits. A command is one 32-bit word (R60), so a number of more bits is no command (assumption 11). -/
def decodeTableWord (nbits w : Nat) : Option Instr :=
  if w % 2 ^ nbits < 2 ^ 32 then
    match decode (BitVec.ofNat 32 (w % 2 ^ nbits)) with
    | .ok i => some i
    | .error _ => none
  else none

/-- The opcode of each command, written from the `op` column of R63. -/
def Instr.opcode : Instr → Byte
  | .sysNop => 0x00
  | .sysReset => 0x01
  | .bsClr _ => 0x10
  | .bsLd _ => 0x11
  | .bsSt _ => 0x12
  | .bsPushf _ _ => 0x13
  | .bsShr _ => 0x14
  | .bsShl _ => 0x15
  | .bsCat _ _ => 0x16
  | .bsStw _ _ => 0x17
  | .bsEq _ _ => 0x18
  | .encCount => 0x20
  | .encTree => 0x21
  | .encTable => 0x22
  | .encHdr => 0x23
  | .encPack => 0x24
  | .encAll => 0x2F
  | .decHdr => 0x30
  | .decLoad => 0x31
  | .decStep => 0x32
  | .decRun => 0x33
  | .decAll => 0x3F

/-- The format of each command, from the `format` column of R63. -/
def Instr.format : Instr → Format
  | .bsClr _ | .bsLd _ | .bsSt _ | .bsShr _ | .bsShl _ => .R
  | .bsPushf _ _ => .RI
  | .bsCat _ _ | .bsStw _ _ | .bsEq _ _ => .RR
  | .sysNop | .sysReset | .encCount | .encTree | .encTable | .encHdr | .encPack | .encAll
  | .decHdr | .decLoad | .decStep | .decRun | .decAll => .Z

/-- A word put together from its fields at the bit positions of R60; every other bit is 0. -/
def packFields (op : Byte) (rd rs : Fin 4) (imm8 : Nat) : Word :=
  op.setWidth 32 ||| (BitVec.ofNat 32 rd <<< 8) ||| (BitVec.ofNat 32 rs <<< 10) |||
    (BitVec.ofNat 32 imm8 <<< 16)

/-- The command word of a command: its opcode and the fields its format uses, 0 elsewhere (R60 to R63, R67). -/
def encode (i : Instr) : Word :=
  match i with
  | .bsClr rd | .bsLd rd | .bsSt rd | .bsShr rd | .bsShl rd => packFields i.opcode rd 0 0
  | .bsPushf rd imm8 => packFields i.opcode rd 0 imm8
  | .bsCat rd rs | .bsStw rd rs | .bsEq rd rs => packFields i.opcode rd rs 0
  | .sysNop | .sysReset | .encCount | .encTree | .encTable | .encHdr | .encPack | .encAll
  | .decHdr | .decLoad | .decStep | .decRun | .decAll => packFields i.opcode 0 0 0

end Sys2Proof
end

