-- ==== Sys2Proof/Machine/BitSeq.lean ====
section
/-!
DEFINITION. The BitSequence functions on bit lists (R80, R82 to R87), and the packing of bits into bytes,
most significant bit first (R6, R7, R42).
-/

namespace Sys2Proof.Machine

/-- `nbytes(L) = ceil(L / 8) = (L + 7) div 8` (R7). -/
def nbytes (L : Nat) : Nat := (L + 7) / 8

/-- The number whose `n`-bit binary form is the first `n` bits of the list, first bit most significant,
0 for bits the list does not have. -/
def bitsValue : Nat → BitSeq → Nat
  | 0, _ => 0
  | _ + 1, [] => 0
  | n + 1, b :: q => b.toNat * 2 ^ n + bitsValue n q

/-- The byte that holds the first (at most 8) bits of a list: the list's bit `t` is the byte's bit `7 - t`,
and the unused low-order bits are 0 (R6). -/
def packByte (q : BitSeq) : Byte := BitVec.ofNat 8 (bitsValue 8 q)

/-- Backing byte `j` of `q`, the `byte(q, j)` of R7. -/
def byteAt (q : BitSeq) (j : Nat) : Byte := packByte (q.drop (8 * j))

/-- All backing bytes of `q`, in index order: `nbytes(len(q))` of them (R81). -/
def backingBytes : BitSeq → List Byte
  | [] => []
  | b0 :: b1 :: b2 :: b3 :: b4 :: b5 :: b6 :: b7 :: q =>
    packByte [b0, b1, b2, b3, b4, b5, b6, b7] :: backingBytes q
  | q => [packByte q]

/-- The 8 bits of a byte, most significant first: bit `i` is the byte's bit `7 - i` (R6). -/
def byteBits (b : Byte) : BitSeq := (List.range 8).map fun i => b.getLsbD (7 - i)

/-- `mkbits(bytes, L)` of R7: bit `i` is bit `7 - (i mod 8)` of `bytes[i div 8]`, for `i < L`; bits of the
last byte below the `L`-th are dropped. -/
def mkbits (bytes : List Byte) (L : Nat) : BitSeq := (bytes.flatMap byteBits).take L

/-- `shift_right_once(q)`, R83. -/
def shiftRightOnce (q : BitSeq) : BitSeq := false :: q

/-- `push_front_bit(q, bit)` for a legal bit, R82: `none` stands for its failure `InvalidBitValue`. -/
def pushFrontBit (q : BitSeq) (bit : Nat) : Option BitSeq :=
  if bit = 0 then some (false :: q) else if bit = 1 then some (true :: q) else none

/-- `shift_left_once(q)`, R84: no-op on the empty sequence. -/
def shiftLeftOnce : BitSeq → BitSeq
  | [] => []
  | _ :: q => q

/-- `shift_left_once` repeated `n` times: the decoder's bit shifter (R148). -/
def shiftLeftTimes : Nat → BitSeq → BitSeq
  | 0, q => q
  | n + 1, q => shiftLeftTimes n (shiftLeftOnce q)

/-- `concat(q, o)`, R85. -/
def concat (q o : BitSeq) : BitSeq := q ++ o

/-- `start_with(q, o)`, R86: whether `o`'s bits are the first bits of `q`. -/
def startWith : (q o : BitSeq) → Bool
  | _, [] => true
  | [], _ :: _ => false
  | a :: q, b :: o => a == b && startWith q o

/-- Equality of two BitSequences, R87: equal length and equal bits. -/
def eqBits (q o : BitSeq) : Bool := q.length == o.length && startWith q o

end Sys2Proof.Machine
end

