-- ==== Sys2Proof/Machine/State.lean ====
section
/-!
DEFINITION. The architectural state of the core (R10), its reset values (R29, R210), and the two ways a
step can stop. INVENTORY.md lists every field with its rule, width and reset value.
-/

namespace Sys2Proof.Machine

/-- The fault codes of R180, as `ERR` holds them. No other value of `ERR` occurs. -/
inductive ErrCode where
  /-- 0: no fault since reset -/
  | none
  /-- 1, R181 -/
  | invalidBitValue
  /-- 2, R182 -/
  | unknownSymbol
  /-- 3, R183: unreachable, its arm is kept -/
  | encodingOverflow
  /-- 4, R184 -/
  | malformedHeader
  /-- 5, R185 -/
  | decodeExhausted
  /-- 6, R186 -/
  | emptyInput
  /-- 7, R187 -/
  | illegalCommand
  /-- 8, R188 -/
  | capacityExceeded
  /-- 9, R189 -/
  | noTree
deriving DecidableEq, Repr

/-- The decoder states of R146, held in `STATUS.DSTATE` (R16). -/
inductive DState where
  | exhausted
  | scanning
  | matched
deriving DecidableEq, Repr

/-- The two node kinds of R22. -/
inductive NodeKind where
  | leaf
  | internal
deriving DecidableEq, Repr

/-- One entry of the node arena (R22). -/
structure Node where
  kind : NodeKind
  sym : Byte
  left : NodeIdx
  right : NodeIdx
  occ : Word
deriving DecidableEq, Repr

/-- The reset record of R22, which every entry at index `NNODE` and above reads as. -/
def Node.resetRecord : Node := ⟨.leaf, 0, NodeIdx.nil, NodeIdx.nil, 0⟩

/-- A register file with one cell for each of the 256 symbol values (R5 `NSYM`), in ascending order of symbol. -/
structure SymFile (α : Type) where
  cells : List α
  size : cells.length = 256
deriving DecidableEq, Repr

/-- The file whose cells are all `a`. -/
def SymFile.fill {α : Type} (a : α) : SymFile α := ⟨List.replicate 256 a, List.length_replicate⟩

/-- The EncodingTable `CW[0..255]` (R23): slot `s` holds `some c` when `CW[s]` is `{valid 1, code c}` and
`none` when it is `{valid 0, code EMPTY}`, the only invalid slot there is. -/
abbrev Table := SymFile (Option BitSeq)

/-- The table with no valid slot (R29). -/
def Table.empty : Table := SymFile.fill none

/-- A byte buffer: the cells that have been written, at strictly rising addresses. A byte that nothing has
written since power-on is not listed: it holds no value of its own (R25, assumption 3). -/
abbrev Memory := List Host.Cell

/-- The whole state (R10). `BS`, the control registers, `FREQ`, the arena, `CW`, `PAY` and the two buffers
are the core's. `NNODE` is the arena's length (R22); `STATUS.FAULT`, `PAYLEN` and `TREEINFO` are views
(R16, R20). `cfg`, `draws`, `script` and `replies` are the model's own (assumptions 1, 2, 4). -/
structure State where
  /-- The capacities of this core (R5); no step writes them. -/
  cfg : Config
  /-- `BS[0..3]` (R12). -/
  bs : Vector BitSeq 4
  /-- `ERR` (R17). -/
  err : ErrCode
  /-- `ERRINFO` (R17). -/
  errinfo : Word
  /-- `STATUS.T` (R16, R26). -/
  tflag : Bool
  /-- `STATUS.DSTATE` (R16). -/
  dstate : DState
  /-- `CTRL.LIMIT_EN` (R18). -/
  limitEn : Bool
  /-- `ILEN` (R19). -/
  ilen : Word
  /-- `OLEN` (R19). -/
  olen : Word
  /-- `HLEN` (R19). -/
  hlen : Word
  /-- `SYMLIMIT` (R20). -/
  symlimit : Word
  /-- `BLEN` (R20). -/
  blen : Word
  /-- `FREQ[0..255]` (R21). -/
  freq : SymFile Word
  /-- `NODE[0..NNODE)` (R22). -/
  nodes : List Node
  /-- `ROOT` (R20, R22). -/
  root : NodeIdx
  /-- `CW[0..255]` (R23). -/
  cw : Table
  /-- `PAY` (R24). -/
  pay : BitSeq
  /-- `IBUF` (R25). -/
  ibuf : Memory
  /-- `OBUF` (R25). -/
  obuf : Memory
  /-- How many draws of free bytes have been made. -/
  draws : Nat
  /-- The host's accesses that are still to come, the next one first (R13, R28). -/
  script : List HostAction
  /-- What the host has read so far, the latest first. -/
  replies : List Elem
deriving DecidableEq, Repr

/-- Why the machine stops with a fault. The nine faults of R180 do not stop it: they are recorded in `ERR`. -/
inductive Fault where
  /-- Raised by `ENC.TABLE` alone, in a state whose arena is no tree (a walk down from `ROOT` comes back to
  a node it has been at), where `derive` of R118 never ends. R22 says that no run reaches such a state.
  DESIGN CHOICE (assumption 7). Safe: the machine stops. -/
  | arenaHasCycle
deriving DecidableEq, Repr

/-- Why the model has no step (R46, R200). All but `notModelled` are the refused host accesses of R44
(assumption 10). -/
inductive Refusal where
  /-- An instruction without a meaning; no instruction of this model is one. Safe. -/
  | notModelled (mnemonic : String)
  /-- The host reads a reserved register or an index out of range. Safe: the model has no step. -/
  | hostReadRefused (space : Space) (idx : Nat)
  /-- The host writes a read-only or reserved target or an index out of range. Safe: the model has no step. -/
  | hostWriteRefused (space : Space) (idx : Nat)
  /-- The host writes an element that is not of the space's width (R45). DESIGN CHOICE
  (assumption 9). Safe: the model has no step. -/
  | hostWidthRefused (space : Space) (idx : Nat)
deriving DecidableEq, Repr

/-- The core right after a power-on reset, for the capacities `cfg` (R29, R210): every container empty, every
register 0, `ROOT = NIL`, and buffers that nothing has written. -/
def State.powerOn (cfg : Config) : State :=
  { cfg := cfg
    bs := Vector.replicate 4 []
    err := .none
    errinfo := 0
    tflag := false
    dstate := .exhausted
    limitEn := false
    ilen := 0
    olen := 0
    hlen := 0
    symlimit := 0
    blen := 0
    freq := SymFile.fill 0
    nodes := []
    root := NodeIdx.nil
    cw := Table.empty
    pay := []
    ibuf := []
    obuf := []
    draws := 0
    script := []
    replies := [] }

/-- The machine right after reset, in the reference configuration of R5 (assumption 1). -/
def State.reset : State := State.powerOn Config.reference

end Sys2Proof.Machine
end

