-- ==== Sys2Proof/Machine/Ops.lean ====
section
/-!
DEFINITION. The named operations over buffers and registers that the commands share: buffer bytes, the table
and the counters by symbol, taking a fault (R190) and leaving the faulted condition (R195).
-/

namespace Sys2Proof.Machine

/-- What a step answers (Host/Core.lean). -/
abbrev Result := Host.Outcome State Fault Refusal

/-- The byte a buffer holds at index `a`, if one was written there. This is the one definition of what an
unlisted address reads as: nothing (R25). -/
def Memory.read? : Memory → Nat → Option Byte
  | [], _ => none
  | (k, b) :: m, a => if k = a then some b else Memory.read? m a

/-- Write of one byte; addresses stay strictly rising. -/
def Memory.write : Memory → Nat → Byte → Memory
  | [], a, b => [(a, b)]
  | (k, c) :: m, a, b =>
    if k < a then (k, c) :: Memory.write m a b
    else if k = a then (a, b) :: m
    else (a, b) :: (k, c) :: m

/-- `MemWrite(space, a, n, bytes)` of R7: consecutive bytes from index `a` on, lowest index first. -/
def Memory.writeBytes (m : Memory) (a : Nat) : List Byte → Memory
  | [] => m
  | b :: bytes => Memory.writeBytes (m.write a b) (a + 1) bytes

/-- The canonical form of a buffer: addresses strictly rising, all below the capacity. -/
abbrev Memory.wf (cap : Nat) (m : Memory) : Prop :=
  (m.map Prod.fst).Pairwise (· < ·) ∧ ∀ c ∈ m, c.1 < cap

/-- The core's read of `IBUF[i]`. A byte that the host never wrote is UNSPECIFIED (R25): the command draws it
as a free byte under its own draw number (assumption 2). -/
def State.ibufByte (s : State) (i : Nat) : Byte := (s.ibuf.read? i).getD (Config.freeByte s.draws i)

/-- `MemRead(IBUF, i, n)` of R7. -/
def State.ibufBytes (s : State) (i n : Nat) : List Byte := (List.range n).map fun j => s.ibufByte (i + j)

/-- The state after a command that has read `IBUF`: its draw number is used up (assumption 2). -/
def State.drawn (s : State) : State := { s with draws := s.draws + 1 }

/-- The cell of symbol `x`. -/
def SymFile.get {α : Type} (m : SymFile α) (x : Byte) : α := m.cells[x.toNat]'(m.size.symm ▸ x.isLt)

/-- The file with the cell of symbol `x` replaced. -/
def SymFile.set {α : Type} (m : SymFile α) (x : Byte) (a : α) : SymFile α :=
  ⟨m.cells.set x.toNat a, List.length_set.trans m.size⟩

/-- Every symbol with its cell, in ascending order: the index range `0..256` of every loop over symbols. -/
def SymFile.pairs {α : Type} (m : SymFile α) : List (Byte × α) :=
  m.cells.zipIdx.map fun p => (BitVec.ofNat 8 p.2, p.1)

/-- `CW[x]` of a table. -/
def Table.slot (T : Table) (x : Byte) : Option BitSeq := T.get x

/-- `CW[x] <- {valid 1, code c}`. -/
def Table.put (T : Table) (x : Byte) (c : BitSeq) : Table := T.set x (some c)

/-- `FREQ[x]`. -/
def count (f : SymFile Word) (x : Byte) : Word := f.get x

/-- `FREQ[x] <- FREQ[x] + 1`. -/
def bump (f : SymFile Word) (x : Byte) : SymFile Word := f.set x (count f x + 1)

/-- `NODE[i]`: entries at `NNODE` and above read as the reset record (R22). -/
def nodeAt (nodes : List Node) (i : Nat) : Node := nodes.getD i Node.resetRecord

/-- The code of each fault (R180). -/
def ErrCode.code : ErrCode → Nat
  | .none => 0
  | .invalidBitValue => 1
  | .unknownSymbol => 2
  | .encodingOverflow => 3
  | .malformedHeader => 4
  | .decodeExhausted => 5
  | .emptyInput => 6
  | .illegalCommand => 7
  | .capacityExceeded => 8
  | .noTree => 9

/-- The resource numbers that `CapacityExceeded` carries in `ERRINFO` (R180, R188). -/
inductive Resource where
  | obuf
  | pay
  | bs
  | ibuf
deriving DecidableEq, Repr

/-- The number of each resource (R188). -/
def Resource.number : Resource → Nat
  | .obuf => 1
  | .pay => 2
  | .bs => 3
  | .ibuf => 4

/-- What a fault leaves of `DSTATE`: `DecodeExhausted` alone commits `Exhausted` (R150, R190). -/
def dstateAfterFault (code : ErrCode) (d : DState) : DState :=
  if code = .decodeExhausted then .exhausted else d

/-- Fault entry (R190): from the state `s` before the primitive command, so that nothing the command has done
is kept, `ERR` and `ERRINFO` are written and `DecodeExhausted` also moves the decoder to Exhausted.
`STATUS.FAULT` is 1 exactly when `ERR` is not 0 (R16). Nothing is saved, no mode changes, control goes
nowhere. The command's draw number is used up. -/
def State.takeFault (code : ErrCode) (info : Nat) (s : State) : State :=
  { s with
    err := code
    errinfo := BitVec.ofNat 32 info
    dstate := dstateAfterFault code s.dstate
    draws := s.draws + 1 }

/-- `raise F(info)` (R7, R190): the command ends with the fault recorded, and the machine goes on. -/
def raiseFault (code : ErrCode) (info : Nat) (s : State) : Result := .next (s.takeFault code info)

/-- `raise CapacityExceeded(resource)` (R188). -/
def raiseCapacity (r : Resource) (s : State) : Result := raiseFault .capacityExceeded r.number s

/-- The only exit from the faulted condition (R195): every piece of state takes its reset value of R29, except
the contents of the two buffers (R175, R210). The fields that are the model's own are not the core's and
keep their values (assumption 12). -/
def State.commandReset (s : State) : State :=
  { State.powerOn s.cfg with
    ibuf := s.ibuf, obuf := s.obuf, draws := s.draws, script := s.script, replies := s.replies }

/-- The platform's power-on reset (R210): as above, and every byte of both buffers is UNSPECIFIED. -/
def State.powerOnReset (s : State) : State :=
  { State.powerOn s.cfg with draws := s.draws, script := s.script, replies := s.replies }

/-- One primitive command after another in a composite command (R173): the next one runs on the state the
first one left, unless a fault is recorded there. -/
def andThen (first : Result) (next : State → Result) : Result :=
  match first with
  | .next t => if t.err = .none then next t else .next t
  | .fault f => .fault f
  | .refused r => .refused r

end Sys2Proof.Machine
end

