-- ==== Sys2Proof/Machine/Operands.lean ====
section
/-!
DEFINITION. The operands of the commands: the BitSequence registers that `rd` and `rs` name (R12, R62), the input
bytes that a command takes from `IBUF[0..ILEN)` (R19), and the views of the read-only spaces (R56).
-/

namespace Sys2Proof.Machine

/-- `BS[i]` (R7, R12). -/
def State.bsReg (s : State) (i : Fin 4) : BitSeq := s.bs[i.val]

/-- `BS[i] <- v` (R7, R12). -/
def State.setBs (s : State) (i : Fin 4) (v : BitSeq) : State := { s with bs := s.bs.set i.val v }

/-- The test that every command reading `IBUF[0..ILEN)` makes first: `ILEN > IBUF_CAP` (R188). -/
abbrev State.inputTooLong (s : State) : Prop := s.cfg.ibufCap < s.ilen.toNat

/-- `IBUF[0..ILEN)`, the implicit operand of `ENC.COUNT` and `ENC.PACK`. -/
def State.input (s : State) : List Byte := s.ibufBytes 0 s.ilen.toNat

/-- A big-endian number (R6, R42 (b)): the byte at the lowest index is the most significant. -/
def beValue (bytes : List Byte) : Nat := bytes.foldl (fun n b => 256 * n + b.toNat) 0

/-- The four big-endian bytes of the header's length field (R122). -/
def beBytes (n : Nat) : List Byte :=
  [BitVec.ofNat 8 (n / 2 ^ 24), BitVec.ofNat 8 (n / 2 ^ 16), BitVec.ofNat 8 (n / 2 ^ 8), BitVec.ofNat 8 n]

/-- `NNODE`, the number of arena entries in use (R22). -/
def State.nnode (s : State) : Nat := s.nodes.length

/-- The second view word of a node: `kind << 31 | sym << 18 | left << 9 | right` (R56). -/
def nodeWord (n : Node) : Word :=
  ((match n.kind with | .leaf => 0 | .internal => 1) <<< 31) ||| (n.sym.setWidth 32 <<< 18) |||
    (n.left.setWidth 32 <<< 9) ||| n.right.setWidth 32

/-- The `NODE` view (R56): element `2i` is `NODE[i].occ`, element `2i + 1` the packed fields. -/
def State.nodeView (s : State) (idx : Nat) : Word :=
  let n := nodeAt s.nodes (idx / 2)
  if idx % 2 = 0 then n.occ else nodeWord n

/-- The `CWLEN` view (R56): `valid << 31 | len(CW[s].code)`, the length in bits 7:0. -/
def cwlenWord (slot : Option BitSeq) : Word :=
  match slot with
  | none => 0
  | some c => (1 <<< 31) ||| (BitVec.ofNat 8 c.length).setWidth 32

end Sys2Proof.Machine
end

