-- ==== Sys2Proof/Machine/Flags.lean ====
section
/-!
DEFINITION. The flag `T` (R26) and the words that the control registers read as (R14 to R20).
-/

namespace Sys2Proof.Machine

/-- `STATUS.T <- b`: written by `BS.STW` and `BS.EQ` alone (R26). -/
def State.setT (s : State) (b : Bool) : State := { s with tflag := b }

/-- `STATUS.FAULT`: 1 exactly when `ERR != 0` (R16). -/
def State.faulted (s : State) : Bool := decide (s.err ≠ .none)

/-- The code of a decoder state in `STATUS[3:2]` (R16). -/
def DState.code : DState → Nat
  | .exhausted => 0
  | .scanning => 1
  | .matched => 2

/-- `STATUS`: bit 0 `FAULT`, bit 1 `T`, bits 3:2 `DSTATE`, the rest 0 (R16). -/
def State.statusWord (s : State) : Word :=
  BitVec.ofNat 32 (s.faulted.toNat + 2 * s.tflag.toNat + 4 * s.dstate.code)

/-- `ERR` (R17, R180). -/
def State.errWord (s : State) : Word := BitVec.ofNat 32 s.err.code

/-- `CTRL`: bit 0 `LIMIT_EN`, the rest 0 (R18). -/
def State.ctrlWord (s : State) : Word := BitVec.ofNat 32 s.limitEn.toNat

/-- `PAYLEN`: always `len(PAY)` (R20). -/
def State.paylen (s : State) : Word := BitVec.ofNat 32 s.pay.length

/-- `TREEINFO`: bits 8:0 `ROOT`, bits 25:16 `NNODE`, the rest 0 (R20). -/
def State.treeInfo (s : State) : Word :=
  s.root.setWidth 32 ||| ((BitVec.ofNat 10 s.nnode).setWidth 32 <<< 16)

end Sys2Proof.Machine
end

