-- ==== Sys2Proof/Machine/Bs.lean ====
section
/-!
DEFINITION. The BitSequence commands (spec/40_bitsequence.md, part C).
-/

namespace Sys2Proof.Machine

/-- `BS.CLR rd` (R90). -/
def execBsClr (rd : Fin 4) (s : State) : Result := .next (s.setBs rd [])

/-- `BS.LD rd` (R91): `BLEN` bits from the front of `IBUF`. -/
def execBsLd (rd : Fin 4) (s : State) : Result :=
  if s.cfg.bsCap < s.blen.toNat then raiseCapacity .bs s
  else if s.inputTooLong then raiseCapacity .ibuf s
  else if s.ilen.toNat < nbytes s.blen.toNat then raiseCapacity .ibuf s
  else .next (s.setBs rd (mkbits (s.ibufBytes 0 (nbytes s.blen.toNat)) s.blen.toNat)).drawn

/-- `BS.ST rd` (R99): the backing bytes to the front of `OBUF`. -/
def execBsSt (rd : Fin 4) (s : State) : Result :=
  let q := s.bsReg rd
  .next { s with
    obuf := s.obuf.writeBytes 0 (backingBytes q)
    olen := BitVec.ofNat 32 (nbytes q.length)
    blen := BitVec.ofNat 32 q.length }

/-- `BS.PUSHF rd, imm8` (R92): the bit test comes before the capacity test. -/
def execBsPushf (rd : Fin 4) (imm8 : Nat) (s : State) : Result :=
  match pushFrontBit (s.bsReg rd) imm8 with
  | none => raiseFault .invalidBitValue imm8 s
  | some q =>
    if s.cfg.bsCap < (s.bsReg rd).length + 1 then raiseCapacity .bs s
    else .next (s.setBs rd q)

/-- `BS.SHR rd` (R93). -/
def execBsShr (rd : Fin 4) (s : State) : Result :=
  if s.cfg.bsCap < (s.bsReg rd).length + 1 then raiseCapacity .bs s
  else .next (s.setBs rd (shiftRightOnce (s.bsReg rd)))

/-- `BS.SHL rd` (R94). -/
def execBsShl (rd : Fin 4) (s : State) : Result := .next (s.setBs rd (shiftLeftOnce (s.bsReg rd)))

/-- `BS.CAT rd, rs` (R95): both operands are read before the write. -/
def execBsCat (rd rs : Fin 4) (s : State) : Result :=
  if s.cfg.bsCap < (s.bsReg rd).length + (s.bsReg rs).length then raiseCapacity .bs s
  else .next (s.setBs rd (concat (s.bsReg rd) (s.bsReg rs)))

/-- `BS.STW rd, rs` (R96). -/
def execBsStw (rd rs : Fin 4) (s : State) : Result := .next (s.setT (startWith (s.bsReg rd) (s.bsReg rs)))

/-- `BS.EQ rd, rs` (R97). -/
def execBsEq (rd rs : Fin 4) (s : State) : Result := .next (s.setT (eqBits (s.bsReg rd) (s.bsReg rs)))

end Sys2Proof.Machine
end

