-- ==== Sys2Proof/Machine/Dec.lean ====
section
/-!
DEFINITION. The decoder commands (spec/42_decoder.md): table deserializer, cursor load, prefix-match state machine
with its bit shifter, and the decode flows.
-/

namespace Sys2Proof.Machine

/-! ### DEC.HDR -/

/-- How the parser's loop ends (R140): the table, or the offset of the broken entry. -/
inductive Parsed where
  | table (T : Table)
  | broken (pos : Nat)
deriving DecidableEq, Repr

/-- The entry loop of R140 over the bytes `rd`, from offset `pos` to offset `fin`. Every entry takes at least
two bytes, so `fin - pos` rounds are enough. -/
def parseEntries (rd : Nat → Byte) (fin : Nat) : (fuel pos : Nat) → Table → Parsed
  | 0, _, T => .table T
  | fuel + 1, pos, T =>
    if fin ≤ pos then .table T
    else if fin < pos + 2 then .broken pos
    else
      let L := (rd (pos + 1)).toNat
      let nb := nbytes L
      if fin < pos + 2 + nb then .broken pos
      else
        parseEntries rd fin fuel (pos + 2 + nb)
          (T.put (rd pos) (mkbits ((List.range nb).map fun j => rd (pos + 2 + j)) L))

/-- The extent `4 + N` that the header declares, a natural number not reduced mod `2^32` (R140, R141). -/
def State.headerExtent (s : State) : Nat := 4 + beValue (s.ibufBytes 0 4)

/-- `DEC.HDR` (R140): the faults of R142 in order; the table is built aside and committed on success. -/
def execDecHdr (s : State) : Result :=
  if s.inputTooLong then raiseCapacity .ibuf s
  else if s.ilen.toNat < 4 then raiseFault .malformedHeader 0 s
  else if s.ilen.toNat < s.headerExtent then raiseFault .malformedHeader 0 s
  else
    match parseEntries s.ibufByte s.headerExtent s.headerExtent 4 Table.empty with
    | .broken pos => raiseFault .malformedHeader pos s
    | .table T => .next { s with cw := T, hlen := BitVec.ofNat 32 s.headerExtent }.drawn

/-! ### DEC.LOAD -/

/-- `DEC.LOAD` (R145): every bit of every payload byte becomes the cursor. -/
def execDecLoad (s : State) : Result :=
  let P := s.ilen.toNat - s.hlen.toNat
  if s.inputTooLong then raiseCapacity .ibuf s
  else if s.ilen.toNat < s.hlen.toNat then raiseFault .malformedHeader s.hlen.toNat s
  else if s.cfg.payCap < 8 * P then raiseCapacity .pay s
  else .next { s with
    pay := mkbits (s.ibufBytes s.hlen.toNat P) (8 * P)
    olen := 0
    dstate := .scanning }.drawn

/-! ### DEC.STEP -/

/-- Whether a slot is a candidate at a cursor (R147): valid, not empty (R149), and a prefix of the cursor. -/
def candidate (pay : BitSeq) : Option BitSeq → Bool
  | none => false
  | some c => decide (1 ≤ c.length) && startWith pay c

/-- The better of the best candidate so far and the next one, a symbol with its slot: the next one replaces it
only when its codeword is longer, so among equal codewords the smaller symbol stays (R147). -/
def betterMatch (best : Option (Byte × BitSeq)) (p : Byte × Option BitSeq) : Option (Byte × BitSeq) :=
  match p.2, best with
  | none, _ => best
  | some c, none => some (p.1, c)
  | some c, some (y, d) => if d.length < c.length then some (p.1, c) else some (y, d)

/-- `match(PAY, CW)` (R147): of the candidates, in ascending order of symbol, the one with the longest codeword,
the smallest symbol among equals. -/
def matchSymbol (pay : BitSeq) (T : Table) : Option (Byte × BitSeq) :=
  (T.pairs.filter fun p => candidate pay p.2).foldl betterMatch none

/-- The limit test of R151. -/
abbrev State.limitReached (s : State) : Prop := s.limitEn = true ∧ s.symlimit.toNat ≤ s.olen.toNat

/-- The Matched state of R146: emit the symbol, consume its codeword's bits, back to Scanning (R148). -/
def State.emit (s : State) (x : Byte) (c : BitSeq) : State :=
  { s with
    obuf := s.obuf.write s.olen.toNat x
    olen := s.olen + 1
    pay := shiftLeftTimes c.length s.pay
    dstate := .scanning }

/-- `DEC.STEP` (R148). -/
def execDecStep (s : State) : Result :=
  if s.dstate ≠ .scanning then .next s
  else if s.limitReached then .next { s with dstate := .exhausted }
  else
    match matchSymbol s.pay s.cw with
    | none =>
      if 0 < s.pay.length then raiseFault .decodeExhausted s.pay.length s
      else .next { s with dstate := .exhausted }
    | some (x, c) =>
      if s.cfg.obufCap ≤ s.olen.toNat then raiseCapacity .obuf s
      else .next ({ s with dstate := .matched }.emit x c)

/-! ### DEC.RUN and DEC.ALL -/

/-- `DEC.STEP` repeated while the decoder is Scanning and no fault is recorded (R153, R173). `fuel` bounds the
rounds; each one consumes a bit or ends the loop, so one more than the cursor's length is enough (R154). -/
def stepLoop : (fuel : Nat) → State → Result
  | 0, s => .next s
  | fuel + 1, s =>
    if s.dstate = .scanning then andThen (execDecStep s) (stepLoop fuel) else .next s

/-- The stepping part of `DEC.RUN`, with enough rounds for the cursor at hand (R154). -/
def runSteps (s : State) : Result := stepLoop (s.pay.length + 1) s

/-- `DEC.RUN` (R153): `DEC.LOAD`, then `DEC.STEP` until Exhausted or a fault. -/
def execDecRun (s : State) : Result := andThen (execDecLoad s) runSteps

/-- `DEC.ALL` (R155): `DEC.HDR`, then `DEC.RUN`. -/
def execDecAll (s : State) : Result := andThen (execDecHdr s) execDecRun

end Sys2Proof.Machine
end

