-- ==== Sys2Proof/Machine/Enc.lean ====
section
/-!
DEFINITION. The encoder commands (spec/41_encoder.md): frequency counter, tree builder, table generator, header
serializer, bit packer, and the whole encode flow.
-/

namespace Sys2Proof.Machine

/-! ### ENC.COUNT -/

/-- The counters after counting the given bytes from 0 (R110). -/
def countBytes (bytes : List Byte) : SymFile Word := bytes.foldl bump (SymFile.fill 0)

/-- `ENC.COUNT` (R110). -/
def execEncCount (s : State) : Result :=
  if s.inputTooLong then raiseCapacity .ibuf s
  else .next { s with freq := countBytes s.input }.drawn

/-! ### ENC.TREE -/

/-- A member of the priority queue: a node index with the node's weight (R114). -/
structure Weighted where
  occ : Nat
  idx : Nat
deriving DecidableEq, Repr

/-- The pop order of R114: lower weight first, among equal weights the lower arena index. -/
def Weighted.before (a b : Weighted) : Bool := decide (a.occ < b.occ ∨ (a.occ = b.occ ∧ a.idx < b.idx))

/-- The first member in pop order, of a queue given as its head and the rest. -/
def firstOut (m : Weighted) (Q : List Weighted) : Weighted :=
  Q.foldl (fun m a => if a.before m then a else m) m

/-- `popmin(Q)` (R114): the member that leaves and the queue it leaves; nothing from an empty queue. -/
def popMin : List Weighted → Option (Weighted × List Weighted)
  | [] => none
  | a :: Q => some (firstOut a Q, (a :: Q).erase (firstOut a Q))

/-- A Leaf for symbol `x` of weight `occ` (R113, R116). -/
def leafNode (x : Byte) (occ : Word) : Node := ⟨.leaf, x, NodeIdx.nil, NodeIdx.nil, occ⟩

/-- The Internal node that joins two popped nodes in pop order, first popped left (R115). The sum is
narrowed to 32 bits, which no reachable state shows (DEDUCED, assumption 6). -/
def joinNode (a b : Weighted) : Node :=
  ⟨.internal, 0, BitVec.ofNat 9 a.idx, BitVec.ofNat 9 b.idx, BitVec.ofNat 32 (a.occ + b.occ)⟩

/-- The loop of R115: pop two, join them, push the new node, until one member is left. `fuel` bounds the
rounds; each takes one member off the queue, so the number of leaves is enough. -/
def joinLoop : (fuel : Nat) → List Node → List Weighted → List Node
  | 0, nodes, _ => nodes
  | fuel + 1, nodes, Q =>
    match popMin Q with
    | none => nodes
    | some (a, Q₁) =>
      match popMin Q₁ with
      | none => nodes
      | some (b, Q₂) => joinLoop fuel (nodes ++ [joinNode a b]) (⟨a.occ + b.occ, nodes.length⟩ :: Q₂)

/-- The distinct bytes in ascending order (R112, R113). -/
def distinctBytes (f : SymFile Word) : List Byte := (f.pairs.filter fun p => p.2 ≠ 0).map Prod.fst

/-- The leaves the arena starts with: one per distinct byte in ascending order (R113), and the synthetic
partner `(x + 1) mod 256` of weight 0 when there is exactly one (R116). -/
def seedLeaves (f : SymFile Word) : List Node :=
  match distinctBytes f with
  | [x] => [leafNode x (count f x), leafNode (x + 1) 0]
  | D => D.map fun x => leafNode x (count f x)

/-- The queue of all seeded nodes (R114). -/
def seedQueue (leaves : List Node) : List Weighted := leaves.mapIdx fun i n => ⟨n.occ.toNat, i⟩

/-- The arena of the CodeTree for the counts `f` (R112). -/
def buildTree (f : SymFile Word) : List Node :=
  joinLoop (seedLeaves f).length (seedLeaves f) (seedQueue (seedLeaves f))

/-- `ENC.TREE` (R112): `ROOT` is the last entry, the one that stays in the queue (R115). -/
def execEncTree (s : State) : Result :=
  if distinctBytes s.freq = [] then raiseFault .emptyInput 0 s
  else .next { s with
    nodes := buildTree s.freq
    root := BitVec.ofNat 9 ((buildTree s.freq).length - 1) }

/-! ### ENC.TABLE -/

/-- `derive(i)` of R118: the codewords below node `i`, a 0 prepended on the left, a 1 on the right. A walk
longer than `fuel` answers nothing; with more fuel than the arena has entries that happens only when the
walk meets a node twice, and then the recursion of R118 never ends. -/
def deriveCodes (nodes : List Node) : (fuel : Nat) → (i : Nat) → Option (List (Byte × BitSeq))
  | 0, _ => none
  | fuel + 1, i =>
    match (nodeAt nodes i).kind with
    | .leaf => some [((nodeAt nodes i).sym, [])]
    | .internal =>
      match deriveCodes nodes fuel (nodeAt nodes i).left.toNat, deriveCodes nodes fuel (nodeAt nodes i).right.toNat with
      | some l, some r =>
        some (l.map (fun p => (p.1, false :: p.2)) ++ r.map (fun p => (p.1, true :: p.2)))
      | _, _ => none

/-- The table of a list of entries, on a table with no valid slot (R118). A symbol that came twice would
keep the later entry, and no tree has one (DESIGN CHOICE, assumption 8). -/
def tableOf (entries : List (Byte × BitSeq)) : Table := entries.foldl (fun T p => T.put p.1 p.2) Table.empty

/-- The EncodingTable of an arena and its root, where the walk ends. -/
def deriveTable (nodes : List Node) (root : NodeIdx) : Option Table :=
  (deriveCodes nodes (nodes.length + 1) root.toNat).map tableOf

/-- `ENC.TABLE` (R118). -/
def execEncTable (s : State) : Result :=
  if s.root = NodeIdx.nil then raiseFault .noTree 0 s
  else
    match deriveTable s.nodes s.root with
    | none => .fault .arenaHasCycle
    | some T => .next { s with cw := T }

/-! ### ENC.HDR -/

/-- Whether a slot's codeword is too long for the header's length byte (R123). -/
def overlong : Option BitSeq → Bool
  | none => false
  | some c => decide (255 < c.length)

/-- One header entry: symbol, bit length, codeword bytes (R122). An invalid slot has none. -/
def headerEntry (x : Byte) (slot : Option BitSeq) : List Byte :=
  match slot with
  | none => []
  | some c => x :: BitVec.ofNat 8 c.length :: backingBytes c

/-- All entries, in ascending symbol order (R124). -/
def headerBody (T : Table) : List Byte := T.pairs.flatMap fun p => headerEntry p.1 p.2

/-- The header of R122: the big-endian length of the entries, then the entries. -/
def headerBytes (T : Table) : List Byte := beBytes (headerBody T).length ++ headerBody T

/-- `ENC.HDR` (R121): the overflow test first, then the serialization. -/
def execEncHdr (s : State) : Result :=
  match s.cw.pairs.find? (fun p => overlong p.2) with
  | some p => raiseFault .encodingOverflow p.1.toNat s
  | none => .next { s with
      obuf := s.obuf.writeBytes 0 (headerBytes s.cw)
      olen := BitVec.ofNat 32 (headerBytes s.cw).length
      hlen := BitVec.ofNat 32 (headerBytes s.cw).length }

/-! ### ENC.PACK -/

/-- How the packer's loop ends (R126): the packed bits, or the fault that stops it. -/
inductive Packed where
  | bits (q : BitSeq)
  | unknown (index : Nat)
  | full
deriving DecidableEq, Repr

/-- The loop of R126 over the input bytes from index `i` on: per byte the unknown-symbol test, then the
capacity test, then `concat`. -/
def packLoop (T : Table) (cap : Nat) : (i : Nat) → (acc : BitSeq) → List Byte → Packed
  | _, acc, [] => .bits acc
  | i, acc, x :: bytes =>
    match T.slot x with
    | none => .unknown i
    | some c => if cap < acc.length + c.length then .full else packLoop T cap (i + 1) (concat acc c) bytes

/-- `ENC.PACK` (R126). -/
def execEncPack (s : State) : Result :=
  if s.inputTooLong then raiseCapacity .ibuf s
  else
    match packLoop s.cw s.cfg.payCap 0 [] s.input with
    | .unknown i => raiseFault .unknownSymbol i s
    | .full => raiseCapacity .pay s
    | .bits q => .next { s with pay := q }.drawn

/-! ### ENC.ALL -/

/-- `ENC.ALL` (R128): `ENC.COUNT ; ENC.TREE ; ENC.TABLE ; ENC.HDR ; ENC.PACK` as a composite command (R173). -/
def execEncAll (s : State) : Result :=
  andThen (andThen (andThen (andThen (execEncCount s) execEncTree) execEncTable) execEncHdr) execEncPack

end Sys2Proof.Machine
end

