-- ==== Sys2Proof/Machine/Sys.lean ====
section
/-!
DEFINITION. The system commands `SYS.NOP` and `SYS.RESET` (spec/43_system.md).
-/

namespace Sys2Proof.Machine

/-- `SYS.NOP` (R174): nothing. -/
def execSysNop (s : State) : Result := .next s

/-- `SYS.RESET` (R175): the command reset. -/
def execSysReset (s : State) : Result := .next s.commandReset

end Sys2Proof.Machine
end

