-- ==== Sys2Proof/Machine/Dispatch.lean ====
section
/-!
DEFINITION. One arm per command: step 4 of the dispatch of R170, "execute the command's rule".
-/

namespace Sys2Proof.Machine

def exec (i : Instr) (s : State) : Host.Outcome State Fault Refusal :=
  match i with
  | .sysNop => Sys2Proof.Machine.execSysNop s
  | .sysReset => Sys2Proof.Machine.execSysReset s
  | .bsClr rd => Sys2Proof.Machine.execBsClr rd s
  | .bsLd rd => Sys2Proof.Machine.execBsLd rd s
  | .bsSt rd => Sys2Proof.Machine.execBsSt rd s
  | .bsPushf rd imm8 => Sys2Proof.Machine.execBsPushf rd imm8 s
  | .bsShr rd => Sys2Proof.Machine.execBsShr rd s
  | .bsShl rd => Sys2Proof.Machine.execBsShl rd s
  | .bsCat rd rs => Sys2Proof.Machine.execBsCat rd rs s
  | .bsStw rd rs => Sys2Proof.Machine.execBsStw rd rs s
  | .bsEq rd rs => Sys2Proof.Machine.execBsEq rd rs s
  | .encCount => Sys2Proof.Machine.execEncCount s
  | .encTree => Sys2Proof.Machine.execEncTree s
  | .encTable => Sys2Proof.Machine.execEncTable s
  | .encHdr => Sys2Proof.Machine.execEncHdr s
  | .encPack => Sys2Proof.Machine.execEncPack s
  | .encAll => Sys2Proof.Machine.execEncAll s
  | .decHdr => Sys2Proof.Machine.execDecHdr s
  | .decLoad => Sys2Proof.Machine.execDecLoad s
  | .decStep => Sys2Proof.Machine.execDecStep s
  | .decRun => Sys2Proof.Machine.execDecRun s
  | .decAll => Sys2Proof.Machine.execDecAll s

end Sys2Proof.Machine
end

