-- ==== Sys2Proof/Machine/HostPort.lean ====
section
/-!
DEFINITION. What the host can do (spec/20_memory.md): reads and writes of the eight spaces with the rights of R44,
the taking of a command word (R170), the power-on reset (R210), and one step of the machine.
-/

namespace Sys2Proof.Machine

/-- What a host read finds (R44): an element, an UNSPECIFIED byte (R25, R56), or no right to read. -/
inductive ReadResult where
  | value (e : Elem)
  | unspecified
  | refused
deriving DecidableEq, Repr

/-- A byte that is there or is UNSPECIFIED. -/
def ReadResult.ofByte? : Option Byte → ReadResult
  | some b => .value (.byte b)
  | none => .unspecified

/-- The control registers by index (R14, R44): 12 to 15 and beyond are refused. -/
def State.readReg (s : State) (idx : Nat) : ReadResult :=
  match idx with
  | 0 => .value (.word 0)
  | 1 => .value (.word s.statusWord)
  | 2 => .value (.word s.errWord)
  | 3 => .value (.word s.errinfo)
  | 4 => .value (.word s.ctrlWord)
  | 5 => .value (.word s.ilen)
  | 6 => .value (.word s.olen)
  | 7 => .value (.word s.hlen)
  | 8 => .value (.word s.symlimit)
  | 9 => .value (.word s.blen)
  | 10 => .value (.word s.paylen)
  | 11 => .value (.word s.treeInfo)
  | _ => .refused

/-- Backing byte `j` of a sequence; beyond the last backing byte it is UNSPECIFIED (R56). -/
def backingRead (q : BitSeq) (j : Nat) : ReadResult :=
  if j < nbytes q.length then .value (.byte (byteAt q j)) else .unspecified

/-- A codeword's bits, none for an invalid slot (R23). -/
def slotBits : Option BitSeq → BitSeq
  | none => []
  | some c => c

/-- `HostRead(space, idx)`: the rights of R44 and the views of R40 and R56. -/
def State.hostRead (s : State) (space : Space) (idx : Nat) : ReadResult :=
  match space with
  | .reg => s.readReg idx
  | .ibuf => if idx < s.cfg.ibufCap then .ofByte? (s.ibuf.read? idx) else .refused
  | .obuf =>
    if idx < s.cfg.obufCap then
      if idx < s.olen.toNat then .ofByte? (s.obuf.read? idx) else .unspecified
    else .refused
  | .payb => if idx < s.cfg.payCap / 8 then backingRead s.pay idx else .refused
  | .freq => if idx < 256 then .value (.word (count s.freq (BitVec.ofNat 8 idx))) else .refused
  | .node => if idx < 1022 then .value (.word (s.nodeView idx)) else .refused
  | .cwlen => if idx < 256 then .value (.word (cwlenWord (s.cw.slot (BitVec.ofNat 8 idx)))) else .refused
  | .cwdata =>
    if idx < 8192 then backingRead (slotBits (s.cw.slot (BitVec.ofNat 8 (idx / 32)))) (idx % 32) else .refused

/-- One host read: the element goes to the host. An UNSPECIFIED byte is a fresh draw (R225 (a)); a refused
access has no step (R46). Nothing of the core changes (R45). -/
def performRead (space : Space) (idx : Nat) (s : State) : Result :=
  match s.hostRead space idx with
  | .value e => .next { s with replies := e :: s.replies }
  | .unspecified =>
    .next { s with replies := .byte (Config.freeByte s.draws idx) :: s.replies, draws := s.draws + 1 }
  | .refused => .refused (.hostReadRefused space idx)

/-- The dispatch of R170. Step 1, `SYS.RESET`, comes before the hold-off of step 2 (R191), and the hold-off before
the illegal word of step 3 (R65). `exec` is step 4 alone (assumption 13). -/
def takeCommand (w : Word) (s : State) : Result :=
  match decode w with
  | .ok .sysReset => exec .sysReset s
  | .ok i => if s.faulted then .next s else exec i s
  | .error _ => if s.faulted then .next s else raiseFault .illegalCommand w.toNat s

/-- A host write of a word to a control register (R14, R44): `CMD` issues a command, `CTRL` stores bit 0,
`ILEN`, `HLEN`, `SYMLIMIT` and `BLEN` store all 32 bits; the rest is refused. -/
def writeReg (idx : Nat) (v : Word) (s : State) : Result :=
  match idx with
  | 0 => takeCommand v s
  | 4 => .next { s with limitEn := v.getLsbD 0 }
  | 5 => .next { s with ilen := v }
  | 7 => .next { s with hlen := v }
  | 8 => .next { s with symlimit := v }
  | 9 => .next { s with blen := v }
  | n => .refused (.hostWriteRefused .reg n)

/-- `HostWrite(space, idx, value)`: the rights of R44, one element of the space's width (R45). Host writes are
accepted whether or not the core is faulted (R44, R191). -/
def performWrite (space : Space) (idx : Nat) (value : Elem) (s : State) : Result :=
  match space, value with
  | .reg, .word v => writeReg idx v s
  | .ibuf, .byte b =>
    if idx < s.cfg.ibufCap then .next { s with ibuf := s.ibuf.write idx b }
    else .refused (.hostWriteRefused .ibuf idx)
  | .reg, .byte _ => .refused (.hostWidthRefused .reg idx)
  | .ibuf, .word _ => .refused (.hostWidthRefused .ibuf idx)
  | .obuf, _ => .refused (.hostWriteRefused .obuf idx)
  | .payb, _ => .refused (.hostWriteRefused .payb idx)
  | .freq, _ => .refused (.hostWriteRefused .freq idx)
  | .node, _ => .refused (.hostWriteRefused .node idx)
  | .cwlen, _ => .refused (.hostWriteRefused .cwlen idx)
  | .cwdata, _ => .refused (.hostWriteRefused .cwdata idx)

/-- One access of the host, or a power-on reset. -/
def perform (a : HostAction) (s : State) : Result :=
  match a with
  | .read space idx => performRead space idx s
  | .write space idx value => performWrite space idx value s
  | .powerOnReset => .next s.powerOnReset

/-- One step: the host's next access, done to completion (R13, R15, R45). With no access to come the core is
idle, and nothing changes (R199). -/
def hostStep (s : State) : Result :=
  match s.script with
  | [] => .next s
  | a :: rest => perform a { s with script := rest }

/-- The host's write of a command word to `CMD` (R60). -/
def commandWrite (w : Word) : HostAction := .write .reg 0 (.word w)

end Sys2Proof.Machine
end

