-- ==== Sys2Proof/Machine/Step.lean ====
section
/-!
DEFINITION. The step of the machine, and the host's way to have one command word taken next.
-/

namespace Sys2Proof.Machine

/-- One step: the next access of the host (R13). -/
def step (s : State) : Host.Outcome State Fault Refusal := hostStep s

/-- The state in which the host's very next access is the write of the word `w` to `CMD`: there is no memory
a command is fetched from (R13, R54). -/
def State.withFetchWord (s : State) (nbits w : Nat) : State :=
  { s with script := commandWrite (BitVec.ofNat 32 (w % 2 ^ nbits)) :: s.script }

end Sys2Proof.Machine
end

