-- ==== Sys2Proof/Machine/ByteLevel.lean ====
section
/-!
DEFINITION. The source's byte-level procedures for the BitSequence functions (R81 to R87): a sequence as a
bit length beside its backing bytes. The commands use the bit lists of Machine/BitSeq.lean (R80); that
the two agree on every canonical sequence is stated for the provers (R81).
-/

namespace Sys2Proof.Machine

/-- A BitSequence as the source holds it: `bit_length` and the backing bytes (R11, R81). -/
structure ByteSeq where
  len : Nat
  bytes : List Byte
deriving DecidableEq, Repr

/-- The canonical representation of a bit list: exactly `ceil(L / 8)` bytes, unused low bits 0 (R11, R81). -/
def ByteSeq.ofBits (q : BitSeq) : ByteSeq := { len := q.length, bytes := backingBytes q }

/-- The bit list that a representation stands for (R81). -/
def ByteSeq.bits (p : ByteSeq) : BitSeq := mkbits p.bytes p.len

/-- The cascade of R83: each byte moves right by one and takes the low bit of the byte before it. -/
def cascadeRight : (carry : Byte) → List Byte → List Byte
  | _, [] => []
  | carry, b :: bytes => ((b >>> 1) ||| ((carry &&& 1) <<< 7)) :: cascadeRight b bytes

/-- The byte-level `shift_right_once` of R83: a zero byte is appended when every bit of the backing bytes
is in use, then the cascade runs. -/
def ByteSeq.shiftRightOnce (p : ByteSeq) : ByteSeq :=
  { len := p.len + 1,
    bytes := cascadeRight 0 (if p.len = 8 * p.bytes.length then p.bytes ++ [0] else p.bytes) }

/-- `b[0] <- b[0] OR (bit << 7)`, the second half of R82. -/
def orFirst (m : Byte) : List Byte → List Byte
  | [] => []
  | b :: bytes => (b ||| m) :: bytes

/-- The byte-level `push_front_bit` of R82. -/
def ByteSeq.pushFrontBit (p : ByteSeq) (bit : Nat) : Option ByteSeq :=
  if bit ≤ 1 then
    some { p.shiftRightOnce with bytes := orFirst (BitVec.ofNat 8 bit <<< 7) p.shiftRightOnce.bytes }
  else none

/-- The loop of R84: each byte but the last moves left by one and takes the top bit of the byte after it. -/
def cascadeLeft : List Byte → List Byte
  | [] => []
  | [b] => [b <<< 1]
  | b :: c :: bytes => ((b <<< 1) ||| (c >>> 7)) :: cascadeLeft (c :: bytes)

/-- The byte-level `shift_left_once` of R84, with the last byte dropped when the new length no longer
reaches it. -/
def ByteSeq.shiftLeftOnce (p : ByteSeq) : ByteSeq :=
  if p.len = 0 then p
  else { len := p.len - 1, bytes := (cascadeLeft p.bytes).take (nbytes (p.len - 1)) }

/-- `shift_right_once` repeated `k` times on a copy (R85). -/
def ByteSeq.shiftRightTimes : Nat → ByteSeq → ByteSeq
  | 0, p => p
  | k + 1, p => ByteSeq.shiftRightTimes k p.shiftRightOnce

/-- `q.b[nb-1] <- q.b[nb-1] OR m`, the join of the slow path of R85. -/
def orLast (m : Byte) : List Byte → List Byte
  | [] => []
  | [b] => [b ||| m]
  | b :: c :: bytes => b :: orLast m (c :: bytes)

/-- The byte-level `concat` of R85: the guard, the byte-aligned fast path, the shifting slow path. -/
def ByteSeq.concat (p o : ByteSeq) : ByteSeq :=
  if o.len = 0 then p
  else if p.len % 8 = 0 then { len := p.len + o.len, bytes := p.bytes ++ o.bytes }
  else
    let t := ByteSeq.shiftRightTimes (p.len % 8) o
    { len := p.len + o.len, bytes := orLast (t.bytes.headD 0) p.bytes ++ t.bytes.tail }

/-- The mask of R86: the `M mod 8` high-order bits, all 8 when the remainder is 0. -/
def prefixMask (M : Nat) : Byte := if M % 8 = 0 then 0xFF else 0xFF <<< (8 - M % 8)

/-- The comparison of R86: all bytes of `o` but the last in full, the last under the mask. -/
def startWithBytes (mask : Byte) : (q o : List Byte) → Bool
  | _, [] => true
  | [], _ :: _ => false
  | a :: _, [b] => (a &&& mask) == (b &&& mask)
  | a :: q, b :: c :: o => a == b && startWithBytes mask q (c :: o)

/-- The byte-level `start_with` of R86. -/
def ByteSeq.startWith (p o : ByteSeq) : Bool :=
  if o.len = 0 then true
  else if o.len > p.len then false
  else startWithBytes (prefixMask o.len) p.bytes o.bytes

/-- Equality on canonical storage: equal length and equal backing bytes (R87). -/
def ByteSeq.eqBytes (p o : ByteSeq) : Bool := p.len == o.len && p.bytes == o.bytes

end Sys2Proof.Machine
end

