-- ==== Sys2Proof/Safety.lean ====
section
/-!
DEFINITION. What the claims use: the invariant of R30 with what R17, R21, R22, R25 and R29 add to it, and what it
means for the core to have come through without a fault (R200).
-/

namespace Sys2Proof.Machine

/-- No fault is recorded: `STATUS.FAULT = 0` (R16, R200). -/
abbrev State.FaultFree (s : State) : Prop := s.err = .none

/-- R30 (a), (g): every BitSequence is within the capacity of the register that holds it. -/
abbrev State.SequencesFit (s : State) : Prop :=
  (∀ i : Fin 4, (s.bsReg i).length ≤ s.cfg.bsCap) ∧ s.pay.length ≤ s.cfg.payCap ∧
  ∀ p ∈ s.cw.pairs, overlong p.2 = false

/-- Both buffers are in canonical form and within their capacity (R25), `OLEN` is within `OBUF` (R30 (e)), and
the bytes of `OBUF[0..OLEN)` have been written (R19). -/
abbrev State.BuffersFit (s : State) : Prop :=
  s.ibuf.wf s.cfg.ibufCap ∧ s.obuf.wf s.cfg.obufCap ∧ s.olen.toNat ≤ s.cfg.obufCap ∧
  ∀ a < s.olen.toNat, (s.obuf.read? a).isSome = true

/-- R17: `ERRINFO` is 0 when `ERR` is. R30 (c): `DSTATE` is Exhausted or Scanning between commands. -/
abbrev State.ControlLegal (s : State) : Prop :=
  (s.err = .none → s.errinfo = 0) ∧ s.dstate ≠ .matched

/-- The sum of all counters. -/
def countTotal (f : SymFile Word) : Nat := (f.pairs.map fun p => p.2.toNat).sum

/-- R21, R22: the counters are those of at most `2^32 - 1` bytes, so no weight wraps. -/
abbrev State.CountsFit (s : State) : Prop := countTotal s.freq < 2 ^ 32

/-- The arena indices that an Internal points to, the left one first; a Leaf points nowhere (R22). -/
def Node.children (n : Node) : List Nat :=
  match n.kind with
  | .leaf => []
  | .internal => [n.left.toNat, n.right.toNat]

/-- The Leaf entries of an arena (R22). -/
def leavesOf (nodes : List Node) : List Node := nodes.filter fun n => n.kind = .leaf

/-- R22 of an arena that holds a tree: `n >= 2` leaves among `2n - 1` entries, the root last, every child at a
smaller index than its parent, no child shared, no symbol twice, and the fields a kind does not use at
their fixed values. -/
abbrev TreeShape (nodes : List Node) (root : NodeIdx) : Prop :=
  2 ≤ (leavesOf nodes).length ∧ nodes.length = 2 * (leavesOf nodes).length - 1 ∧
  root = BitVec.ofNat 9 (nodes.length - 1) ∧
  (∀ k < nodes.length, ∀ c ∈ (nodeAt nodes k).children, c < k) ∧
  (nodes.flatMap Node.children).Nodup ∧ ((leavesOf nodes).map Node.sym).Nodup ∧
  ∀ n ∈ nodes, (n.kind = .leaf → n.left = NodeIdx.nil ∧ n.right = NodeIdx.nil) ∧ (n.kind = .internal → n.sym = 0)

/-- R30 (f): no tree, or a tree. -/
abbrev State.ArenaLegal (s : State) : Prop :=
  (s.nodes = [] ∧ s.root = NodeIdx.nil) ∨ TreeShape s.nodes s.root

/-- The invariant between commands (R30). -/
abbrev State.Inv (s : State) : Prop :=
  s.cfg.WellFormed ∧ s.SequencesFit ∧ s.BuffersFit ∧ s.ControlLegal ∧ s.CountsFit ∧ s.ArenaLegal

/-! ### Words for the claims -/

/-- The symbol values in ascending order. -/
def symbols : List Byte := (List.range 256).map (BitVec.ofNat 8)

/-- The result is a next state with the fault recorded and nothing else of the core changed (R190). -/
def FaultsWith (code : ErrCode) (info : Nat) (s : State) (r : Result) : Prop :=
  ∃ t, r = .next t ∧ t.err = code ∧ t.errinfo = BitVec.ofNat 32 info ∧
    t = { s with err := t.err, errinfo := t.errinfo, draws := t.draws }

/-- The result is a next state that differs from `s` in `BS[rd]` alone, which is now `v`. -/
def SetsBs (rd : Fin 4) (v : BitSeq) (s : State) (r : Result) : Prop :=
  ∃ t, r = .next t ∧ t.bsReg rd = v ∧ (∀ j, j ≠ rd → t.bsReg j = s.bsReg j) ∧ t = { s with bs := t.bs }

/-- The input buffer holds exactly the bytes `d`, all of them written, and they fit (R19, R25). -/
abbrev State.HoldsInput (s : State) (d : List Byte) : Prop :=
  s.ilen.toNat = d.length ∧ d.length ≤ s.cfg.ibufCap ∧ ∀ i < d.length, s.ibuf.read? i = d[i]?

/-- The output buffer shows the bytes `d` at its front. -/
abbrev State.ShowsOutput (s : State) (d : List Byte) : Prop :=
  s.olen.toNat = d.length ∧ ∀ i < d.length, s.obuf.read? i = d[i]?

/-- The codeword of a symbol, empty where the table has none. -/
def codeOf (T : Table) (x : Byte) : BitSeq := (T.slot x).getD []

/-- The packed payload of `d` under a table: the codewords in input order (R122). -/
def packed (T : Table) (d : List Byte) : BitSeq := d.flatMap (codeOf T)

/-- Every byte of `d` is a key of the table (R23). -/
abbrev Table.covers (T : Table) (d : List Byte) : Prop := ∀ x ∈ d, (T.slot x).isSome = true

/-- No codeword is a prefix of another symbol's codeword (R9, R119), and none is empty. -/
def Table.PrefixFree (T : Table) : Prop :=
  (∀ x c, T.slot x = some c → c ≠ []) ∧
  ∀ x y c d, x ≠ y → T.slot x = some c → T.slot y = some d → ¬ c <+: d

/-- Every valid slot's codeword fits the header's length byte (R23). -/
def Table.Fits (T : Table) : Prop := ∀ x c, T.slot x = some c → c.length ≤ 255

/-- One header entry as it lies in the buffer (R122): symbol, bit length, codeword bytes with any padding. -/
structure RawEntry where
  sym : Byte
  len : Byte
  data : List Byte
deriving DecidableEq, Repr

/-- The entry has exactly `ceil(L / 8)` codeword bytes (R122). -/
abbrev RawEntry.sized (e : RawEntry) : Prop := e.data.length = (e.len.toNat + 7) / 8

/-- The bytes of an entry (R122). -/
def RawEntry.bytes (e : RawEntry) : List Byte := e.sym :: e.len :: e.data

/-- The slots that a list of entries leaves: a later entry for a symbol replaces an earlier one (R143). -/
def slotAfter (es : List RawEntry) (x : Byte) : Option BitSeq :=
  (es.reverse.find? fun e => e.sym == x).map fun e => mkbits e.data e.len.toNat

/-- Where a walk from node `i` along branch bits ends, 0 to the left and 1 to the right (R118). -/
def follow (nodes : List Node) : (i : Nat) → BitSeq → Option Nat
  | i, [] => some i
  | i, b :: path =>
    match (nodeAt nodes i).kind with
    | .leaf => none
    | .internal => follow nodes (if b then (nodeAt nodes i).right.toNat else (nodeAt nodes i).left.toNat) path

/-- Node `i` is still in the queue when the node at index `k` is made: it exists and no earlier Internal has
taken it as a child (R114, R115). -/
def Waiting (nodes : List Node) (k i : Nat) : Prop := i < k ∧ ∀ m < k, i ∉ (nodeAt nodes m).children

/-- Node `i` pops before node `j`: smaller weight, or equal weight and smaller index (R114). -/
def PopsBefore (nodes : List Node) (i j : Nat) : Prop :=
  (nodeAt nodes i).occ.toNat < (nodeAt nodes j).occ.toNat ∨
  ((nodeAt nodes i).occ.toNat = (nodeAt nodes j).occ.toNat ∧ i < j)

/-- The host may read element `idx` of the space (R44, R40). -/
def readAllowed (c : Config) (space : Space) (idx : Nat) : Bool :=
  match space with
  | .reg => decide (idx ≤ 11)
  | .ibuf => decide (idx < c.ibufCap)
  | .obuf => decide (idx < c.obufCap)
  | .payb => decide (idx < c.payCap / 8)
  | .freq => decide (idx ≤ 255)
  | .node => decide (idx ≤ 1021)
  | .cwlen => decide (idx ≤ 255)
  | .cwdata => decide (idx ≤ 8191)

/-- The host may write this element there (R44, R45). -/
def writeAllowed (c : Config) (space : Space) (idx : Nat) (value : Elem) : Bool :=
  match space, value with
  | .reg, .word _ => decide (idx ∈ [0, 4, 5, 7, 8, 9])
  | .ibuf, .byte _ => decide (idx < c.ibufCap)
  | _, _ => false

/-- The table of R29, without the contents of the two buffers. -/
def State.AtReset (t : State) : Prop :=
  (∀ i, t.bsReg i = []) ∧ t.hostRead .reg 0 = .value (.word 0) ∧ t.statusWord = 0 ∧ t.tflag = false ∧
  t.dstate = .exhausted ∧ t.err = .none ∧
  t.errinfo = 0 ∧ t.limitEn = false ∧ t.ilen = 0 ∧ t.olen = 0 ∧ t.hlen = 0 ∧ t.symlimit = 0 ∧ t.blen = 0 ∧
  t.pay = [] ∧ t.paylen = 0 ∧ t.treeInfo = 0x000001FF ∧ t.root = 0x1FF ∧ t.nnode = 0 ∧
  (∀ x, count t.freq x = 0) ∧ (∀ i, nodeAt t.nodes i = ⟨.leaf, 0, 0x1FF, 0x1FF, 0⟩) ∧
  ∀ x, t.cw.slot x = none

/-- Element `idx` of the space exists, is not UNSPECIFIED, and is `e` (R14, R40, R44, R56). -/
def State.Shows (s : State) (space : Space) (idx : Nat) (e : Elem) : Prop :=
  match space with
  | .reg =>
    idx ≤ 11 ∧
    e = .word ([0, s.statusWord, BitVec.ofNat 32 s.err.code, s.errinfo, BitVec.ofNat 32 s.limitEn.toNat, s.ilen,
      s.olen, s.hlen, s.symlimit, s.blen, BitVec.ofNat 32 s.pay.length, s.treeInfo].getD idx 0)
  | .ibuf => idx < s.cfg.ibufCap ∧ ∃ b, s.ibuf.read? idx = some b ∧ e = .byte b
  | .obuf => idx < s.cfg.obufCap ∧ idx < s.olen.toNat ∧ ∃ b, s.obuf.read? idx = some b ∧ e = .byte b
  | .payb =>
    idx < s.cfg.payCap / 8 ∧ idx < (s.pay.length + 7) / 8 ∧
    ∃ b, (∀ k < 8, b.getLsbD (7 - k) = s.pay.getD (8 * idx + k) false) ∧ e = .byte b
  | .freq => ∃ x : Byte, idx = x.toNat ∧ e = .word (count s.freq x)
  | .node =>
    ∃ i ≤ 510, (idx = 2 * i ∧ e = .word (nodeAt s.nodes i).occ) ∨
      (idx = 2 * i + 1 ∧ e = .word (nodeWord (nodeAt s.nodes i)))
  | .cwlen => ∃ x : Byte, idx = x.toNat ∧ e = .word (cwlenWord (s.cw.slot x))
  | .cwdata =>
    ∃ (x : Byte) (c : BitSeq) (j : Nat), idx = 32 * x.toNat + j ∧ j < 32 ∧ s.cw.slot x = some c ∧
      j < (c.length + 7) / 8 ∧ ∃ b, (∀ k < 8, b.getLsbD (7 - k) = c.getD (8 * j + k) false) ∧ e = .byte b

end Sys2Proof.Machine

namespace Sys2Proof

/-- `SYS.RESET` and the commands that read or write a `BS` register (R12, R49). -/
def Instr.usesBs : Instr → Bool
  | .sysReset | .bsClr _ | .bsLd _ | .bsSt _ | .bsPushf _ _ | .bsShr _ | .bsShl _ | .bsCat _ _ | .bsStw _ _
  | .bsEq _ _ => true
  | .sysNop | .encCount | .encTree | .encTable | .encHdr | .encPack | .encAll | .decHdr | .decLoad | .decStep
  | .decRun | .decAll => false

/-- `SYS.RESET` and the commands that write the flag `T` (R26). -/
def Instr.writesT : Instr → Bool
  | .sysReset | .bsStw _ _ | .bsEq _ _ => true
  | .sysNop | .bsClr _ | .bsLd _ | .bsSt _ | .bsPushf _ _ | .bsShr _ | .bsShl _ | .bsCat _ _ | .encCount | .encTree
  | .encTable | .encHdr | .encPack | .encAll | .decHdr | .decLoad | .decStep | .decRun | .decAll => false

end Sys2Proof
end

