-- ==== Sys2Proof/Certificates/Slice0/Obligations.lean ====
section
/-!
DEFINITION. The statements for the provers, in the order of OBLIGATIONS.json. A frame is written
`t = { s with f := t.f, … }`: every field of the state but the named ones is as before. Bytes that the input
buffer does not hold are free values (`Config.freeByte`); no statement rests on a value of one. Three things in
the statements are the model's own and no rule's: the host's accesses to come are the list `script`
(assumption 4), free bytes are drawn by the counter `draws` (assumption 2), and a byte that nothing has
written since power-on is one that a buffer does not list (assumption 3).
-/

open Sys2Proof Sys2Proof.Machine

/-! ## Encoding and dispatch -/

/-- R60 to R64: a well-formed command's word decodes to that command, with every operand at every value. -/
def Obligations.DecodeOfEncodeGivesTheCommand : Prop :=
  ∀ i : Instr, i.wellFormed = true → decode (encode i) = .ok i

/-- R64, R65: a word that decodes is the word of the command it decodes to, so no other word is a command. -/
def Obligations.EncodeOfDecodeGivesTheWord : Prop :=
  ∀ (w : Word) (i : Instr), decode w = .ok i → i.wellFormed = true ∧ encode i = w

/-- R69: the worked encodings, legal and illegal. -/
def Obligations.WorkedWordsDecodeAsTheSpecSays : Prop :=
  decode 0x00010213 = .ok (.bsPushf 2 1) ∧ decode 0x00000C16 = .ok (.bsCat 0 3) ∧
  decode 0x00000917 = .ok (.bsStw 1 2) ∧ decode 0x0000002F = .ok .encAll ∧
  decode 0x00020013 = .ok (.bsPushf 0 2) ∧ decode 0x00000116 = .ok (.bsCat 1 0) ∧
  decode 0x00010010 = .error .mustBeZeroBitSet ∧ decode 0x00001000 = .error .mustBeZeroBitSet ∧
  decode 0x00000002 = .error .unassignedOpcode

/-- R15, R170 step 4: when the host's next access is the write of a command's word to `CMD`, the step is that
command's execution, on the state with the access taken off the host's list. Of a faulted core this holds
of `SYS.RESET` alone. -/
def Obligations.StepRunsTheDecodedCommand : Prop :=
  ∀ (s : State) (w : Word) (rest : List HostAction) (i : Instr),
    s.script = commandWrite w :: rest → decode w = .ok i → (s.err = .none ∨ i = .sysReset) →
    step s = exec i { s with script := rest }

/-- R170, all four steps in their order: reset, hold-off, illegal word, execution; and a step that is no write to
`CMD` (and no power-on reset) executes nothing: it changes at most what the host can write and has read. That
the host's accesses are a list in the state is the model's choice (assumption 4). -/
def Obligations.CommandWordsAreTakenInTheStatedOrder : Prop :=
  (∀ (s : State) (w : Word) (rest : List HostAction), s.script = commandWrite w :: rest →
    (decode w = .ok .sysReset → step s = exec .sysReset { s with script := rest }) ∧
    (decode w ≠ .ok .sysReset → s.err ≠ .none → step s = .next { s with script := rest }) ∧
    (∀ e, decode w = .error e → s.err = .none →
      ∃ t, step s = .next t ∧ t.err = .illegalCommand ∧ t.errinfo = w ∧
        t = { s with script := rest, err := t.err, errinfo := t.errinfo, draws := t.draws }) ∧
    (∀ i, i ≠ .sysReset → decode w = .ok i → s.err = .none → step s = exec i { s with script := rest })) ∧
  ∀ s t : State, step s = .next t → (∀ w, s.script.head? ≠ some (commandWrite w)) →
    s.script.head? ≠ some .powerOnReset →
    t = { s with script := t.script, replies := t.replies, draws := t.draws, limitEn := t.limitEn, ilen := t.ilen,
                 hlen := t.hlen, symlimit := t.symlimit, blen := t.blen, ibuf := t.ibuf }

/-! ## Reset and the system commands -/

/-- R29 (with R175, R210): the values after a power-on reset, and the same after `SYS.RESET` but for the buffers,
whose bytes `SYS.RESET` leaves as they were and which nothing has written after power-on (the model's form of
UNSPECIFIED, assumption 3). -/
def Obligations.ResetLeavesTheStatedValues : Prop :=
  (∀ (s : State), ∃ t, exec .sysReset s = .next t ∧
    (∀ a, t.ibuf.read? a = s.ibuf.read? a ∧ t.obuf.read? a = s.obuf.read? a) ∧ t.AtReset) ∧
  (∀ (s : State) (rest : List HostAction), s.script = .powerOnReset :: rest →
    ∃ t, step s = .next t ∧ (∀ a, t.ibuf.read? a = none ∧ t.obuf.read? a = none) ∧ t.AtReset) ∧
  State.reset.AtReset ∧ ∀ a, State.reset.ibuf.read? a = none ∧ State.reset.obuf.read? a = none

/-- R174: `SYS.NOP` does nothing, its word is `0x00000000` alone, and writing that word to `CMD` changes nothing, of a
faulted core either. -/
def Obligations.NopChangesNothing : Prop :=
  (∀ s : State, exec .sysNop s = .next s) ∧ (∀ w : Word, decode w = .ok .sysNop ↔ w = 0) ∧
  ∀ (s : State) (rest : List HostAction), s.script = commandWrite 0 :: rest →
    step s = .next { s with script := rest }

/-- R191: once a fault is recorded, nothing but a reset changes the core; host writes still reach `IBUF` and the
writable registers, and the fault record stays. -/
def Obligations.FaultsAreStickyUntilReset : Prop :=
  ∀ (s t : State), step s = .next t → s.err ≠ .none →
    t = { s with script := t.script, replies := t.replies, draws := t.draws, limitEn := t.limitEn, ilen := t.ilen,
                 hlen := t.hlen, symlimit := t.symlimit, blen := t.blen, ibuf := t.ibuf } ∨
    s.script.head? = some .powerOnReset ∨ ∃ w, s.script.head? = some (commandWrite w) ∧ decode w = .ok .sysReset

/-! ## The BitSequence commands -/

/-- R90, R94: `BS.CLR` empties its register; `BS.SHL` drops bit 0, and does nothing to an empty register. -/
def Obligations.ClearAndShiftLeft : Prop :=
  ∀ (s : State) (rd : Fin 4),
    decode (BitVec.ofNat 32 (0x10 + 256 * rd.val)) = .ok (.bsClr rd) ∧
    decode (BitVec.ofNat 32 (0x15 + 256 * rd.val)) = .ok (.bsShl rd) ∧
    SetsBs rd [] s (exec (.bsClr rd) s) ∧
    (s.bsReg rd = [] → SetsBs rd [] s (exec (.bsShl rd) s)) ∧
    ∀ b q, s.bsReg rd = b :: q → SetsBs rd q s (exec (.bsShl rd) s)

/-- R92, R93: prepending a bit, with the tests in their order. -/
def Obligations.PushFrontAndShiftRight : Prop :=
  ∀ (s : State) (rd : Fin 4) (imm8 : Nat),
    (imm8 < 256 → decode (BitVec.ofNat 32 (0x13 + 256 * rd.val + 65536 * imm8)) = .ok (.bsPushf rd imm8)) ∧
    decode (BitVec.ofNat 32 (0x14 + 256 * rd.val)) = .ok (.bsShr rd) ∧
    ((s.bsReg rd).length + 1 ≤ s.cfg.bsCap →
      SetsBs rd (false :: s.bsReg rd) s (exec (.bsPushf rd 0) s) ∧
      SetsBs rd (true :: s.bsReg rd) s (exec (.bsPushf rd 1) s) ∧
      SetsBs rd (false :: s.bsReg rd) s (exec (.bsShr rd) s)) ∧
    (1 < imm8 → FaultsWith .invalidBitValue imm8 s (exec (.bsPushf rd imm8) s)) ∧
    (s.cfg.bsCap < (s.bsReg rd).length + 1 →
      (imm8 ≤ 1 → FaultsWith .capacityExceeded 3 s (exec (.bsPushf rd imm8) s)) ∧
      FaultsWith .capacityExceeded 3 s (exec (.bsShr rd) s))

/-- R95: `BS.CAT` appends the source's bits, both operands read before the write; `rs = rd` doubles. -/
def Obligations.ConcatenationAppends : Prop :=
  ∀ (s : State) (rd rs : Fin 4),
    decode (BitVec.ofNat 32 (0x16 + 256 * rd.val + 1024 * rs.val)) = .ok (.bsCat rd rs) ∧
    ((s.bsReg rd).length + (s.bsReg rs).length ≤ s.cfg.bsCap →
      SetsBs rd (s.bsReg rd ++ s.bsReg rs) s (exec (.bsCat rd rs) s)) ∧
    (s.cfg.bsCap < (s.bsReg rd).length + (s.bsReg rs).length →
      FaultsWith .capacityExceeded 3 s (exec (.bsCat rd rs) s))

/-- R91: `BS.LD` takes `BLEN` bits from the front of `IBUF`, bit `i` from bit `7 - (i mod 8)` of byte `i div 8`;
its faults in their order. -/
def Obligations.LoadTakesBitsMostSignificantFirst : Prop :=
  ∀ (s : State) (rd : Fin 4),
    decode (BitVec.ofNat 32 (0x11 + 256 * rd.val)) = .ok (.bsLd rd) ∧
    (s.cfg.bsCap < s.blen.toNat → FaultsWith .capacityExceeded 3 s (exec (.bsLd rd) s)) ∧
    (s.blen.toNat ≤ s.cfg.bsCap → (s.cfg.ibufCap < s.ilen.toNat ∨ s.ilen.toNat < (s.blen.toNat + 7) / 8) →
      FaultsWith .capacityExceeded 4 s (exec (.bsLd rd) s)) ∧
    (s.blen.toNat ≤ s.cfg.bsCap → s.ilen.toNat ≤ s.cfg.ibufCap → (s.blen.toNat + 7) / 8 ≤ s.ilen.toNat →
      ∃ t, exec (.bsLd rd) s = .next t ∧ (t.bsReg rd).length = s.blen.toNat ∧
        (∀ i < s.blen.toNat, (t.bsReg rd)[i]? = some ((s.ibufByte (i / 8)).getLsbD (7 - i % 8))) ∧
        (∀ j, j ≠ rd → t.bsReg j = s.bsReg j) ∧ t = { s with bs := t.bs, draws := t.draws })

/-- R99: `BS.ST` stores the backing bytes at the front of `OBUF`, unused low bits 0, and sets `OLEN` and `BLEN`. -/
def Obligations.StoreWritesTheBackingBytes : Prop :=
  ∀ (s : State) (rd : Fin 4), s.cfg.WellFormed → (s.bsReg rd).length ≤ s.cfg.bsCap →
    decode (BitVec.ofNat 32 (0x12 + 256 * rd.val)) = .ok (.bsSt rd) ∧
    ∃ t, exec (.bsSt rd) s = .next t ∧
      t.olen.toNat = ((s.bsReg rd).length + 7) / 8 ∧ t.blen.toNat = (s.bsReg rd).length ∧
      (∀ j < ((s.bsReg rd).length + 7) / 8, ∃ b, t.obuf.read? j = some b ∧
        ∀ k < 8, b.getLsbD (7 - k) = (s.bsReg rd).getD (8 * j + k) false) ∧
      (∀ a, ((s.bsReg rd).length + 7) / 8 ≤ a → t.obuf.read? a = s.obuf.read? a) ∧
      t = { s with obuf := t.obuf, olen := t.olen, blen := t.blen }

/-- R96, R97 (with R86, R87): `T` is 1 exactly when the source register is a prefix of, or equal to, the first
register; nothing else changes. -/
def Obligations.TestsSetTheFlag : Prop :=
  ∀ (s : State) (rd rs : Fin 4),
    decode (BitVec.ofNat 32 (0x17 + 256 * rd.val + 1024 * rs.val)) = .ok (.bsStw rd rs) ∧
    decode (BitVec.ofNat 32 (0x18 + 256 * rd.val + 1024 * rs.val)) = .ok (.bsEq rd rs) ∧
    (∃ t, exec (.bsStw rd rs) s = .next t ∧ (t.tflag = true ↔ s.bsReg rs <+: s.bsReg rd) ∧
      t = { s with tflag := t.tflag }) ∧
    (∃ t, exec (.bsEq rd rs) s = .next t ∧ (t.tflag = true ↔ s.bsReg rd = s.bsReg rs) ∧
      t = { s with tflag := t.tflag })

/-- R89: the laws of the BitSequence functions, the shift inverse as C2 of spec/90_conflicts.md corrects it. -/
def Obligations.BitSequenceLaws : Prop :=
  (∀ q, startWith q q = true ∧ startWith q [] = true) ∧ (∀ o, o ≠ [] → startWith [] o = false) ∧
  (∀ a b c, concat (concat a b) c = concat a (concat b c)) ∧
  (∀ q, q ≠ [] → shiftRightOnce (shiftLeftOnce q) = false :: q.drop 1) ∧
  (∀ q, shiftLeftOnce (shiftRightOnce q) = q) ∧
  (∀ q r bit, pushFrontBit q bit = some r → shiftLeftOnce r = q) ∧
  ∀ a b, startWith (concat a b) a = true

/-- R81 of R82, R83, R84: the byte-level shifts and the byte-level prepend give the canonical representation of
the bit-list result. -/
def Obligations.ByteLevelShiftsRefineTheBitLists : Prop :=
  ∀ q : BitSeq,
    (ByteSeq.ofBits q).shiftRightOnce = ByteSeq.ofBits (shiftRightOnce q) ∧
    (∀ bit, (ByteSeq.ofBits q).pushFrontBit bit = (pushFrontBit q bit).map ByteSeq.ofBits) ∧
    (ByteSeq.ofBits q).shiftLeftOnce = ByteSeq.ofBits (shiftLeftOnce q)

/-- R81 of R85: the byte-level `concat`, fast path and slow path. -/
def Obligations.ByteLevelConcatRefinesTheBitLists : Prop :=
  ∀ q o : BitSeq, (ByteSeq.ofBits q).concat (ByteSeq.ofBits o) = ByteSeq.ofBits (concat q o)

/-- R81 of R86, R87: the byte-level comparisons. -/
def Obligations.ByteLevelComparisonsRefineTheBitLists : Prop :=
  ∀ q o : BitSeq,
    (ByteSeq.ofBits q).startWith (ByteSeq.ofBits o) = startWith q o ∧
    (ByteSeq.ofBits q).eqBytes (ByteSeq.ofBits o) = eqBits q o

/-! ## The encoder commands -/

/-- R110: `FREQ[x]` becomes the number of indices below `ILEN` whose byte is `x`, for all 256 values of `x`. -/
def Obligations.CountCountsEveryByte : Prop :=
  decode 0x20 = .ok .encCount ∧
  ∀ s : State,
    (s.cfg.ibufCap < s.ilen.toNat → FaultsWith .capacityExceeded 4 s (exec .encCount s)) ∧
    (s.ilen.toNat ≤ s.cfg.ibufCap →
      ∃ t, exec .encCount s = .next t ∧
        (∀ x, (count t.freq x).toNat = ((List.range s.ilen.toNat).filter fun i => s.ibufByte i = x).length) ∧
        t = { s with freq := t.freq, draws := t.draws })

/-- R117: with every count 0 `ENC.TREE` raises `EmptyInput` and leaves the tree. -/
def Obligations.EmptyInputHasNoTree : Prop :=
  ∀ s : State, (∀ x, count s.freq x = 0) → FaultsWith .emptyInput 0 s (exec .encTree s)

/-- R22 after R112: with some count not 0, `ENC.TREE` builds a tree of the shape R22 gives, its root's weight
the sum of all counts, and changes nothing else. -/
def Obligations.TreeBuilderBuildsOneTree : Prop :=
  ∀ s : State, s.CountsFit → (∃ x, count s.freq x ≠ 0) →
    ∃ t, exec .encTree s = .next t ∧ TreeShape t.nodes t.root ∧
      (nodeAt t.nodes t.root.toNat).occ.toNat = countTotal s.freq ∧
      t = { s with nodes := t.nodes, root := t.root }

/-- R113, R116: the leaves are the bytes that occur, in ascending order, from index 0 on; a single byte `x` is
joined with a synthetic leaf `(x + 1) mod 256` of weight 0, which becomes the left child. -/
def Obligations.LeavesAreSeededInAscendingOrder : Prop :=
  ∀ (s : State) (D : List Byte), s.CountsFit → D.Pairwise (fun x y => x.toNat < y.toNat) →
    (∀ x, x ∈ D ↔ count s.freq x ≠ 0) → D ≠ [] →
    ∃ t, exec .encTree s = .next t ∧
      (2 ≤ D.length →
        leavesOf t.nodes = D.map (fun x => ⟨.leaf, x, 0x1FF, 0x1FF, count s.freq x⟩) ∧
        t.nodes.take D.length = leavesOf t.nodes) ∧
      (∀ x, D = [x] →
        t.nodes = [⟨.leaf, x, 0x1FF, 0x1FF, count s.freq x⟩, ⟨.leaf, x + 1, 0x1FF, 0x1FF, 0⟩,
          ⟨.internal, 0, 1, 0, count s.freq x⟩] ∧ t.root = 2) ∧
      t = { s with nodes := t.nodes, root := t.root }

/-- R114, R115: every Internal joins the two nodes that pop first among those still waiting when it is made, the
first popped left, and its weight is the sum of theirs. With `n` leaves the arena ends with `2n - 1` entries, the
leaves first, and the root is the last of them. -/
def Obligations.EveryJoinTakesTheTwoLightest : Prop :=
  ∀ s : State, s.CountsFit → (∃ x, count s.freq x ≠ 0) →
    ∃ t, exec .encTree s = .next t ∧
      t.nodes.length = 2 * (leavesOf t.nodes).length - 1 ∧ t.root.toNat = t.nodes.length - 1 ∧
      t.nodes.take (leavesOf t.nodes).length = leavesOf t.nodes ∧
      ∀ k < t.nodes.length, (nodeAt t.nodes k).kind = .internal →
        let a := (nodeAt t.nodes k).left.toNat
        let b := (nodeAt t.nodes k).right.toNat
        Waiting t.nodes k a ∧ Waiting t.nodes k b ∧ PopsBefore t.nodes a b ∧
        (∀ i, Waiting t.nodes k i → i ≠ a → i ≠ b → PopsBefore t.nodes b i) ∧
        (nodeAt t.nodes k).occ.toNat = (nodeAt t.nodes a).occ.toNat + (nodeAt t.nodes b).occ.toNat

/-- R118: on a tree, `CW[x]` becomes `c` exactly when the branch bits `c` lead from the root to the leaf of `x`;
with no tree `ENC.TABLE` raises `NoTree`. -/
def Obligations.CodewordsAreThePathsOfTheTree : Prop :=
  ∀ s : State,
    (s.root = 0x1FF → FaultsWith .noTree 0 s (exec .encTable s)) ∧
    (s.root ≠ 0x1FF → TreeShape s.nodes s.root →
      ∃ t, exec .encTable s = .next t ∧
        (∀ x c, t.cw.slot x = some c ↔
          ∃ k < s.nodes.length, follow s.nodes s.root.toNat c = some k ∧ (nodeAt s.nodes k).kind = .leaf ∧
            (nodeAt s.nodes k).sym = x) ∧
        t = { s with cw := t.cw })

/-- R119, R120 (with R118): the derived table is prefix-free, its codewords have 1 to 255 bits, and every leaf's
symbol has one. -/
def Obligations.DerivedTableIsPrefixFree : Prop :=
  ∀ s t : State, s.root ≠ 0x1FF → TreeShape s.nodes s.root → exec .encTable s = .next t →
    t.cw.PrefixFree ∧ t.cw.Fits ∧ ∀ x, (t.cw.slot x).isSome = true ↔ x ∈ (leavesOf s.nodes).map Node.sym

/-- R121, R122, R124: the header is the big-endian entry length and the entries in ascending symbol order; the
bytes beyond it stay. -/
def Obligations.HeaderIsWrittenByteForByte : Prop :=
  ∀ s : State, s.cw.Fits →
    let body := symbols.flatMap fun x =>
      match s.cw.slot x with
      | none => []
      | some c => [x, BitVec.ofNat 8 c.length] ++ (List.range ((c.length + 7) / 8)).map (byteAt c)
    ∃ t, exec .encHdr s = .next t ∧
      t.olen.toNat = 4 + body.length ∧ t.hlen.toNat = 4 + body.length ∧
      (∀ j < 4, t.obuf.read? j = some (BitVec.ofNat 8 (body.length / 256 ^ (3 - j)))) ∧
      (∀ j < body.length, t.obuf.read? (4 + j) = body[j]?) ∧
      (∀ a, 4 + body.length ≤ a → t.obuf.read? a = s.obuf.read? a) ∧
      t = { s with obuf := t.obuf, olen := t.olen, hlen := t.hlen }

/-- R123: a valid slot with more than 255 bits makes `ENC.HDR` raise `EncodingOverflow` with the smallest such
symbol. -/
def Obligations.OverlongCodewordsAreRejected : Prop :=
  ∀ (s : State) (x : Byte) (c : BitSeq), s.cw.slot x = some c → 255 < c.length →
    (∀ (y : Byte) (d : BitSeq), y.toNat < x.toNat → s.cw.slot y = some d → d.length ≤ 255) →
    FaultsWith .encodingOverflow x.toNat s (exec .encHdr s)

/-- R144: what `ENC.HDR` writes, `DEC.HDR` reads back as the same table, and nothing else changes. -/
def Obligations.HeaderRoundTrips : Prop :=
  ∀ s t u : State, s.cw.Fits → exec .encHdr s = .next t →
    t.hlen.toNat ≤ u.ilen.toNat → u.ilen.toNat ≤ u.cfg.ibufCap →
    (∀ j < t.hlen.toNat, u.ibuf.read? j = t.obuf.read? j) →
    ∃ v, exec .decHdr u = .next v ∧ v.cw = s.cw ∧ v.hlen = t.hlen ∧
      v = { u with cw := v.cw, hlen := v.hlen, draws := v.draws }

/-- R126: the packer concatenates the codewords in input order; the first byte without a codeword, or the first
codeword that does not fit, stops it, whichever comes first. -/
def Obligations.PackerConcatenatesCodewords : Prop :=
  decode 0x24 = .ok .encPack ∧
  ∀ s : State,
    (s.cfg.ibufCap < s.ilen.toNat → FaultsWith .capacityExceeded 4 s (exec .encPack s)) ∧
    (s.ilen.toNat ≤ s.cfg.ibufCap →
      (s.cw.covers s.input → (packed s.cw s.input).length ≤ s.cfg.payCap →
        ∃ t, exec .encPack s = .next t ∧ t.pay = packed s.cw s.input ∧
          t = { s with pay := t.pay, draws := t.draws }) ∧
      (∀ i x, s.input[i]? = some x → s.cw.covers (s.input.take i) →
        (packed s.cw (s.input.take i)).length ≤ s.cfg.payCap →
        (s.cw.slot x = none → FaultsWith .unknownSymbol i s (exec .encPack s)) ∧
        (∀ c, s.cw.slot x = some c → s.cfg.payCap < (packed s.cw (s.input.take i)).length + c.length →
          FaultsWith .capacityExceeded 2 s (exec .encPack s))))

/-- R128, R173: one `ENC.ALL` is the five commands `ENC.COUNT`, `ENC.TREE`, `ENC.TABLE`, `ENC.HDR`, `ENC.PACK`
written one after another, faults and held-off commands included. -/
def Obligations.EncodeAllIsItsFiveParts : Prop :=
  ∀ (s : State) (rest : List HostAction),
    step { s with script := commandWrite 0x2F :: rest } =
    Sys2Proof.core.run 5
      { s with script := commandWrite 0x20 :: commandWrite 0x21 :: commandWrite 0x22 :: commandWrite 0x23 ::
          commandWrite 0x24 :: rest }

/-- R128: on written, non-empty input whose payload fits, `ENC.ALL` ends without a fault, with the counts, the
tree, the table, the header and the payload of that input. -/
def Obligations.EncodeAllEncodesTheInput : Prop :=
  ∀ (s : State) (d : List Byte) (T : Table), s.cfg.WellFormed → s.err = .none → s.HoldsInput d → d ≠ [] →
    deriveTable (buildTree (countBytes d)) (BitVec.ofNat 9 ((buildTree (countBytes d)).length - 1)) = some T →
    (packed T d).length ≤ s.cfg.payCap →
    ∃ t, exec .encAll s = .next t ∧ t.err = .none ∧
      (∀ x, (count t.freq x).toNat = d.count x) ∧ t.nodes = buildTree t.freq ∧ TreeShape t.nodes t.root ∧
      t.cw = T ∧ T.covers d ∧ T.PrefixFree ∧ t.pay = packed T d ∧
      t.ShowsOutput (headerBytes T) ∧ t.hlen = t.olen ∧
      (∀ a, t.olen.toNat ≤ a → t.obuf.read? a = s.obuf.read? a) ∧
      t = { s with freq := t.freq, nodes := t.nodes, root := t.root, cw := t.cw, obuf := t.obuf, olen := t.olen,
                   hlen := t.hlen, pay := t.pay, draws := t.draws }

/-! ## The decoder commands -/

/-- R140, R143, R144: any list of framed entries is accepted; a later entry for a symbol replaces an earlier one,
padding bits are dropped, an entry takes `ceil(L / 8)` codeword bytes, and nothing beyond the extent is read. -/
def Obligations.HeaderOfFramedEntriesIsParsed : Prop :=
  ∀ (s : State) (es : List RawEntry), (∀ e ∈ es, e.sized) →
    s.ilen.toNat ≤ s.cfg.ibufCap → 4 + (es.flatMap RawEntry.bytes).length ≤ s.ilen.toNat →
    beValue (s.ibufBytes 0 4) = (es.flatMap RawEntry.bytes).length →
    s.ibufBytes 4 (es.flatMap RawEntry.bytes).length = es.flatMap RawEntry.bytes →
    ∃ t, exec .decHdr s = .next t ∧ (∀ x, t.cw.slot x = slotAfter es x) ∧
      t.hlen.toNat = 4 + (es.flatMap RawEntry.bytes).length ∧
      t = { s with cw := t.cw, hlen := t.hlen, draws := t.draws }

/-- R140, R142: the faults of `DEC.HDR` in their order. An entry that starts inside the declared extent but
reaches beyond it is reported by its offset. -/
def Obligations.BrokenHeadersAreRejected : Prop :=
  ∀ s : State,
    (s.cfg.ibufCap < s.ilen.toNat → FaultsWith .capacityExceeded 4 s (exec .decHdr s)) ∧
    (s.ilen.toNat ≤ s.cfg.ibufCap →
      (s.ilen.toNat < 4 ∨ s.ilen.toNat < 4 + beValue (s.ibufBytes 0 4) →
        FaultsWith .malformedHeader 0 s (exec .decHdr s)) ∧
      (∀ es : List RawEntry, (∀ e ∈ es, e.sized) →
        let n := (es.flatMap RawEntry.bytes).length
        let N := beValue (s.ibufBytes 0 4)
        4 ≤ s.ilen.toNat → 4 + N ≤ s.ilen.toNat → s.ibufBytes 4 n = es.flatMap RawEntry.bytes → n < N →
        (N < n + 2 ∨ N < n + 2 + ((s.ibufByte (4 + n + 1)).toNat + 7) / 8) →
        FaultsWith .malformedHeader (4 + n) s (exec .decHdr s)))

/-- R145: `DEC.LOAD` makes every bit of every byte of `IBUF[HLEN..ILEN)` the cursor, clears `OLEN` and starts
the state machine; its faults in their order. -/
def Obligations.LoadFillsTheCursor : Prop :=
  decode 0x31 = .ok .decLoad ∧
  ∀ s : State,
    (s.cfg.ibufCap < s.ilen.toNat → FaultsWith .capacityExceeded 4 s (exec .decLoad s)) ∧
    (s.ilen.toNat ≤ s.cfg.ibufCap →
      (s.ilen.toNat < s.hlen.toNat → FaultsWith .malformedHeader s.hlen.toNat s (exec .decLoad s)) ∧
      (s.hlen.toNat ≤ s.ilen.toNat →
        (s.cfg.payCap < 8 * (s.ilen.toNat - s.hlen.toNat) →
          FaultsWith .capacityExceeded 2 s (exec .decLoad s)) ∧
        (8 * (s.ilen.toNat - s.hlen.toNat) ≤ s.cfg.payCap →
          ∃ t, exec .decLoad s = .next t ∧ t.pay.length = 8 * (s.ilen.toNat - s.hlen.toNat) ∧
            (∀ i < t.pay.length, t.pay[i]? = some ((s.ibufByte (s.hlen.toNat + i / 8)).getLsbD (7 - i % 8))) ∧
            t.olen = 0 ∧ t.dstate = .scanning ∧
            t = { s with pay := t.pay, olen := t.olen, dstate := t.dstate, draws := t.draws })))

/-- R147, R149: a candidate is a valid slot with a non-empty codeword that is a prefix of the cursor; the match is
the candidate with the longest codeword, the smallest symbol among equals, and there is none without one. -/
def Obligations.MatchIsTheLongestThenTheLowest : Prop :=
  ∀ (pay : BitSeq) (T : Table),
    (matchSymbol pay T = none ↔ ∀ y d, T.slot y = some d → d ≠ [] → ¬ d <+: pay) ∧
    ∀ x c, matchSymbol pay T = some (x, c) →
      T.slot x = some c ∧ c ≠ [] ∧ c <+: pay ∧
      ∀ y d, T.slot y = some d → d ≠ [] → d <+: pay →
        d.length < c.length ∨ (d = c ∧ x.toNat ≤ y.toNat)

/-- R146, R148, R150: the six ways `DEC.STEP` can go, with the match of R147. -/
def Obligations.DecoderStepFollowsItsTransitions : Prop :=
  decode 0x32 = .ok .decStep ∧
  ∀ s : State,
    (s.dstate ≠ .scanning → exec .decStep s = .next s) ∧
    (s.dstate = .scanning →
      (s.limitEn = true ∧ s.symlimit.toNat ≤ s.olen.toNat →
        ∃ t, exec .decStep s = .next t ∧ t.dstate = .exhausted ∧ t = { s with dstate := t.dstate }) ∧
      (¬ (s.limitEn = true ∧ s.symlimit.toNat ≤ s.olen.toNat) →
        (matchSymbol s.pay s.cw = none → s.pay = [] →
          ∃ t, exec .decStep s = .next t ∧ t.dstate = .exhausted ∧ t = { s with dstate := t.dstate }) ∧
        (matchSymbol s.pay s.cw = none → s.pay ≠ [] →
          ∃ t, exec .decStep s = .next t ∧ t.dstate = .exhausted ∧ t.err = .decodeExhausted ∧
            t.errinfo = BitVec.ofNat 32 s.pay.length ∧
            t = { s with dstate := t.dstate, err := t.err, errinfo := t.errinfo, draws := t.draws }) ∧
        ∀ x c, matchSymbol s.pay s.cw = some (x, c) →
          (s.cfg.obufCap ≤ s.olen.toNat → FaultsWith .capacityExceeded 1 s (exec .decStep s)) ∧
          (s.olen.toNat < s.cfg.obufCap → s.cfg.WellFormed →
            ∃ t, exec .decStep s = .next t ∧ t.obuf.read? s.olen.toNat = some x ∧
              (∀ a, a ≠ s.olen.toNat → t.obuf.read? a = s.obuf.read? a) ∧
              t.olen.toNat = s.olen.toNat + 1 ∧ s.pay = c ++ t.pay ∧ t.dstate = .scanning ∧
              t = { s with obuf := t.obuf, olen := t.olen, pay := t.pay })))

/-- R153, R154, R173: one `DEC.RUN` is a `DEC.LOAD` and at most `8 * (ILEN - HLEN) + 1` `DEC.STEP`s written one
after another, and it ends with the decoder no longer Scanning or with a fault. -/
def Obligations.DecodeRunIsLoadAndBoundedSteps : Prop :=
  ∀ (s : State) (rest : List HostAction), s.err = .none →
    ∃ k ≤ 8 * (s.ilen.toNat - s.hlen.toNat) + 1, ∃ t,
      step { s with script := commandWrite 0x33 :: rest } = .next t ∧
      Sys2Proof.core.run (k + 1)
        { s with script := commandWrite 0x31 :: (List.replicate k (commandWrite 0x32) ++ rest) } = .next t ∧
      (t.dstate ≠ .scanning ∨ t.err ≠ .none)

/-- R155, R173: one `DEC.ALL` is a `DEC.HDR` and a `DEC.RUN` written one after another. -/
def Obligations.DecodeAllIsHeaderAndRun : Prop :=
  ∀ (s : State) (rest : List HostAction),
    step { s with script := commandWrite 0x3F :: rest } =
    Sys2Proof.core.run 2 { s with script := commandWrite 0x30 :: commandWrite 0x33 :: rest }

/-- R153, R151: with a prefix-free table in `CW`, a payload in `IBUF[HLEN..ILEN)` that packs `d`, and the limit at
`|d|`, `DEC.RUN` ends without a fault, has written exactly `d`, and leaves the bits behind it in the cursor. -/
def Obligations.DecodeRunRestoresThePackedBytes : Prop :=
  ∀ (s : State) (d : List Byte) (pad : BitSeq), s.cfg.WellFormed → s.err = .none → s.cw.PrefixFree →
    s.cw.covers d → s.limitEn = true → s.symlimit.toNat = d.length → d.length ≤ s.cfg.obufCap →
    s.ilen.toNat ≤ s.cfg.ibufCap → s.hlen.toNat ≤ s.ilen.toNat →
    8 * (s.ilen.toNat - s.hlen.toNat) ≤ s.cfg.payCap →
    mkbits (s.ibufBytes s.hlen.toNat (s.ilen.toNat - s.hlen.toNat)) (8 * (s.ilen.toNat - s.hlen.toNat)) =
      packed s.cw d ++ pad →
    ∃ t, exec .decRun s = .next t ∧ t.err = .none ∧ t.dstate = .exhausted ∧ t.ShowsOutput d ∧ t.pay = pad ∧
      (∀ a, d.length ≤ a → t.obuf.read? a = s.obuf.read? a) ∧
      t = { s with pay := t.pay, olen := t.olen, obuf := t.obuf, dstate := t.dstate, draws := t.draws }

/-- R157, R152: without the limit, `DEC.RUN` writes `d` first and then at most one symbol for each padding bit, and
ends without a fault or with `DecodeExhausted`. Premise of the model's own: `OBUF` has room for those symbols,
without which `CapacityExceeded` could come first (R188). -/
def Obligations.DecodeRunWithoutLimitDecodesPadding : Prop :=
  ∀ (s : State) (d : List Byte) (pad : BitSeq), s.cfg.WellFormed → s.err = .none → s.cw.PrefixFree →
    s.cw.covers d → s.limitEn = false → d.length + pad.length ≤ s.cfg.obufCap → pad.length ≤ 7 →
    s.ilen.toNat ≤ s.cfg.ibufCap → s.hlen.toNat ≤ s.ilen.toNat →
    8 * (s.ilen.toNat - s.hlen.toNat) ≤ s.cfg.payCap →
    mkbits (s.ibufBytes s.hlen.toNat (s.ilen.toNat - s.hlen.toNat)) (8 * (s.ilen.toNat - s.hlen.toNat)) =
      packed s.cw d ++ pad →
    ∃ t, exec .decRun s = .next t ∧ (t.err = .none ∨ t.err = .decodeExhausted) ∧ t.dstate = .exhausted ∧
      d.length ≤ t.olen.toNat ∧ t.olen.toNat ≤ d.length + 7 ∧ ∀ i < d.length, t.obuf.read? i = d[i]?

/-- R155, R144, R151: an artifact in `IBUF` (the header of a prefix-free table, then a payload that packs `d`)
with the limit at `|d|`: `DEC.ALL` ends without a fault, with the table read back and exactly `d` written. -/
def Obligations.DecodeAllDecodesAnArtifact : Prop :=
  ∀ (s : State) (d : List Byte) (T : Table) (payload : List Byte) (pad : BitSeq), s.cfg.WellFormed →
    s.err = .none → T.PrefixFree → T.Fits → T.covers d → s.HoldsInput (headerBytes T ++ payload) →
    mkbits payload (8 * payload.length) = packed T d ++ pad → 8 * payload.length ≤ s.cfg.payCap →
    s.limitEn = true → s.symlimit.toNat = d.length → d.length ≤ s.cfg.obufCap →
    ∃ t, exec .decAll s = .next t ∧ t.err = .none ∧ t.dstate = .exhausted ∧ t.ShowsOutput d ∧ t.cw = T ∧
      t.hlen.toNat = (headerBytes T).length ∧ t.pay = pad ∧
      (∀ a, d.length ≤ a → t.obuf.read? a = s.obuf.read? a) ∧
      t = { s with cw := t.cw, hlen := t.hlen, pay := t.pay, olen := t.olen, obuf := t.obuf, dstate := t.dstate,
                   draws := t.draws }

/-- R156 (the source's round trip, with the count supplied): a fault-free `ENC.ALL` of the written, non-empty
input `d`, the artifact `OBUF[0..OLEN) ++ PAYB[0..nbytes(PAYLEN))` put into the input buffer of any core with
room for it, the limit at `|d|`: then `DEC.ALL` ends without a fault and its output is `d`. -/
def Obligations.EncodeThenDecodeRestoresTheInput : Prop :=
  ∀ (s t u : State) (d header : List Byte), s.cfg.WellFormed → s.err = .none → s.HoldsInput d → d ≠ [] →
    exec .encAll s = .next t → t.err = .none → t.ShowsOutput header →
    u.cfg.WellFormed → u.err = .none →
    u.HoldsInput (header ++ (List.range ((t.pay.length + 7) / 8)).map (byteAt t.pay)) →
    8 * ((t.pay.length + 7) / 8) ≤ u.cfg.payCap → d.length ≤ u.cfg.obufCap →
    u.limitEn = true → u.symlimit.toNat = d.length →
    ∃ v, exec .decAll u = .next v ∧ v.err = .none ∧ v.ShowsOutput d

/-! ## The whole machine -/

/-- R29, R30: the invariant holds after reset, in every well-formed configuration. -/
def Obligations.ResetMeetsTheInvariant : Prop :=
  State.reset.Inv ∧ ∀ c : Config, c.WellFormed → (State.powerOn c).Inv

/-- R30: from every state with the invariant, whatever the host does next, the next state has it. -/
def Obligations.EveryStepKeepsTheInvariant : Prop :=
  ∀ s t : State, s.Inv → step s = .next t → t.Inv

/-- R171, R200, R225: every command has exactly one next state from every state with the invariant: none gets
stuck, none hangs, none is refused; and the arm of `EncodingOverflow` is dead (R123, R183). -/
def Obligations.EveryCommandHasANextState : Prop :=
  ∀ (i : Instr) (s : State), s.Inv →
    ∃ t, exec i s = .next t ∧ (s.err ≠ .encodingOverflow → t.err ≠ .encodingOverflow)

/-- R44, R46: from a state with the invariant a step is refused exactly when the host's next access is one that
the rights table does not allow, and it never faults. -/
def Obligations.OnlyDeniedAccessesAreRefused : Prop :=
  ∀ s : State, s.Inv →
    (∀ f, step s ≠ .fault f) ∧
    ((∃ r, step s = .refused r) ↔
      (∃ space idx, s.script.head? = some (.read space idx) ∧ readAllowed s.cfg space idx = false) ∨
      ∃ space idx value, s.script.head? = some (.write space idx value) ∧
        writeAllowed s.cfg space idx value = false)

/-- R16, R20, R56, R180: the fields of the packed words, bit for bit, the reserved bits, which read 0, and the
fault codes. -/
def Obligations.PackedWordsHoldTheirFields : Prop :=
  [ErrCode.none, .invalidBitValue, .unknownSymbol, .encodingOverflow, .malformedHeader, .decodeExhausted, .emptyInput,
    .illegalCommand, .capacityExceeded, .noTree].map ErrCode.code = [0, 1, 2, 3, 4, 5, 6, 7, 8, 9] ∧
  (∀ s : State,
    (s.statusWord.getLsbD 0 = true ↔ s.err ≠ .none) ∧ s.statusWord.getLsbD 1 = s.tflag ∧
    s.statusWord.extractLsb' 2 2 = (match s.dstate with | .exhausted => 0 | .scanning => 1 | .matched => 2) ∧
    s.statusWord.extractLsb' 4 28 = 0) ∧
  (∀ s : State, s.nodes.length ≤ 511 →
    s.treeInfo.extractLsb' 0 9 = s.root ∧ (s.treeInfo.extractLsb' 16 10).toNat = s.nodes.length ∧
    s.treeInfo.extractLsb' 9 7 = 0 ∧ s.treeInfo.extractLsb' 26 6 = 0) ∧
  (∀ n : Node,
    ((nodeWord n).getLsbD 31 = true ↔ n.kind = .internal) ∧ (nodeWord n).extractLsb' 26 5 = 0 ∧
    (nodeWord n).extractLsb' 18 8 = n.sym ∧ (nodeWord n).extractLsb' 9 9 = n.left ∧
    (nodeWord n).extractLsb' 0 9 = n.right) ∧
  ∀ slot : Option BitSeq, (∀ c, slot = some c → c.length ≤ 255) →
    ((cwlenWord slot).getLsbD 31 = slot.isSome) ∧ (cwlenWord slot).extractLsb' 8 23 = 0 ∧
    ((cwlenWord slot).extractLsb' 0 8).toNat = (slot.getD []).length

/-- R14, R40, R44, R56: what a host read of each space gives back, as the latest reply. -/
def Obligations.HostReadsShowTheState : Prop :=
  ∀ (s : State) (space : Space) (idx : Nat) (rest : List HostAction) (e : Elem),
    s.script = .read space idx :: rest → s.Shows space idx e →
    ∃ t, step s = .next t ∧ t = { s with script := rest, replies := e :: s.replies }

/-- R225 (a) (with R25, R56): the four kinds of UNSPECIFIED read answer a draw and change nothing else. The
read raises the draw counter and no step lowers it, so no later state has that draw number again. That draws
are counted in the state is the model's choice (assumption 2). -/
def Obligations.UnspecifiedReadsAreFreshDraws : Prop :=
  (∀ s t : State, step s = .next t → s.draws ≤ t.draws) ∧
  ∀ (s : State) (space : Space) (idx : Nat) (rest : List HostAction),
    s.script = .read space idx :: rest → readAllowed s.cfg space idx = true →
    (space = .obuf ∧ s.olen.toNat ≤ idx) ∨ (space = .ibuf ∧ s.ibuf.read? idx = none) ∨
      (space = .payb ∧ (s.pay.length + 7) / 8 ≤ idx) ∨
      (space = .cwdata ∧ ∃ x : Byte, idx / 32 = x.toNat ∧ ((codeOf s.cw x).length + 7) / 8 ≤ idx % 32) →
    ∃ t, step s = .next t ∧ t.replies = .byte (Config.freeByte s.draws idx) :: s.replies ∧
      s.draws < t.draws ∧ t = { s with script := rest, replies := t.replies, draws := t.draws }

/-- R44, R45: a host write stores its element, in a faulted core too, and nothing else changes; of `CTRL` only
bit 0 is stored. -/
def Obligations.HostWritesStoreTheirElement : Prop :=
  (∀ (s : State) (idx : Nat) (b : Byte) (rest : List HostAction), s.script = .write .ibuf idx (.byte b) :: rest →
    idx < s.cfg.ibufCap →
    ∃ t, step s = .next t ∧ t.ibuf.read? idx = some b ∧ (∀ a, a ≠ idx → t.ibuf.read? a = s.ibuf.read? a) ∧
      t = { s with script := rest, ibuf := t.ibuf }) ∧
  ∀ (s : State) (v : Word) (rest : List HostAction),
    (s.script = .write .reg 4 (.word v) :: rest →
      step s = .next { s with script := rest, limitEn := v.getLsbD 0 }) ∧
    (s.script = .write .reg 5 (.word v) :: rest → step s = .next { s with script := rest, ilen := v }) ∧
    (s.script = .write .reg 7 (.word v) :: rest → step s = .next { s with script := rest, hlen := v }) ∧
    (s.script = .write .reg 8 (.word v) :: rest → step s = .next { s with script := rest, symlimit := v }) ∧
    (s.script = .write .reg 9 (.word v) :: rest → step s = .next { s with script := rest, blen := v })

/-- R49, the rows of the system and `BS` commands: what each leaves unchanged. -/
def Obligations.FrameOfTheSequenceCommands : Prop :=
  ∀ (s t : State) (rd rs : Fin 4) (imm8 : Nat),
    (∀ i ∈ [Instr.bsClr rd, .bsLd rd, .bsPushf rd imm8, .bsShr rd, .bsShl rd, .bsCat rd rs], exec i s = .next t →
      (∀ j, j ≠ rd → t.bsReg j = s.bsReg j) ∧
      t = { s with bs := t.bs, err := t.err, errinfo := t.errinfo, draws := t.draws }) ∧
    (∀ i ∈ [Instr.bsStw rd rs, .bsEq rd rs], exec i s = .next t → t = { s with tflag := t.tflag }) ∧
    (exec (.bsSt rd) s = .next t →
      (∀ a, nbytes (s.bsReg rd).length ≤ a → t.obuf.read? a = s.obuf.read? a) ∧
      t = { s with obuf := t.obuf, olen := t.olen, blen := t.blen })

/-- R49, the rows of the `ENC` commands: what each leaves unchanged. The bytes stored to are `OBUF[0..OLEN)` with
the `OLEN` that the command writes. -/
def Obligations.FrameOfTheEncoderCommands : Prop :=
  ∀ s t : State,
    (exec .encCount s = .next t →
      t = { s with freq := t.freq, err := t.err, errinfo := t.errinfo, draws := t.draws }) ∧
    (exec .encTree s = .next t →
      t = { s with nodes := t.nodes, root := t.root, err := t.err, errinfo := t.errinfo, draws := t.draws }) ∧
    (exec .encTable s = .next t →
      t = { s with cw := t.cw, err := t.err, errinfo := t.errinfo, draws := t.draws }) ∧
    (exec .encHdr s = .next t →
      (∀ a, (headerBytes s.cw).length ≤ a → t.obuf.read? a = s.obuf.read? a) ∧
      t = { s with obuf := t.obuf, olen := t.olen, hlen := t.hlen, err := t.err, errinfo := t.errinfo,
                   draws := t.draws }) ∧
    (exec .encPack s = .next t →
      t = { s with pay := t.pay, err := t.err, errinfo := t.errinfo, draws := t.draws }) ∧
    (exec .encAll s = .next t →
      (∀ a, (headerBytes t.cw).length ≤ a → t.obuf.read? a = s.obuf.read? a) ∧
      t = { s with freq := t.freq, nodes := t.nodes, root := t.root, cw := t.cw, obuf := t.obuf, olen := t.olen,
                   hlen := t.hlen, pay := t.pay, err := t.err, errinfo := t.errinfo, draws := t.draws })

/-- R49, the rows of the `DEC` commands: what each leaves unchanged. The one byte `DEC.STEP` stores to is at the
`OLEN` before it; `DEC.RUN` and `DEC.ALL` store from index 0 up to the `OLEN` they leave. -/
def Obligations.FrameOfTheDecoderCommands : Prop :=
  ∀ s t : State, s.cfg.WellFormed →
    (exec .decHdr s = .next t →
      t = { s with cw := t.cw, hlen := t.hlen, err := t.err, errinfo := t.errinfo, draws := t.draws }) ∧
    (exec .decLoad s = .next t →
      t = { s with pay := t.pay, olen := t.olen, dstate := t.dstate, err := t.err, errinfo := t.errinfo,
                   draws := t.draws }) ∧
    (exec .decStep s = .next t →
      (∀ a, a ≠ s.olen.toNat → t.obuf.read? a = s.obuf.read? a) ∧
      t = { s with obuf := t.obuf, olen := t.olen, pay := t.pay, dstate := t.dstate, err := t.err,
                   errinfo := t.errinfo, draws := t.draws }) ∧
    (exec .decRun s = .next t →
      (∀ a, t.olen.toNat ≤ a → t.obuf.read? a = s.obuf.read? a) ∧
      t = { s with obuf := t.obuf, olen := t.olen, pay := t.pay, dstate := t.dstate, err := t.err,
                   errinfo := t.errinfo, draws := t.draws }) ∧
    (exec .decAll s = .next t →
      (∀ a, t.olen.toNat ≤ a → t.obuf.read? a = s.obuf.read? a) ∧
      t = { s with cw := t.cw, hlen := t.hlen, obuf := t.obuf, olen := t.olen, pay := t.pay, dstate := t.dstate,
                   err := t.err, errinfo := t.errinfo, draws := t.draws })

/-- R12, R49: no encoder or decoder command touches the `BS` registers: none writes one, and none does anything
else for other contents of them. -/
def Obligations.OnlySequenceCommandsTouchTheRegisters : Prop :=
  ∀ (i : Instr) (s : State) (v : Vector BitSeq 4), i.usesBs = false → ∀ t, exec i s = .next t →
    t.bs = s.bs ∧ exec i { s with bs := v } = .next { t with bs := v }

/-- R26: `BS.STW` and `BS.EQ` alone write `T` (and a reset clears it), and no command's behaviour depends on it. -/
def Obligations.TheTestFlagIsForTheHostAlone : Prop :=
  ∀ (i : Instr) (s t : State) (b : Bool), exec i s = .next t →
    (i.writesT = false → t.tflag = s.tflag ∧ exec i { s with tflag := b } = .next { t with tflag := b }) ∧
    (i.writesT = true → exec i { s with tflag := b } = .next t)

/-- R25: the core never writes `IBUF`: a byte of it changes only by a host write to it or a power-on reset. -/
def Obligations.OnlyTheHostWritesTheInputBuffer : Prop :=
  ∀ s t : State, step s = .next t →
    (∀ a, t.ibuf.read? a = s.ibuf.read? a) ∨ s.script.head? = some .powerOnReset ∨
    ∃ idx b, s.script.head? = some (.write .ibuf idx (.byte b)) ∧ ∀ a, a ≠ idx → t.ibuf.read? a = s.ibuf.read? a
end

