-- ==== Sys2Proof/Laws/BitSeq.lean ====
section
/-!
SUPPORT. What the BitSequence functions do, in terms of lists (R82 to R87), and how bits and bytes correspond (R7).
-/

namespace Sys2Proof.Machine

theorem nbytes_zero : nbytes 0 = 0 := rfl

theorem nbytes_add_eight (L : Nat) : nbytes (L + 8) = nbytes L + 1 := by unfold nbytes; omega

theorem le_eight_nbytes (L : Nat) : L ≤ 8 * nbytes L := by unfold nbytes; omega

theorem eight_nbytes_lt (L : Nat) : 8 * nbytes L < L + 8 := by unfold nbytes; omega

theorem nbytes_mono {L M : Nat} (h : L ≤ M) : nbytes L ≤ nbytes M := by unfold nbytes; omega

/-- R148: consuming `n` bits leaves the list from index `n` on. -/
theorem shiftLeftTimes_eq_drop (n : Nat) (q : BitSeq) : shiftLeftTimes n q = q.drop n := by
  induction n generalizing q with
  | zero => rfl
  | succ n ih => cases q <;> simp [shiftLeftTimes, shiftLeftOnce, ih]

/-- R86: `start_with` is the prefix order. -/
theorem startWith_iff (q o : BitSeq) : startWith q o = true ↔ o <+: q := by
  induction q generalizing o with
  | nil => cases o <;> simp [startWith]
  | cons a q ih =>
    cases o with
    | nil => simp [startWith]
    | cons b o =>
      simp only [startWith, Bool.and_eq_true, beq_iff_eq, ih, List.cons_prefix_cons]
      exact and_congr_left fun _ => eq_comm

/-- R87: equality of values is equality of lists. -/
theorem eqBits_iff (q o : BitSeq) : eqBits q o = true ↔ q = o := by
  simp only [eqBits, Bool.and_eq_true, beq_iff_eq, startWith_iff]
  constructor
  · rintro ⟨hl, hp⟩
    exact (hp.eq_of_length hl.symm).symm
  · rintro rfl
    exact ⟨rfl, List.prefix_refl _⟩

@[simp] theorem byteBits_length (b : Byte) : (byteBits b).length = 8 := by simp [byteBits]

theorem byteBits_getElem? (b : Byte) (i : Nat) (h : i < 8) : (byteBits b)[i]? = some (b.getLsbD (7 - i)) := by
  simp [byteBits, h]

theorem flatMap_byteBits_length (bytes : List Byte) : (bytes.flatMap byteBits).length = 8 * bytes.length := by
  induction bytes with
  | nil => rfl
  | cons b bytes ih => simp [List.flatMap_cons, ih]; omega

theorem flatMap_byteBits_getElem? (bytes : List Byte) (i : Nat) (h : i < 8 * bytes.length) :
    (bytes.flatMap byteBits)[i]? = some ((bytes.getD (i / 8) 0).getLsbD (7 - i % 8)) := by
  induction bytes generalizing i with
  | nil => simp at h
  | cons b bytes ih =>
    simp only [List.flatMap_cons]
    by_cases hi : i < 8
    · rw [List.getElem?_append_left (by simpa using hi), byteBits_getElem? b i hi]
      have e : i / 8 = 0 := by omega
      have e' : i % 8 = i := by omega
      simp [e, e']
    · have hl : (byteBits b).length ≤ i := by simp; omega
      rw [List.getElem?_append_right hl, byteBits_length]
      simp only [List.length_cons] at h
      rw [ih (i - 8) (by omega)]
      have e : i / 8 = (i - 8) / 8 + 1 := by omega
      have e' : i % 8 = (i - 8) % 8 := by omega
      simp [e, e']

/-- R7: `mkbits(bytes, L)` has length `L` when the bytes reach that far. -/
theorem mkbits_length (bytes : List Byte) (L : Nat) (h : L ≤ 8 * bytes.length) : (mkbits bytes L).length = L := by
  simp [mkbits, -List.length_flatMap, flatMap_byteBits_length, h]

theorem mkbits_length_le (bytes : List Byte) (L : Nat) : (mkbits bytes L).length ≤ L := by
  simp [mkbits, -List.length_flatMap]

/-- R7: bit `i` of `mkbits(bytes, L)` is bit `7 - (i mod 8)` of `bytes[i div 8]`. -/
theorem mkbits_getElem? (bytes : List Byte) (L i : Nat) (hL : L ≤ 8 * bytes.length) (hi : i < L) :
    (mkbits bytes L)[i]? = some ((bytes.getD (i / 8) 0).getLsbD (7 - i % 8)) := by
  rw [mkbits, List.getElem?_take_of_lt hi, flatMap_byteBits_getElem? bytes i (by omega)]

theorem backingBytes_step (q : BitSeq) (h : q ≠ []) : backingBytes q = packByte q :: backingBytes (q.drop 8) := by
  match q with
  | [] => exact absurd rfl h
  | [_] | [_, _] | [_, _, _] | [_, _, _, _] | [_, _, _, _, _] | [_, _, _, _, _, _] | [_, _, _, _, _, _, _] =>
    simp [backingBytes]
  | _ :: _ :: _ :: _ :: _ :: _ :: _ :: _ :: q => simp [backingBytes, packByte, bitsValue]

theorem backingBytes_length (q : BitSeq) : (backingBytes q).length = nbytes q.length := by
  generalize hn : q.length = n
  induction n using Nat.strongRecOn generalizing q with
  | ind n ih =>
    by_cases h : q = []
    · subst h; subst hn; rfl
    · have hpos : 0 < q.length := List.length_pos_iff.mpr h
      rw [backingBytes_step q h, List.length_cons, ih (q.drop 8).length (by simp; omega) (q.drop 8) rfl]
      simp only [List.length_drop]
      unfold nbytes
      omega

/-- R81: the backing bytes are `byte(q, 0)`, `byte(q, 1)`, … -/
theorem backingBytes_getElem? (q : BitSeq) (j : Nat) (h : j < nbytes q.length) :
    (backingBytes q)[j]? = some (byteAt q j) := by
  induction j generalizing q with
  | zero =>
    have hq : q ≠ [] := by rintro rfl; simp [nbytes_zero] at h
    simp [backingBytes_step q hq, byteAt]
  | succ j ih =>
    have hq : q ≠ [] := by rintro rfl; simp [nbytes_zero] at h
    rw [backingBytes_step q hq, List.getElem?_cons_succ, ih]
    · simp [byteAt, List.drop_drop, Nat.mul_succ, Nat.add_comm]
    · simp only [List.length_drop]; unfold nbytes at *; omega

theorem bitsValue_lt (n : Nat) (q : BitSeq) : bitsValue n q < 2 ^ n := by
  induction n generalizing q with
  | zero => simp [bitsValue]
  | succ n ih =>
    cases q with
    | nil => simp [bitsValue]
    | cons b q =>
      have := ih q
      cases b <;> simp [bitsValue, Nat.pow_succ] <;> omega

theorem bitsValue_testBit (n : Nat) (q : BitSeq) (t : Nat) (h : t < n) :
    (bitsValue n q).testBit (n - 1 - t) = q.getD t false := by
  induction n generalizing q t with
  | zero => omega
  | succ n ih =>
    cases q with
    | nil => simp [bitsValue]
    | cons b q =>
      have hlt := bitsValue_lt n q
      cases t with
      | zero =>
        have e : n + 1 - 1 - 0 = n := by omega
        rw [e]
        cases b
        · simpa [bitsValue] using Nat.testBit_lt_two_pow hlt
        · simp [bitsValue, Nat.testBit_two_pow_add_eq, Nat.testBit_lt_two_pow hlt]
      | succ t =>
        have e : n + 1 - 1 - (t + 1) = n - 1 - t := by omega
        have hne : n - 1 - t < n := by omega
        rw [e]
        cases b
        · simpa [bitsValue] using ih q t (by omega)
        · simpa [bitsValue, Nat.testBit_two_pow_add_gt hne] using ih q t (by omega)

/-- R6: bit `t` of the list is bit `7 - t` of the byte, and missing bits are 0. -/
theorem packByte_getLsbD (q : BitSeq) (t : Nat) (h : t < 8) : (packByte q).getLsbD (7 - t) = q.getD t false := by
  have hb := bitsValue_testBit 8 q t h
  have e : 8 - 1 - t = 7 - t := by omega
  rw [e] at hb
  rw [packByte, BitVec.getLsbD_ofNat, hb]
  have h7 : 7 - t < 8 := by omega
  simp [h7]

/-- R7: `byte(q, j)` bit by bit. -/
theorem byteAt_getLsbD (q : BitSeq) (j t : Nat) (h : t < 8) :
    (byteAt q j).getLsbD (7 - t) = q.getD (8 * j + t) false := by
  rw [byteAt, packByte_getLsbD _ t h]
  simp [List.getD_eq_getElem?_getD]

/-- R8: the backing bytes and the length determine the value. -/
theorem mkbits_backingBytes (q : BitSeq) : mkbits (backingBytes q) q.length = q := by
  have hl : q.length ≤ 8 * (backingBytes q).length := by
    rw [backingBytes_length]; exact le_eight_nbytes _
  apply List.ext_getElem?
  intro i
  by_cases hi : i < q.length
  · rw [mkbits_getElem? _ _ i hl hi]
    have hj : i / 8 < nbytes q.length := by unfold nbytes; omega
    have hb := backingBytes_getElem? q (i / 8) hj
    rw [List.getD_eq_getElem?_getD, hb, Option.getD_some, byteAt_getLsbD _ _ _ (by omega)]
    have e : 8 * (i / 8) + i % 8 = i := by omega
    rw [e, List.getD_eq_getElem?_getD, List.getElem?_eq_getElem hi]
    rfl
  · have h1 := mkbits_length_le (backingBytes q) q.length
    rw [List.getElem?_eq_none (by omega), List.getElem?_eq_none (by omega)]

end Sys2Proof.Machine
end

