-- ==== Sys2Proof/Laws/Memory.lean ====
section
/-!
SUPPORT. The laws of the byte buffers: a read after a write, and that every write keeps the canonical form.
-/

namespace Sys2Proof.Machine

@[simp] theorem Memory.read?_nil (a : Nat) : Memory.read? [] a = none := rfl

theorem Memory.read?_cons (c : Host.Cell) (m : Memory) (a : Nat) :
    Memory.read? (c :: m) a = if c.1 = a then some c.2 else Memory.read? m a := rfl

theorem Memory.read?_write (m : Memory) (a : Nat) (b : Byte) (x : Nat) :
    (m.write a b).read? x = if x = a then some b else m.read? x := by
  induction m with
  | nil => simp [Memory.write, Memory.read?_cons, eq_comm]
  | cons c m ih =>
    obtain ⟨k, v⟩ := c
    simp only [Memory.write]
    split
    · rename_i hka
      rw [Memory.read?_cons, Memory.read?_cons, ih]
      by_cases hx : x = a
      · subst hx; simp; omega
      · simp [hx]
    · split
      · rename_i _ hka
        subst hka
        simp only [Memory.read?_cons]
        by_cases hx : x = k
        · simp [hx]
        · simp [hx, Ne.symm hx]
      · simp only [Memory.read?_cons]
        by_cases hx : x = a
        · simp [hx]
        · simp [hx, Ne.symm hx]

@[simp] theorem Memory.read?_write_same (m : Memory) (a : Nat) (b : Byte) : (m.write a b).read? a = some b := by
  simp [Memory.read?_write]

theorem Memory.read?_write_other (m : Memory) (a : Nat) (b : Byte) (x : Nat) (h : x ≠ a) :
    (m.write a b).read? x = m.read? x := by
  simp [Memory.read?_write, h]

/-- A write of consecutive bytes leaves each of them at its index and every other index as it was. -/
theorem Memory.read?_writeBytes (m : Memory) (a : Nat) (bytes : List Byte) (x : Nat) :
    (m.writeBytes a bytes).read? x = if a ≤ x ∧ x < a + bytes.length then bytes[x - a]? else m.read? x := by
  induction bytes generalizing m a with
  | nil => simp [Memory.writeBytes]
  | cons b bytes ih =>
    simp only [Memory.writeBytes, ih, Memory.read?_write, List.length_cons]
    by_cases hx : x = a
    · subst hx; simp
    · by_cases h : a + 1 ≤ x ∧ x < a + 1 + bytes.length
      · have h' : a ≤ x ∧ x < a + (bytes.length + 1) := by omega
        have e : x - a = (x - (a + 1)) + 1 := by omega
        simp only [h, h', e, and_self, if_true, List.getElem?_cons_succ]
      · have h' : ¬(a ≤ x ∧ x < a + (bytes.length + 1)) := by omega
        rw [if_neg h, if_neg h', if_neg hx]

theorem Memory.mem_write (m : Memory) (a : Nat) (b : Byte) (c : Host.Cell) (h : c ∈ m.write a b) :
    c = (a, b) ∨ c ∈ m := by
  induction m with
  | nil => simpa [Memory.write] using h
  | cons d m ih =>
    obtain ⟨k, v⟩ := d
    simp only [Memory.write] at h
    split at h
    · rcases List.mem_cons.mp h with h | h
      · simp [h]
      · rcases ih h with h | h <;> simp [h]
    · split at h
      · rcases List.mem_cons.mp h with h | h <;> simp [h]
      · rcases List.mem_cons.mp h with h | h
        · simp [h]
        · right; exact h

theorem Memory.write_rising (m : Memory) (a : Nat) (b : Byte) (h : (m.map Prod.fst).Pairwise (· < ·)) :
    ((m.write a b).map Prod.fst).Pairwise (· < ·) := by
  induction m with
  | nil => simp [Memory.write]
  | cons d m ih =>
    obtain ⟨k, v⟩ := d
    simp only [List.map_cons, List.pairwise_cons] at h
    simp only [Memory.write]
    split
    · rename_i hka
      simp only [List.map_cons, List.pairwise_cons]
      refine ⟨fun x hx => ?_, ih h.2⟩
      obtain ⟨c, hc, rfl⟩ := List.mem_map.mp hx
      rcases Memory.mem_write m a b c hc with rfl | hc
      · exact hka
      · exact h.1 _ (List.mem_map_of_mem hc)
    · split
      · rename_i _ hka
        subst hka
        simpa using h
      · rename_i h1 h2
        simp only [List.map_cons, List.pairwise_cons]
        refine ⟨fun x hx => ?_, h⟩
        rcases List.mem_cons.mp hx with rfl | hx
        · omega
        · have := h.1 x hx; omega

/-- Every write within the capacity keeps the canonical form. -/
theorem Memory.write_wf (cap : Nat) (m : Memory) (a : Nat) (b : Byte) (h : m.wf cap) (ha : a < cap) :
    (m.write a b).wf cap := by
  refine ⟨Memory.write_rising m a b h.1, fun c hc => ?_⟩
  rcases Memory.mem_write m a b c hc with rfl | hc
  · exact ha
  · exact h.2 c hc

theorem Memory.writeBytes_wf (cap : Nat) (m : Memory) (a : Nat) (bytes : List Byte) (h : m.wf cap)
    (ha : a + bytes.length ≤ cap) : (m.writeBytes a bytes).wf cap := by
  induction bytes generalizing m a with
  | nil => exact h
  | cons b bytes ih =>
    simp only [List.length_cons] at ha
    exact ih _ _ (Memory.write_wf cap m a b h (by omega)) (by omega)

theorem Memory.nil_wf (cap : Nat) : Memory.wf cap [] := by simp [Memory.wf]

end Sys2Proof.Machine
end

