-- ==== Sys2Proof/Laws/State.lean ====
section
/-!
SUPPORT. What each state update leaves in each field: one lemma per field per update, true by rfl.
-/

namespace Sys2Proof.Machine

section
variable (s : State) (i : Fin 4) (v : BitSeq) (b : Bool) (code : ErrCode) (info : Nat) (x : Byte)


/-! ### setBs -/

@[simp] theorem State.setBs_cfg : (s.setBs i v).cfg = s.cfg := rfl
@[simp] theorem State.setBs_bs : (s.setBs i v).bs = s.bs.set i.val v := rfl
@[simp] theorem State.setBs_err : (s.setBs i v).err = s.err := rfl
@[simp] theorem State.setBs_errinfo : (s.setBs i v).errinfo = s.errinfo := rfl
@[simp] theorem State.setBs_tflag : (s.setBs i v).tflag = s.tflag := rfl
@[simp] theorem State.setBs_dstate : (s.setBs i v).dstate = s.dstate := rfl
@[simp] theorem State.setBs_limitEn : (s.setBs i v).limitEn = s.limitEn := rfl
@[simp] theorem State.setBs_ilen : (s.setBs i v).ilen = s.ilen := rfl
@[simp] theorem State.setBs_olen : (s.setBs i v).olen = s.olen := rfl
@[simp] theorem State.setBs_hlen : (s.setBs i v).hlen = s.hlen := rfl
@[simp] theorem State.setBs_symlimit : (s.setBs i v).symlimit = s.symlimit := rfl
@[simp] theorem State.setBs_blen : (s.setBs i v).blen = s.blen := rfl
@[simp] theorem State.setBs_freq : (s.setBs i v).freq = s.freq := rfl
@[simp] theorem State.setBs_nodes : (s.setBs i v).nodes = s.nodes := rfl
@[simp] theorem State.setBs_root : (s.setBs i v).root = s.root := rfl
@[simp] theorem State.setBs_cw : (s.setBs i v).cw = s.cw := rfl
@[simp] theorem State.setBs_pay : (s.setBs i v).pay = s.pay := rfl
@[simp] theorem State.setBs_ibuf : (s.setBs i v).ibuf = s.ibuf := rfl
@[simp] theorem State.setBs_obuf : (s.setBs i v).obuf = s.obuf := rfl
@[simp] theorem State.setBs_draws : (s.setBs i v).draws = s.draws := rfl
@[simp] theorem State.setBs_script : (s.setBs i v).script = s.script := rfl
@[simp] theorem State.setBs_replies : (s.setBs i v).replies = s.replies := rfl

/-! ### setT -/

@[simp] theorem State.setT_cfg : (s.setT b).cfg = s.cfg := rfl
@[simp] theorem State.setT_bs : (s.setT b).bs = s.bs := rfl
@[simp] theorem State.setT_err : (s.setT b).err = s.err := rfl
@[simp] theorem State.setT_errinfo : (s.setT b).errinfo = s.errinfo := rfl
@[simp] theorem State.setT_tflag : (s.setT b).tflag = b := rfl
@[simp] theorem State.setT_dstate : (s.setT b).dstate = s.dstate := rfl
@[simp] theorem State.setT_limitEn : (s.setT b).limitEn = s.limitEn := rfl
@[simp] theorem State.setT_ilen : (s.setT b).ilen = s.ilen := rfl
@[simp] theorem State.setT_olen : (s.setT b).olen = s.olen := rfl
@[simp] theorem State.setT_hlen : (s.setT b).hlen = s.hlen := rfl
@[simp] theorem State.setT_symlimit : (s.setT b).symlimit = s.symlimit := rfl
@[simp] theorem State.setT_blen : (s.setT b).blen = s.blen := rfl
@[simp] theorem State.setT_freq : (s.setT b).freq = s.freq := rfl
@[simp] theorem State.setT_nodes : (s.setT b).nodes = s.nodes := rfl
@[simp] theorem State.setT_root : (s.setT b).root = s.root := rfl
@[simp] theorem State.setT_cw : (s.setT b).cw = s.cw := rfl
@[simp] theorem State.setT_pay : (s.setT b).pay = s.pay := rfl
@[simp] theorem State.setT_ibuf : (s.setT b).ibuf = s.ibuf := rfl
@[simp] theorem State.setT_obuf : (s.setT b).obuf = s.obuf := rfl
@[simp] theorem State.setT_draws : (s.setT b).draws = s.draws := rfl
@[simp] theorem State.setT_script : (s.setT b).script = s.script := rfl
@[simp] theorem State.setT_replies : (s.setT b).replies = s.replies := rfl

/-! ### drawn -/

@[simp] theorem State.drawn_cfg : (s.drawn).cfg = s.cfg := rfl
@[simp] theorem State.drawn_bs : (s.drawn).bs = s.bs := rfl
@[simp] theorem State.drawn_err : (s.drawn).err = s.err := rfl
@[simp] theorem State.drawn_errinfo : (s.drawn).errinfo = s.errinfo := rfl
@[simp] theorem State.drawn_tflag : (s.drawn).tflag = s.tflag := rfl
@[simp] theorem State.drawn_dstate : (s.drawn).dstate = s.dstate := rfl
@[simp] theorem State.drawn_limitEn : (s.drawn).limitEn = s.limitEn := rfl
@[simp] theorem State.drawn_ilen : (s.drawn).ilen = s.ilen := rfl
@[simp] theorem State.drawn_olen : (s.drawn).olen = s.olen := rfl
@[simp] theorem State.drawn_hlen : (s.drawn).hlen = s.hlen := rfl
@[simp] theorem State.drawn_symlimit : (s.drawn).symlimit = s.symlimit := rfl
@[simp] theorem State.drawn_blen : (s.drawn).blen = s.blen := rfl
@[simp] theorem State.drawn_freq : (s.drawn).freq = s.freq := rfl
@[simp] theorem State.drawn_nodes : (s.drawn).nodes = s.nodes := rfl
@[simp] theorem State.drawn_root : (s.drawn).root = s.root := rfl
@[simp] theorem State.drawn_cw : (s.drawn).cw = s.cw := rfl
@[simp] theorem State.drawn_pay : (s.drawn).pay = s.pay := rfl
@[simp] theorem State.drawn_ibuf : (s.drawn).ibuf = s.ibuf := rfl
@[simp] theorem State.drawn_obuf : (s.drawn).obuf = s.obuf := rfl
@[simp] theorem State.drawn_draws : (s.drawn).draws = s.draws + 1 := rfl
@[simp] theorem State.drawn_script : (s.drawn).script = s.script := rfl
@[simp] theorem State.drawn_replies : (s.drawn).replies = s.replies := rfl

/-! ### takeFault -/

@[simp] theorem State.takeFault_cfg : (s.takeFault code info).cfg = s.cfg := rfl
@[simp] theorem State.takeFault_bs : (s.takeFault code info).bs = s.bs := rfl
@[simp] theorem State.takeFault_err : (s.takeFault code info).err = code := rfl
@[simp] theorem State.takeFault_errinfo : (s.takeFault code info).errinfo = BitVec.ofNat 32 info := rfl
@[simp] theorem State.takeFault_tflag : (s.takeFault code info).tflag = s.tflag := rfl
@[simp] theorem State.takeFault_dstate : (s.takeFault code info).dstate = dstateAfterFault code s.dstate := rfl
@[simp] theorem State.takeFault_limitEn : (s.takeFault code info).limitEn = s.limitEn := rfl
@[simp] theorem State.takeFault_ilen : (s.takeFault code info).ilen = s.ilen := rfl
@[simp] theorem State.takeFault_olen : (s.takeFault code info).olen = s.olen := rfl
@[simp] theorem State.takeFault_hlen : (s.takeFault code info).hlen = s.hlen := rfl
@[simp] theorem State.takeFault_symlimit : (s.takeFault code info).symlimit = s.symlimit := rfl
@[simp] theorem State.takeFault_blen : (s.takeFault code info).blen = s.blen := rfl
@[simp] theorem State.takeFault_freq : (s.takeFault code info).freq = s.freq := rfl
@[simp] theorem State.takeFault_nodes : (s.takeFault code info).nodes = s.nodes := rfl
@[simp] theorem State.takeFault_root : (s.takeFault code info).root = s.root := rfl
@[simp] theorem State.takeFault_cw : (s.takeFault code info).cw = s.cw := rfl
@[simp] theorem State.takeFault_pay : (s.takeFault code info).pay = s.pay := rfl
@[simp] theorem State.takeFault_ibuf : (s.takeFault code info).ibuf = s.ibuf := rfl
@[simp] theorem State.takeFault_obuf : (s.takeFault code info).obuf = s.obuf := rfl
@[simp] theorem State.takeFault_draws : (s.takeFault code info).draws = s.draws + 1 := rfl
@[simp] theorem State.takeFault_script : (s.takeFault code info).script = s.script := rfl
@[simp] theorem State.takeFault_replies : (s.takeFault code info).replies = s.replies := rfl

/-! ### emit -/

@[simp] theorem State.emit_cfg : (s.emit x v).cfg = s.cfg := rfl
@[simp] theorem State.emit_bs : (s.emit x v).bs = s.bs := rfl
@[simp] theorem State.emit_err : (s.emit x v).err = s.err := rfl
@[simp] theorem State.emit_errinfo : (s.emit x v).errinfo = s.errinfo := rfl
@[simp] theorem State.emit_tflag : (s.emit x v).tflag = s.tflag := rfl
@[simp] theorem State.emit_dstate : (s.emit x v).dstate = .scanning := rfl
@[simp] theorem State.emit_limitEn : (s.emit x v).limitEn = s.limitEn := rfl
@[simp] theorem State.emit_ilen : (s.emit x v).ilen = s.ilen := rfl
@[simp] theorem State.emit_olen : (s.emit x v).olen = s.olen + 1 := rfl
@[simp] theorem State.emit_hlen : (s.emit x v).hlen = s.hlen := rfl
@[simp] theorem State.emit_symlimit : (s.emit x v).symlimit = s.symlimit := rfl
@[simp] theorem State.emit_blen : (s.emit x v).blen = s.blen := rfl
@[simp] theorem State.emit_freq : (s.emit x v).freq = s.freq := rfl
@[simp] theorem State.emit_nodes : (s.emit x v).nodes = s.nodes := rfl
@[simp] theorem State.emit_root : (s.emit x v).root = s.root := rfl
@[simp] theorem State.emit_cw : (s.emit x v).cw = s.cw := rfl
@[simp] theorem State.emit_pay : (s.emit x v).pay = shiftLeftTimes v.length s.pay := rfl
@[simp] theorem State.emit_ibuf : (s.emit x v).ibuf = s.ibuf := rfl
@[simp] theorem State.emit_obuf : (s.emit x v).obuf = s.obuf.write s.olen.toNat x := rfl
@[simp] theorem State.emit_draws : (s.emit x v).draws = s.draws := rfl
@[simp] theorem State.emit_script : (s.emit x v).script = s.script := rfl
@[simp] theorem State.emit_replies : (s.emit x v).replies = s.replies := rfl

/-! ### commandReset -/

@[simp] theorem State.commandReset_cfg : (s.commandReset).cfg = s.cfg := rfl
@[simp] theorem State.commandReset_bs : (s.commandReset).bs = Vector.replicate 4 [] := rfl
@[simp] theorem State.commandReset_err : (s.commandReset).err = .none := rfl
@[simp] theorem State.commandReset_errinfo : (s.commandReset).errinfo = 0 := rfl
@[simp] theorem State.commandReset_tflag : (s.commandReset).tflag = false := rfl
@[simp] theorem State.commandReset_dstate : (s.commandReset).dstate = .exhausted := rfl
@[simp] theorem State.commandReset_limitEn : (s.commandReset).limitEn = false := rfl
@[simp] theorem State.commandReset_ilen : (s.commandReset).ilen = 0 := rfl
@[simp] theorem State.commandReset_olen : (s.commandReset).olen = 0 := rfl
@[simp] theorem State.commandReset_hlen : (s.commandReset).hlen = 0 := rfl
@[simp] theorem State.commandReset_symlimit : (s.commandReset).symlimit = 0 := rfl
@[simp] theorem State.commandReset_blen : (s.commandReset).blen = 0 := rfl
@[simp] theorem State.commandReset_freq : (s.commandReset).freq = SymFile.fill 0 := rfl
@[simp] theorem State.commandReset_nodes : (s.commandReset).nodes = [] := rfl
@[simp] theorem State.commandReset_root : (s.commandReset).root = NodeIdx.nil := rfl
@[simp] theorem State.commandReset_cw : (s.commandReset).cw = Table.empty := rfl
@[simp] theorem State.commandReset_pay : (s.commandReset).pay = [] := rfl
@[simp] theorem State.commandReset_ibuf : (s.commandReset).ibuf = s.ibuf := rfl
@[simp] theorem State.commandReset_obuf : (s.commandReset).obuf = s.obuf := rfl
@[simp] theorem State.commandReset_draws : (s.commandReset).draws = s.draws := rfl
@[simp] theorem State.commandReset_script : (s.commandReset).script = s.script := rfl
@[simp] theorem State.commandReset_replies : (s.commandReset).replies = s.replies := rfl

/-! ### powerOnReset -/

@[simp] theorem State.powerOnReset_cfg : (s.powerOnReset).cfg = s.cfg := rfl
@[simp] theorem State.powerOnReset_bs : (s.powerOnReset).bs = Vector.replicate 4 [] := rfl
@[simp] theorem State.powerOnReset_err : (s.powerOnReset).err = .none := rfl
@[simp] theorem State.powerOnReset_errinfo : (s.powerOnReset).errinfo = 0 := rfl
@[simp] theorem State.powerOnReset_tflag : (s.powerOnReset).tflag = false := rfl
@[simp] theorem State.powerOnReset_dstate : (s.powerOnReset).dstate = .exhausted := rfl
@[simp] theorem State.powerOnReset_limitEn : (s.powerOnReset).limitEn = false := rfl
@[simp] theorem State.powerOnReset_ilen : (s.powerOnReset).ilen = 0 := rfl
@[simp] theorem State.powerOnReset_olen : (s.powerOnReset).olen = 0 := rfl
@[simp] theorem State.powerOnReset_hlen : (s.powerOnReset).hlen = 0 := rfl
@[simp] theorem State.powerOnReset_symlimit : (s.powerOnReset).symlimit = 0 := rfl
@[simp] theorem State.powerOnReset_blen : (s.powerOnReset).blen = 0 := rfl
@[simp] theorem State.powerOnReset_freq : (s.powerOnReset).freq = SymFile.fill 0 := rfl
@[simp] theorem State.powerOnReset_nodes : (s.powerOnReset).nodes = [] := rfl
@[simp] theorem State.powerOnReset_root : (s.powerOnReset).root = NodeIdx.nil := rfl
@[simp] theorem State.powerOnReset_cw : (s.powerOnReset).cw = Table.empty := rfl
@[simp] theorem State.powerOnReset_pay : (s.powerOnReset).pay = [] := rfl
@[simp] theorem State.powerOnReset_ibuf : (s.powerOnReset).ibuf = [] := rfl
@[simp] theorem State.powerOnReset_obuf : (s.powerOnReset).obuf = [] := rfl
@[simp] theorem State.powerOnReset_draws : (s.powerOnReset).draws = s.draws := rfl
@[simp] theorem State.powerOnReset_script : (s.powerOnReset).script = s.script := rfl
@[simp] theorem State.powerOnReset_replies : (s.powerOnReset).replies = s.replies := rfl

end

/-! ### Reading back what was written -/

@[simp] theorem State.bsReg_setBs_same (s : State) (i : Fin 4) (v : BitSeq) : (s.setBs i v).bsReg i = v := by
  simp [State.bsReg]

theorem State.bsReg_setBs_other (s : State) (i j : Fin 4) (v : BitSeq) (h : j ≠ i) :
    (s.setBs i v).bsReg j = s.bsReg j := by
  have h' : i.val ≠ j.val := fun e => h (Fin.ext e.symm)
  simp [State.bsReg, h']

theorem State.bsReg_setBs (s : State) (i j : Fin 4) (v : BitSeq) :
    (s.setBs i v).bsReg j = if j = i then v else s.bsReg j := by
  by_cases h : j = i
  · subst h; simp
  · simp [h, State.bsReg_setBs_other]

end Sys2Proof.Machine
end

