-- ==== Sys2Proof/Laws/Ops.lean ====
section
/-!
SUPPORT. One lemma for each shared operation, saying once everything it can do.
-/

namespace Sys2Proof.Machine

/-! ### Symbols, counters and the table -/

theorem symbols_getElem? (i : Nat) (h : i < 256) : symbols[i]? = some (BitVec.ofNat 8 i) := by
  simp [symbols, h]

theorem mem_symbols (x : Byte) : x ∈ symbols := by
  simp only [symbols, List.mem_map, List.mem_range]
  exact ⟨x.toNat, x.isLt, by simp⟩

/-- The symbols are listed in strictly ascending order. -/
theorem symbols_ascending : symbols.Pairwise fun x y => x.toNat < y.toNat := by
  refine List.pairwise_map.mpr ((List.pairwise_lt_range (n := 256)).imp_of_mem ?_)
  intro a b ha hb h
  simp only [List.mem_range] at ha hb
  simp only [BitVec.toNat_ofNat]
  omega

theorem symbols_nodup : symbols.Nodup :=
  symbols_ascending.imp fun h e => absurd (congrArg BitVec.toNat e) (by omega)

@[simp] theorem SymFile.get_fill {α : Type} (a : α) (x : Byte) : (SymFile.fill a).get x = a :=
  List.getElem_replicate _

theorem SymFile.get_set {α : Type} (m : SymFile α) (x y : Byte) (a : α) :
    (m.set x a).get y = if y = x then a else m.get y := by
  by_cases h : y = x
  · subst h; simp [SymFile.get, SymFile.set]
  · have h' : x.toNat ≠ y.toNat := fun e => h (BitVec.eq_of_toNat_eq e.symm)
    simp [SymFile.get, SymFile.set, h, h']

/-- A file is what its cells are. -/
theorem SymFile.ext {α : Type} (m n : SymFile α) (h : ∀ x, m.get x = n.get x) : m = n := by
  obtain ⟨l, hl⟩ := m
  obtain ⟨k, hk⟩ := n
  have : l = k := by
    apply List.ext_getElem (hl.trans hk.symm)
    intro i h1 h2
    have hi : (BitVec.ofNat 8 i).toNat = i := by simp only [BitVec.toNat_ofNat]; omega
    simpa [SymFile.get, hi] using h (BitVec.ofNat 8 i)
  subst this
  rfl

/-- The loops over symbols run over the symbols in ascending order, each with its cell. -/
theorem SymFile.pairs_eq {α : Type} (m : SymFile α) : m.pairs = symbols.map fun x => (x, m.get x) := by
  apply List.ext_getElem?
  intro i
  have hs := m.size
  by_cases h : i < 256
  · have hi : (BitVec.ofNat 8 i).toNat = i := by simp only [BitVec.toNat_ofNat]; omega
    have hc : m.cells[i]? = some (m.get (BitVec.ofNat 8 i)) := by
      rw [List.getElem?_eq_getElem (by omega)]
      simp [SymFile.get, hi]
    simp [SymFile.pairs, symbols_getElem? i h, hc]
  · have h1 : m.cells[i]? = none := List.getElem?_eq_none (by omega)
    have h2 : symbols[i]? = none := List.getElem?_eq_none (by simp [symbols]; omega)
    simp [SymFile.pairs, h1, h2]

theorem SymFile.mem_pairs {α : Type} (m : SymFile α) (p : Byte × α) : p ∈ m.pairs ↔ m.get p.1 = p.2 := by
  rw [SymFile.pairs_eq, List.mem_map]
  constructor
  · rintro ⟨x, _, rfl⟩; rfl
  · intro h
    exact ⟨p.1, mem_symbols _, by rw [h]⟩

@[simp] theorem Table.slot_empty (x : Byte) : Table.empty.slot x = none := SymFile.get_fill none x

theorem Table.slot_put (T : Table) (x : Byte) (c : BitSeq) (y : Byte) :
    (T.put x c).slot y = if y = x then some c else T.slot y := SymFile.get_set T x y (some c)

/-- A table is what its slots are (R23). -/
theorem Table.ext_slot (T U : Table) (h : ∀ x, T.slot x = U.slot x) : T = U := SymFile.ext T U h

theorem count_fill (x : Byte) : count (SymFile.fill 0) x = 0 := SymFile.get_fill 0 x

theorem count_bump (f : SymFile Word) (x y : Byte) :
    count (bump f x) y = if y = x then count f x + 1 else count f y := SymFile.get_set f x y (count f x + 1)

/-- R112: the distinct bytes are those with a count that is not 0. -/
theorem mem_distinctBytes (f : SymFile Word) (x : Byte) : x ∈ distinctBytes f ↔ count f x ≠ 0 := by
  simp only [distinctBytes, List.mem_map, List.mem_filter, SymFile.mem_pairs]
  constructor
  · rintro ⟨p, ⟨hp, hz⟩, rfl⟩
    simpa [count, hp] using hz
  · intro h
    exact ⟨(x, count f x), ⟨rfl, by simpa using h⟩, rfl⟩

/-! ### Input bytes -/

@[simp] theorem ibufBytes_length (s : State) (i n : Nat) : (s.ibufBytes i n).length = n := by
  simp [State.ibufBytes]

theorem ibufBytes_getElem? (s : State) (i n j : Nat) (h : j < n) : (s.ibufBytes i n)[j]? = some (s.ibufByte (i + j)) := by
  simp [State.ibufBytes, h]

/-- A byte that has been written is read as it was written (R50 (b)). -/
theorem ibufByte_written (s : State) (i : Nat) (b : Byte) (h : s.ibuf.read? i = some b) : s.ibufByte i = b := by
  simp [State.ibufByte, h]

/-! ### Faults and sequencing -/

/-- R190: fault entry is a next state, the one with the fault recorded. -/
theorem raiseFault_next (code : ErrCode) (info : Nat) (s t : State) :
    raiseFault code info s = .next t ↔ t = s.takeFault code info := by
  simp [raiseFault, eq_comm]

theorem raiseCapacity_next (r : Resource) (s t : State) :
    raiseCapacity r s = .next t ↔ t = s.takeFault .capacityExceeded r.number := by
  simp [raiseCapacity, raiseFault, eq_comm]

/-- R173: a sequence that answers next stopped at a fault of its first part or ran its second part. -/
theorem andThen_next (first : Result) (next : State → Result) (t : State) :
    andThen first next = .next t ↔
      ∃ u, first = .next u ∧ ((u.err ≠ .none ∧ t = u) ∨ (u.err = .none ∧ next u = .next t)) := by
  cases first with
  | next u =>
    by_cases h : u.err = .none
    · simp [andThen, h]
    · simp only [andThen, if_neg h, Host.Outcome.next.injEq, exists_eq_left']
      constructor
      · rintro rfl; exact .inl ⟨h, rfl⟩
      · rintro (⟨_, rfl⟩ | ⟨h', _⟩)
        · rfl
        · exact absurd h' h
  | fault f => simp [andThen]
  | refused r => simp [andThen]

/-! ### The host's side -/

theorem hostStep_idle (s : State) (h : s.script = []) : hostStep s = .next s := by simp [hostStep, h]

theorem hostStep_perform (s : State) (a : HostAction) (rest : List HostAction) (h : s.script = a :: rest) :
    hostStep s = perform a { s with script := rest } := by
  simp [hostStep, h]

/-- R44, R45: a host read that answers next has changed nothing but what the host has seen. -/
theorem performRead_next (space : Space) (idx : Nat) (s t : State) (h : performRead space idx s = .next t) :
    (∃ e, s.hostRead space idx = .value e ∧ t = { s with replies := e :: s.replies }) ∨
    (s.hostRead space idx = .unspecified ∧
      t = { s with replies := .byte (Config.freeByte s.draws idx) :: s.replies, draws := s.draws + 1 }) := by
  unfold performRead at h
  split at h
  · rename_i e he
    exact .inl ⟨e, he, by simpa using h.symm⟩
  · rename_i he
    exact .inr ⟨he, by simpa using h.symm⟩
  · cases h

/-- R44: a host write that answers next took a command, stored a register, or stored an `IBUF` byte. -/
theorem performWrite_next (space : Space) (idx : Nat) (value : Elem) (s t : State)
    (h : performWrite space idx value s = .next t) :
    (∃ w, space = .reg ∧ idx = 0 ∧ value = .word w ∧ takeCommand w s = .next t) ∨
    (∃ v, space = .reg ∧ value = .word v ∧
      ((idx = 4 ∧ t = { s with limitEn := v.getLsbD 0 }) ∨ (idx = 5 ∧ t = { s with ilen := v }) ∨
       (idx = 7 ∧ t = { s with hlen := v }) ∨ (idx = 8 ∧ t = { s with symlimit := v }) ∨
       (idx = 9 ∧ t = { s with blen := v }))) ∨
    (∃ b, space = .ibuf ∧ value = .byte b ∧ idx < s.cfg.ibufCap ∧ t = { s with ibuf := s.ibuf.write idx b }) := by
  unfold performWrite at h
  split at h
  · rename_i v
    unfold writeReg at h
    split at h
    · exact .inl ⟨v, rfl, rfl, rfl, h⟩
    all_goals first
      | (cases h; simp)
      | cases h
  · rename_i b
    split at h
    · rename_i hi
      exact .inr (.inr ⟨b, rfl, rfl, hi, by simpa using h.symm⟩)
    · cases h
  all_goals cases h

/-- R170: what the taking of a command word can do. -/
theorem takeCommand_next (w : Word) (s t : State) (h : takeCommand w s = .next t) :
    (decode w = .ok .sysReset ∧ exec .sysReset s = .next t) ∨ (s.err ≠ .none ∧ t = s) ∨
    (∃ i, decode w = .ok i ∧ s.err = .none ∧ exec i s = .next t) ∨
    (∃ e, decode w = .error e ∧ s.err = .none ∧ t = s.takeFault .illegalCommand w.toNat) := by
  unfold takeCommand at h
  split at h
  · rename_i hd
    exact .inl ⟨hd, h⟩
  · rename_i i _ hd
    by_cases he : s.err = .none
    · simp only [State.faulted, he] at h
      exact .inr (.inr (.inl ⟨i, hd, he, by simpa using h⟩))
    · exact .inr (.inl ⟨he, by simpa [State.faulted, he] using h.symm⟩)
  · rename_i e hd
    by_cases he : s.err = .none
    · simp only [State.faulted, he] at h
      exact .inr (.inr (.inr ⟨e, hd, he, by simpa [raiseFault] using h.symm⟩))
    · exact .inr (.inl ⟨he, by simpa [State.faulted, he] using h.symm⟩)

end Sys2Proof.Machine
end

