-- ==== Sys2Proof/Laws/Dec.lean ====
section
/-!
SUPPORT. One lemma for each function of the decoder, saying what it computes.
-/

namespace Sys2Proof.Machine

/-! ### The length field -/

theorem beValue_four (a b c d : Byte) :
    beValue [a, b, c, d] = a.toNat * 2 ^ 24 + b.toNat * 2 ^ 16 + c.toNat * 2 ^ 8 + d.toNat := by
  simp only [beValue, List.foldl_cons, List.foldl_nil]
  omega

/-- R122, R141: the big-endian length field is read as it was written. -/
theorem beValue_beBytes (n : Nat) (h : n < 2 ^ 32) : beValue (beBytes n) = n := by
  rw [beBytes, beValue_four]
  simp only [BitVec.toNat_ofNat]
  omega

@[simp] theorem beBytes_length (n : Nat) : (beBytes n).length = 4 := rfl

/-! ### The entry loop -/

@[simp] theorem RawEntry.bytes_length (e : RawEntry) : e.bytes.length = 2 + e.data.length := by
  simp [RawEntry.bytes]; omega

/-- R140: over one well-framed entry the loop stores it and goes on behind it. -/
theorem parseEntries_step (rd : Nat → Byte) (fin fuel pos : Nat) (T : Table) (e : RawEntry) (hs : e.sized)
    (hb : (List.range e.bytes.length).map (fun j => rd (pos + j)) = e.bytes) (hf : pos + e.bytes.length ≤ fin) :
    parseEntries rd fin (fuel + 1) pos T =
      parseEntries rd fin fuel (pos + e.bytes.length) (T.put e.sym (mkbits e.data e.len.toNat)) := by
  have hget : ∀ j < e.bytes.length, rd (pos + j) = e.bytes.getD j 0 := by
    intro j hj
    have := congrArg (fun l => l.getD j 0) hb
    rw [RawEntry.bytes_length] at hj
    simpa [List.getD_eq_getElem?_getD, List.getElem?_range hj] using this
  rw [RawEntry.bytes_length] at hget hf
  have h0 : rd pos = e.sym := by simpa [RawEntry.bytes] using hget 0 (by omega)
  have h1 : rd (pos + 1) = e.len := by simpa [RawEntry.bytes] using hget 1 (by omega)
  have hn : nbytes e.len.toNat = e.data.length := by
    rw [RawEntry.sized] at hs; unfold nbytes; omega
  have hd : (List.range e.data.length).map (fun j => rd (pos + 2 + j)) = e.data := by
    apply List.ext_getElem?
    intro j
    by_cases hj : j < e.data.length
    · have := hget (2 + j) (by omega)
      have e2 : 2 + j = j + 1 + 1 := by omega
      rw [e2] at this
      simp only [RawEntry.bytes, List.getD_cons_succ] at this
      have e3 : pos + 2 + j = pos + (j + 1 + 1) := by omega
      simp [hj, e3, this, List.getD_eq_getElem?_getD]
    · simp [hj]
  rw [parseEntries, if_neg (by omega), if_neg (by omega)]
  simp only [h0, h1, hn, hd]
  rw [if_neg (by omega), RawEntry.bytes_length]
  congr 1
  omega

/-- The table that a list of entries leaves on a table `T`: each entry replaces its slot (R143). -/
def putEntries (es : List RawEntry) (T : Table) : Table :=
  es.foldl (fun T e => T.put e.sym (mkbits e.data e.len.toNat)) T

/-- R140: over any list of well-framed entries the loop stores them all and stands behind the last. -/
theorem parseEntries_framed (rd : Nat → Byte) (fin : Nat) (es : List RawEntry) (hs : ∀ e ∈ es, e.sized)
    (fuel pos : Nat) (T : Table)
    (hb : (List.range (es.flatMap RawEntry.bytes).length).map (fun j => rd (pos + j)) = es.flatMap RawEntry.bytes)
    (hf : pos + (es.flatMap RawEntry.bytes).length ≤ fin) :
    parseEntries rd fin (es.length + fuel) pos T =
      parseEntries rd fin fuel (pos + (es.flatMap RawEntry.bytes).length) (putEntries es T) := by
  induction es generalizing pos T with
  | nil => simp [putEntries]
  | cons e es ih =>
    simp only [List.flatMap_cons, List.length_append] at hb hf ⊢
    rw [List.range_add, List.map_append] at hb
    obtain ⟨hb1, hb2⟩ := List.append_inj hb (by simp)
    have ef : (e :: es).length + fuel = (es.length + fuel) + 1 := by simp only [List.length_cons]; omega
    rw [ef, parseEntries_step rd fin _ pos T e (hs e (by simp)) hb1 (by omega)]
    have hb2' : (List.range (es.flatMap RawEntry.bytes).length).map (fun j => rd (pos + e.bytes.length + j)) =
        es.flatMap RawEntry.bytes := by
      simpa [List.map_map, Function.comp_def, Nat.add_assoc] using hb2
    rw [ih (fun d hd => hs d (by simp [hd])) _ _ hb2' (by omega)]
    simp [putEntries, Nat.add_assoc]

/-- R143: the slot a list of entries leaves is the one of the last entry for the symbol. -/
theorem slot_putEntries (es : List RawEntry) (T : Table) (x : Byte) :
    (putEntries es T).slot x = (slotAfter es x).or (T.slot x) := by
  induction es generalizing T with
  | nil => simp [putEntries, slotAfter]
  | cons e es ih =>
    have : putEntries (e :: es) T = putEntries es (T.put e.sym (mkbits e.data e.len.toNat)) := rfl
    rw [this, ih, Table.slot_put]
    simp only [slotAfter, List.reverse_cons, List.find?_append]
    by_cases h : x = e.sym
    · subst h
      cases (es.reverse.find? fun d => d.sym == e.sym) <;> simp
    · have h' : (e.sym == x) = false := by simp [Ne.symm h]
      cases (es.reverse.find? fun d => d.sym == x) <;> simp [h, h']

/-! ### The match -/

theorem candidate_iff (pay c : BitSeq) : candidate pay (some c) = true ↔ c ≠ [] ∧ c <+: pay := by
  simp only [candidate, Bool.and_eq_true, decide_eq_true_eq, startWith_iff]
  refine and_congr_left fun _ => ?_
  cases c <;> simp

/-- R147: one step of the scan keeps the best candidate so far or takes a longer one. -/
theorem betterMatch_cases (best : Option (Byte × BitSeq)) (x : Byte) (c : BitSeq) :
    (betterMatch best (x, some c) = best ∧ ∃ y d, best = some (y, d) ∧ c.length ≤ d.length) ∨
    (betterMatch best (x, some c) = some (x, c) ∧ ∀ y d, best = some (y, d) → d.length < c.length) := by
  cases best with
  | none => exact .inr ⟨rfl, fun y d h => by cases h⟩
  | some yd =>
    obtain ⟨y, d⟩ := yd
    by_cases hl : d.length < c.length
    · exact .inr ⟨by simp [betterMatch, hl], fun y' d' h => by cases h; exact hl⟩
    · exact .inl ⟨by simp [betterMatch, hl], y, d, rfl, by omega⟩

end Sys2Proof.Machine
end

