-- ==== Sys2Proof/Laws/Enc.lean ====
section
/-!
SUPPORT. One lemma for each function of the encoder, saying what it computes.
-/

namespace Sys2Proof.Machine

/-! ### The frequency counter -/

theorem count_foldl_bump (bytes : List Byte) (f : SymFile Word) (x : Byte) :
    count (bytes.foldl bump f) x = count f x + BitVec.ofNat 32 (bytes.count x) := by
  induction bytes generalizing f with
  | nil => simp
  | cons b bytes ih =>
    rw [List.foldl_cons, ih, count_bump, List.count_cons]
    by_cases h : x = b
    · subst h
      simp only [if_true, beq_self_eq_true, BitVec.ofNat_add]
      rw [BitVec.add_assoc, BitVec.add_comm 1]
      rfl
    · have h' : (b == x) = false := by simp [Ne.symm h]
      simp [h, h']

/-- R110: the counters are the numbers of occurrences, of fewer than `2^32` bytes. -/
theorem count_countBytes (bytes : List Byte) (x : Byte) (h : bytes.length < 2 ^ 32) :
    (count (countBytes bytes) x).toNat = bytes.count x := by
  have hle : bytes.count x ≤ bytes.length := List.count_le_length
  rw [countBytes, count_foldl_bump, count_fill]
  rw [show (0 : Word) + BitVec.ofNat 32 (bytes.count x) = BitVec.ofNat 32 (bytes.count x) by simp, BitVec.toNat_ofNat]
  omega

/-! ### The priority queue -/

theorem Weighted.before_iff (a b : Weighted) :
    a.before b = true ↔ a.occ < b.occ ∨ (a.occ = b.occ ∧ a.idx < b.idx) := by
  simp [Weighted.before]

theorem firstOut_mem (m : Weighted) (Q : List Weighted) : firstOut m Q = m ∨ firstOut m Q ∈ Q := by
  induction Q generalizing m with
  | nil => exact .inl rfl
  | cons a Q ih =>
    simp only [firstOut, List.foldl_cons] at ih ⊢
    split
    · rcases ih a with h | h
      · rw [h]; simp
      · exact .inr (List.mem_cons_of_mem _ h)
    · rcases ih m with h | h
      · exact .inl h
      · exact .inr (List.mem_cons_of_mem _ h)

theorem firstOut_le (m : Weighted) (Q : List Weighted) :
    m.before (firstOut m Q) = false ∧ ∀ b ∈ Q, b.before (firstOut m Q) = false := by
  have hf : ∀ a b : Weighted, a.before b = false ↔ ¬(a.occ < b.occ ∨ (a.occ = b.occ ∧ a.idx < b.idx)) := by
    intro a b; rw [← Weighted.before_iff]; simp
  induction Q generalizing m with
  | nil => exact ⟨by simp [hf, firstOut], by simp⟩
  | cons a Q ih =>
    simp only [firstOut, List.foldl_cons] at ih ⊢
    split
    · rename_i ha
      obtain ⟨h1, h2⟩ := ih a
      rw [Weighted.before_iff] at ha
      refine ⟨?_, fun b hb => ?_⟩
      · rw [hf] at h1 ⊢; omega
      · rcases List.mem_cons.mp hb with rfl | hb
        · exact h1
        · exact h2 b hb
    · rename_i ha
      obtain ⟨h1, h2⟩ := ih m
      rw [Weighted.before_iff] at ha
      refine ⟨h1, fun b hb => ?_⟩
      rcases List.mem_cons.mp hb with rfl | hb
      · rw [hf] at h1 ⊢; omega
      · exact h2 b hb

/-- R114: what `popmin` answers: a member that no member pops before, and the queue without it. -/
theorem popMin_spec (Q : List Weighted) (a : Weighted) (Q' : List Weighted) (h : popMin Q = some (a, Q')) :
    a ∈ Q ∧ Q' = Q.erase a ∧ ∀ b ∈ Q, b.before a = false := by
  cases Q with
  | nil => simp [popMin] at h
  | cons m Q =>
    simp only [popMin, Option.some.injEq, Prod.mk.injEq] at h
    obtain ⟨rfl, rfl⟩ := h
    refine ⟨?_, rfl, fun b hb => ?_⟩
    · rcases firstOut_mem m Q with h | h
      · rw [h]; simp
      · exact List.mem_cons_of_mem _ h
    · rcases List.mem_cons.mp hb with rfl | hb
      · exact (firstOut_le b Q).1
      · exact (firstOut_le m Q).2 b hb

theorem popMin_none (Q : List Weighted) : popMin Q = none ↔ Q = [] := by
  cases Q <;> simp [popMin]

/-! ### The packer -/

/-- R126: the packer's loop ends with the bits so far and the codewords of the bytes, when all are there and fit. -/
theorem packLoop_bits (T : Table) (cap : Nat) (i : Nat) (acc : BitSeq) (bytes : List Byte)
    (hc : T.covers bytes) (hf : (acc ++ packed T bytes).length ≤ cap) :
    packLoop T cap i acc bytes = .bits (acc ++ packed T bytes) := by
  induction bytes generalizing i acc with
  | nil => simp [packLoop, packed]
  | cons x bytes ih =>
    obtain ⟨c, hx⟩ := Option.isSome_iff_exists.mp (hc x (by simp))
    have hp : packed T (x :: bytes) = c ++ packed T bytes := by simp [packed, codeOf, hx]
    rw [hp, ← List.append_assoc] at hf ⊢
    have hlen : ¬ cap < acc.length + c.length := by simp only [List.length_append] at hf; omega
    simp only [packLoop, hx, if_neg hlen, concat]
    exact ih (i + 1) (acc ++ c) (fun y hy => hc y (by simp [hy])) hf

/-- R126, R182, R188: how the packer's loop stops at the byte after the bytes `front`. -/
theorem packLoop_stops (T : Table) (cap : Nat) (i : Nat) (acc : BitSeq) (front : List Byte) (x : Byte)
    (rest : List Byte) (hc : T.covers front) (hf : (acc ++ packed T front).length ≤ cap) :
    (T.slot x = none → packLoop T cap i acc (front ++ x :: rest) = .unknown (i + front.length)) ∧
    ∀ c, T.slot x = some c → cap < (acc ++ packed T front).length + c.length →
      packLoop T cap i acc (front ++ x :: rest) = .full := by
  induction front generalizing i acc with
  | nil =>
    simp only [packed, List.flatMap_nil, List.append_nil, List.nil_append, List.length_nil, Nat.add_zero]
    exact ⟨fun h => by simp [packLoop, h], fun c h hl => by simp [packLoop, h, hl]⟩
  | cons y front ih =>
    obtain ⟨c, hy⟩ := Option.isSome_iff_exists.mp (hc y (by simp))
    have hp : packed T (y :: front) = c ++ packed T front := by simp [packed, codeOf, hy]
    rw [hp, ← List.append_assoc] at hf ⊢
    have hlen : ¬ cap < acc.length + c.length := by simp only [List.length_append] at hf; omega
    have := ih (i + 1) (acc ++ c) (fun z hz => hc z (by simp [hz])) hf
    simp only [List.cons_append, packLoop, hy, if_neg hlen, concat, List.length_cons]
    refine ⟨fun h => ?_, this.2⟩
    rw [this.1 h]; congr 1; omega

/-! ### The table of a list of entries -/

theorem slot_foldl_put (entries : List (Byte × BitSeq)) (T : Table) (x : Byte) :
    (entries.foldl (fun T p => T.put p.1 p.2) T).slot x =
      ((entries.reverse.find? fun p => p.1 == x).map Prod.snd).or (T.slot x) := by
  induction entries generalizing T with
  | nil => simp
  | cons p entries ih =>
    rw [List.foldl_cons, ih, Table.slot_put, List.reverse_cons, List.find?_append]
    by_cases h : x = p.1
    · subst h
      cases (entries.reverse.find? fun q => q.1 == p.1) <;> simp
    · have h' : (p.1 == x) = false := by simp [Ne.symm h]
      cases (entries.reverse.find? fun q => q.1 == x) <;> simp [h, h']

/-- R118: in the table of entries with distinct symbols, exactly the entries are the slots. -/
theorem slot_tableOf (entries : List (Byte × BitSeq)) (h : (entries.map Prod.fst).Nodup) (x : Byte) (c : BitSeq) :
    (tableOf entries).slot x = some c ↔ (x, c) ∈ entries := by
  have hfind : ∀ l : List (Byte × BitSeq), (l.map Prod.fst).Nodup →
      (((l.find? fun p => p.1 == x).map Prod.snd) = some c ↔ (x, c) ∈ l) := by
    intro l
    induction l with
    | nil => simp
    | cons p l ih =>
      intro hn
      simp only [List.map_cons, List.nodup_cons] at hn
      by_cases hp : p.1 = x
      · subst hp
        constructor
        · intro hh; simp only [List.find?_cons, beq_self_eq_true, Option.map_some, Option.some.injEq] at hh
          subst hh; simp
        · intro hm
          rcases List.mem_cons.mp hm with hm | hm
          · rw [List.find?_cons_of_pos (by simp)]
            exact congrArg some (congrArg Prod.snd hm.symm)
          · exact absurd (List.mem_map_of_mem (f := Prod.fst) hm) hn.1
      · have hb : (p.1 == x) = false := by simp [hp]
        rw [List.find?_cons, hb, ih hn.2, List.mem_cons]
        constructor
        · exact .inr
        · rintro (rfl | hm)
          · exact absurd rfl hp
          · exact hm
  rw [tableOf, slot_foldl_put, Table.slot_empty, Option.or_none, hfind _ (by simpa [List.map_reverse] using h)]
  simp

/-! ### The walk down the tree -/

/-- R118: the entries that `derive` gives are the paths down from node `i` to the leaves, with their symbols. -/
theorem mem_deriveCodes (nodes : List Node) (fuel i : Nat) (entries : List (Byte × BitSeq))
    (h : deriveCodes nodes fuel i = some entries) (x : Byte) (c : BitSeq) :
    (x, c) ∈ entries ↔
      ∃ k, follow nodes i c = some k ∧ (nodeAt nodes k).kind = .leaf ∧ (nodeAt nodes k).sym = x := by
  induction fuel generalizing i entries c with
  | zero => simp [deriveCodes] at h
  | succ fuel ih =>
    rw [deriveCodes] at h
    cases hk : (nodeAt nodes i).kind with
    | leaf =>
      simp only [hk, Option.some.injEq] at h
      subst h
      cases c with
      | nil => simp [follow, hk, eq_comm]
      | cons b c => simp [follow, hk]
    | internal =>
      simp only [hk] at h
      split at h
      · rename_i l r hl hr
        simp only [Option.some.injEq] at h
        subst h
        cases c with
        | nil => simp [follow, hk]
        | cons b c =>
          have h1 := ih _ l hl c
          have h2 := ih _ r hr c
          cases b <;> simp [follow, hk, h1, h2]
      · cases h

end Sys2Proof.Machine
end

