-- ==== Sys2Proof/Laws/Exec.lean ====
section
/-!
SUPPORT. One inversion lemma for each primitive command: every next state it can answer, written with the named
operations. A proof about a command cites its lemma and splits no branch of the meaning again.
-/

namespace Sys2Proof.Machine

/-! ### The BitSequence commands -/

theorem execBsLd_next (rd : Fin 4) (s t : State) (h : execBsLd rd s = .next t) :
    t = s.takeFault .capacityExceeded 3 ∨ t = s.takeFault .capacityExceeded 4 ∨
    (s.blen.toNat ≤ s.cfg.bsCap ∧ s.ilen.toNat ≤ s.cfg.ibufCap ∧ nbytes s.blen.toNat ≤ s.ilen.toNat ∧
      t = (s.setBs rd (mkbits (s.ibufBytes 0 (nbytes s.blen.toNat)) s.blen.toNat)).drawn) := by
  unfold execBsLd at h
  split at h
  · exact .inl ((raiseCapacity_next _ _ _).mp h)
  · split at h
    · exact .inr (.inl ((raiseCapacity_next _ _ _).mp h))
    · split at h
      · exact .inr (.inl ((raiseCapacity_next _ _ _).mp h))
      · rename_i h1 h2 h3
        exact .inr (.inr ⟨by omega, by simpa [State.inputTooLong] using h2, by omega, by simpa using h.symm⟩)

theorem execBsPushf_next (rd : Fin 4) (imm8 : Nat) (s t : State) (h : execBsPushf rd imm8 s = .next t) :
    (1 < imm8 ∧ t = s.takeFault .invalidBitValue imm8) ∨
    (imm8 ≤ 1 ∧ s.cfg.bsCap < (s.bsReg rd).length + 1 ∧ t = s.takeFault .capacityExceeded 3) ∨
    (imm8 ≤ 1 ∧ (s.bsReg rd).length + 1 ≤ s.cfg.bsCap ∧ t = s.setBs rd (decide (imm8 = 1) :: s.bsReg rd)) := by
  unfold execBsPushf at h
  split at h
  · rename_i hp
    refine .inl ⟨?_, (raiseFault_next _ _ _ _).mp h⟩
    unfold pushFrontBit at hp
    split at hp <;> [cases hp; split at hp <;> [cases hp; omega]]
  · rename_i q hp
    have hq : imm8 ≤ 1 ∧ q = decide (imm8 = 1) :: s.bsReg rd := by
      unfold pushFrontBit at hp
      split at hp
      · rename_i h0; subst h0; cases hp; simp
      · split at hp
        · rename_i h1; subst h1; cases hp; simp
        · cases hp
    split at h
    · rename_i hc
      exact .inr (.inl ⟨hq.1, hc, (raiseCapacity_next _ _ _).mp h⟩)
    · rename_i hc
      exact .inr (.inr ⟨hq.1, by omega, by rw [← hq.2]; simpa using h.symm⟩)

theorem execBsShr_next (rd : Fin 4) (s t : State) (h : execBsShr rd s = .next t) :
    (s.cfg.bsCap < (s.bsReg rd).length + 1 ∧ t = s.takeFault .capacityExceeded 3) ∨
    ((s.bsReg rd).length + 1 ≤ s.cfg.bsCap ∧ t = s.setBs rd (false :: s.bsReg rd)) := by
  unfold execBsShr at h
  split at h
  · rename_i hc
    exact .inl ⟨hc, (raiseCapacity_next _ _ _).mp h⟩
  · exact .inr ⟨by omega, by simpa [shiftRightOnce] using h.symm⟩

theorem execBsCat_next (rd rs : Fin 4) (s t : State) (h : execBsCat rd rs s = .next t) :
    (s.cfg.bsCap < (s.bsReg rd).length + (s.bsReg rs).length ∧ t = s.takeFault .capacityExceeded 3) ∨
    ((s.bsReg rd).length + (s.bsReg rs).length ≤ s.cfg.bsCap ∧ t = s.setBs rd (s.bsReg rd ++ s.bsReg rs)) := by
  unfold execBsCat at h
  split at h
  · rename_i hc
    exact .inl ⟨hc, (raiseCapacity_next _ _ _).mp h⟩
  · exact .inr ⟨by omega, by simpa [concat] using h.symm⟩

/-! ### The encoder commands -/

theorem execEncCount_next (s t : State) (h : execEncCount s = .next t) :
    (s.inputTooLong ∧ t = s.takeFault .capacityExceeded 4) ∨
    (¬ s.inputTooLong ∧ t = { s with freq := countBytes s.input }.drawn) := by
  unfold execEncCount at h
  split at h
  · rename_i hc
    exact .inl ⟨hc, (raiseCapacity_next _ _ _).mp h⟩
  · rename_i hc
    exact .inr ⟨hc, by simpa using h.symm⟩

theorem execEncTree_next (s t : State) (h : execEncTree s = .next t) :
    (distinctBytes s.freq = [] ∧ t = s.takeFault .emptyInput 0) ∨
    (distinctBytes s.freq ≠ [] ∧
      t = { s with nodes := buildTree s.freq, root := BitVec.ofNat 9 ((buildTree s.freq).length - 1) }) := by
  unfold execEncTree at h
  split at h
  · rename_i hc
    exact .inl ⟨hc, (raiseFault_next _ _ _ _).mp h⟩
  · rename_i hc
    exact .inr ⟨hc, by simpa using h.symm⟩

theorem execEncTable_next (s t : State) (h : execEncTable s = .next t) :
    (s.root = NodeIdx.nil ∧ t = s.takeFault .noTree 0) ∨
    (s.root ≠ NodeIdx.nil ∧ ∃ T, deriveTable s.nodes s.root = some T ∧ t = { s with cw := T }) := by
  unfold execEncTable at h
  split at h
  · rename_i hc
    exact .inl ⟨hc, (raiseFault_next _ _ _ _).mp h⟩
  · rename_i hc
    split at h
    · cases h
    · rename_i T hT
      exact .inr ⟨hc, T, hT, by simpa using h.symm⟩

theorem execEncHdr_next (s t : State) (h : execEncHdr s = .next t) :
    (∃ x, overlong (s.cw.slot x) = true ∧ t = s.takeFault .encodingOverflow x.toNat) ∨
    ((∀ x, overlong (s.cw.slot x) = false) ∧
      t = { s with
        obuf := s.obuf.writeBytes 0 (headerBytes s.cw)
        olen := BitVec.ofNat 32 (headerBytes s.cw).length
        hlen := BitVec.ofNat 32 (headerBytes s.cw).length }) := by
  unfold execEncHdr at h
  split at h
  · rename_i p hp
    have hm : s.cw.slot p.1 = p.2 := (SymFile.mem_pairs s.cw p).mp (List.mem_of_find?_eq_some hp)
    exact .inl ⟨p.1, by simpa [hm] using List.find?_some hp, (raiseFault_next _ _ _ _).mp h⟩
  · rename_i hx
    refine .inr ⟨fun x => ?_, by simpa using h.symm⟩
    simpa using (List.find?_eq_none.mp hx) (x, s.cw.slot x) ((SymFile.mem_pairs s.cw _).mpr rfl)

theorem execEncPack_next (s t : State) (h : execEncPack s = .next t) :
    (s.inputTooLong ∧ t = s.takeFault .capacityExceeded 4) ∨
    (¬ s.inputTooLong ∧
      ((∃ i, packLoop s.cw s.cfg.payCap 0 [] s.input = .unknown i ∧ t = s.takeFault .unknownSymbol i) ∨
       (packLoop s.cw s.cfg.payCap 0 [] s.input = .full ∧ t = s.takeFault .capacityExceeded 2) ∨
       ∃ q, packLoop s.cw s.cfg.payCap 0 [] s.input = .bits q ∧ t = { s with pay := q }.drawn)) := by
  unfold execEncPack at h
  split at h
  · rename_i hc
    exact .inl ⟨hc, (raiseCapacity_next _ _ _).mp h⟩
  · rename_i hc
    refine .inr ⟨hc, ?_⟩
    split at h
    · rename_i i hi
      exact .inl ⟨i, hi, (raiseFault_next _ _ _ _).mp h⟩
    · rename_i hf
      exact .inr (.inl ⟨hf, (raiseCapacity_next _ _ _).mp h⟩)
    · rename_i q hq
      exact .inr (.inr ⟨q, hq, by simpa using h.symm⟩)

/-! ### The decoder commands -/

theorem execDecHdr_next (s t : State) (h : execDecHdr s = .next t) :
    (s.inputTooLong ∧ t = s.takeFault .capacityExceeded 4) ∨
    (¬ s.inputTooLong ∧ (s.ilen.toNat < 4 ∨ s.ilen.toNat < s.headerExtent) ∧ t = s.takeFault .malformedHeader 0) ∨
    (¬ s.inputTooLong ∧ 4 ≤ s.ilen.toNat ∧ s.headerExtent ≤ s.ilen.toNat ∧
      ((∃ pos, parseEntries s.ibufByte s.headerExtent s.headerExtent 4 Table.empty = .broken pos ∧
          t = s.takeFault .malformedHeader pos) ∨
       ∃ T, parseEntries s.ibufByte s.headerExtent s.headerExtent 4 Table.empty = .table T ∧
          t = { s with cw := T, hlen := BitVec.ofNat 32 s.headerExtent }.drawn)) := by
  unfold execDecHdr at h
  split at h
  · rename_i hc
    exact .inl ⟨hc, (raiseCapacity_next _ _ _).mp h⟩
  · rename_i hc
    split at h
    · rename_i h4
      exact .inr (.inl ⟨hc, .inl h4, (raiseFault_next _ _ _ _).mp h⟩)
    · split at h
      · rename_i he
        exact .inr (.inl ⟨hc, .inr he, (raiseFault_next _ _ _ _).mp h⟩)
      · rename_i h4 he
        refine .inr (.inr ⟨hc, by omega, by omega, ?_⟩)
        split at h
        · rename_i pos hp
          exact .inl ⟨pos, hp, (raiseFault_next _ _ _ _).mp h⟩
        · rename_i T hT
          exact .inr ⟨T, hT, by simpa using h.symm⟩

theorem execDecLoad_next (s t : State) (h : execDecLoad s = .next t) :
    (s.inputTooLong ∧ t = s.takeFault .capacityExceeded 4) ∨
    (s.ilen.toNat < s.hlen.toNat ∧ t = s.takeFault .malformedHeader s.hlen.toNat) ∨
    (s.cfg.payCap < 8 * (s.ilen.toNat - s.hlen.toNat) ∧ t = s.takeFault .capacityExceeded 2) ∨
    (¬ s.inputTooLong ∧ s.hlen.toNat ≤ s.ilen.toNat ∧ 8 * (s.ilen.toNat - s.hlen.toNat) ≤ s.cfg.payCap ∧
      t = { s with
        pay := mkbits (s.ibufBytes s.hlen.toNat (s.ilen.toNat - s.hlen.toNat)) (8 * (s.ilen.toNat - s.hlen.toNat))
        olen := 0
        dstate := .scanning }.drawn) := by
  unfold execDecLoad at h
  simp only at h
  split at h
  · rename_i hc
    exact .inl ⟨hc, (raiseCapacity_next _ _ _).mp h⟩
  · rename_i hc
    split at h
    · rename_i hh
      exact .inr (.inl ⟨hh, (raiseFault_next _ _ _ _).mp h⟩)
    · split at h
      · rename_i hp
        exact .inr (.inr (.inl ⟨hp, (raiseCapacity_next _ _ _).mp h⟩))
      · rename_i hh hp
        exact .inr (.inr (.inr ⟨hc, by omega, by omega, by simpa using h.symm⟩))

theorem execDecStep_next (s t : State) (h : execDecStep s = .next t) :
    (s.dstate ≠ .scanning ∧ t = s) ∨
    (s.dstate = .scanning ∧
      ((s.limitReached ∧ t = { s with dstate := .exhausted }) ∨
       (¬ s.limitReached ∧ matchSymbol s.pay s.cw = none ∧
         ((s.pay = [] ∧ t = { s with dstate := .exhausted }) ∨
          (s.pay ≠ [] ∧ t = s.takeFault .decodeExhausted s.pay.length))) ∨
       (¬ s.limitReached ∧ ∃ x c, matchSymbol s.pay s.cw = some (x, c) ∧
         ((s.cfg.obufCap ≤ s.olen.toNat ∧ t = s.takeFault .capacityExceeded 1) ∨
          (s.olen.toNat < s.cfg.obufCap ∧ t = s.emit x c))))) := by
  unfold execDecStep at h
  split at h
  · rename_i hd
    exact .inl ⟨hd, by simpa using h.symm⟩
  · rename_i hd
    refine .inr ⟨by simpa using hd, ?_⟩
    split at h
    · rename_i hl
      exact .inl ⟨hl, by simpa using h.symm⟩
    · rename_i hl
      refine .inr ?_
      split at h
      · rename_i hm
        refine .inl ⟨hl, hm, ?_⟩
        split at h
        · rename_i hp
          exact .inr ⟨by intro e; simp [e] at hp, (raiseFault_next _ _ _ _).mp h⟩
        · rename_i hp
          exact .inl ⟨by simpa using hp, by simpa using h.symm⟩
      · rename_i x c hm
        refine .inr ⟨hl, x, c, hm, ?_⟩
        split at h
        · rename_i hc
          exact .inl ⟨hc, (raiseCapacity_next _ _ _).mp h⟩
        · rename_i hc
          exact .inr ⟨by omega, by simpa [State.emit] using h.symm⟩

/-- `DEC.STEP` always answers a next state (R171). -/
theorem execDecStep_completes (s : State) : ∃ t, execDecStep s = .next t := by
  unfold execDecStep
  split
  · exact ⟨_, rfl⟩
  · split
    · exact ⟨_, rfl⟩
    · split
      · split <;> exact ⟨_, rfl⟩
      · split <;> exact ⟨_, rfl⟩

/-- The loop of `DEC.RUN` keeps every property that `DEC.STEP` keeps: the one induction over its rounds. -/
theorem stepLoop_keeps (P : State → Prop) (hstep : ∀ s t, P s → execDecStep s = .next t → P t) (fuel : Nat)
    (s t : State) (hs : P s) (h : stepLoop fuel s = .next t) : P t := by
  induction fuel generalizing s with
  | zero => simp only [stepLoop, Host.Outcome.next.injEq] at h; exact h ▸ hs
  | succ fuel ih =>
    simp only [stepLoop] at h
    split at h
    · obtain ⟨u, hu, ⟨_, rfl⟩ | ⟨_, hrest⟩⟩ := (andThen_next _ _ _).mp h
      · exact hstep s _ hs hu
      · exact ih u (hstep s u hs hu) hrest
    · simp only [Host.Outcome.next.injEq] at h; exact h ▸ hs

end Sys2Proof.Machine
end

