-- ==== Sys2Proof/Laws/PerInstr.lean ====
section
/-!
SUPPORT. Two statements about every command as syntax, proved constructor by constructor: the word of a command
carries its opcode (R60, R63), and it has no bit outside the fields of its format (R61, R65).
-/

namespace Sys2Proof.Laws

/-- The low byte of a packed word is its opcode: the other fields lie above it (R60). -/
theorem opField_packFields (op : Byte) (rd rs : Fin 4) (imm8 : Nat) : opField (packFields op rd rs imm8) = op := by
  apply BitVec.eq_of_getLsbD_eq
  intro i hi
  have h8 : i < 8 := hi
  have h10 : i < 10 := by omega
  have h16 : i < 16 := by omega
  have h32 : i < 32 := by omega
  simp [opField, packFields, h8, h10, h16, h32]

/-- A field of two bits that starts at bit `k` has no other bit. -/
theorem getLsbD_ofNat_shift (n w k i : Nat) (hn : n < 2 ^ w) (h : i < k ∨ k + w ≤ i) :
    (BitVec.ofNat 32 n <<< k).getLsbD i = false := by
  rcases h with h | h
  · simp [h]
  · have ht : n.testBit (i - k) = false := by
      apply Nat.testBit_lt_two_pow
      exact Nat.lt_of_lt_of_le hn (Nat.pow_le_pow_right (by decide) (by omega))
    simp [BitVec.getLsbD_ofNat, ht]

/-- Outside the bit ranges of R60 a packed word has no bit; `w` and `v` are 0 where a field is not used. -/
theorem packFields_reserved (op : Byte) (rd rs : Fin 4) (imm8 v w : Nat) (hrs : rs.val < 2 ^ v)
    (himm : imm8 < 2 ^ w) (i : Nat)
    (h : 10 ≤ i ∧ (10 + v ≤ i) ∧ (i < 16 ∨ 16 + w ≤ i)) : (packFields op rd rs imm8).getLsbD i = false := by
  have h1 := getLsbD_ofNat_shift rd.val 2 8 i (by have := rd.isLt; omega) (.inr (by omega))
  have h2 := getLsbD_ofNat_shift rs.val v 10 i hrs (.inr (by omega))
  have h3 := getLsbD_ofNat_shift imm8 w 16 i himm (by omega)
  have h0 : ((op.setWidth 32).getLsbD i) = false := by
    simp only [BitVec.getLsbD_setWidth, Bool.and_eq_false_iff]
    exact .inr (BitVec.getLsbD_of_ge op i (by omega))
  simp only [packFields, BitVec.getLsbD_or, h0, h1, h2, h3, Bool.or_false]

end Sys2Proof.Laws

namespace Sys2Proof.Laws.OpcodeByte

/-- R60, R63: the low byte of the command's word is the command's opcode. -/
def Statement (i : Instr) : Prop := opField (encode i) = i.opcode

theorem sysNop : Statement .sysNop := opField_packFields _ _ _ _
theorem sysReset : Statement .sysReset := opField_packFields _ _ _ _
theorem bsClr (rd : Fin 4) : Statement (.bsClr rd) := opField_packFields _ _ _ _
theorem bsLd (rd : Fin 4) : Statement (.bsLd rd) := opField_packFields _ _ _ _
theorem bsSt (rd : Fin 4) : Statement (.bsSt rd) := opField_packFields _ _ _ _
theorem bsPushf (rd : Fin 4) (imm8 : Nat) : Statement (.bsPushf rd imm8) := opField_packFields _ _ _ _
theorem bsShr (rd : Fin 4) : Statement (.bsShr rd) := opField_packFields _ _ _ _
theorem bsShl (rd : Fin 4) : Statement (.bsShl rd) := opField_packFields _ _ _ _
theorem bsCat (rd rs : Fin 4) : Statement (.bsCat rd rs) := opField_packFields _ _ _ _
theorem bsStw (rd rs : Fin 4) : Statement (.bsStw rd rs) := opField_packFields _ _ _ _
theorem bsEq (rd rs : Fin 4) : Statement (.bsEq rd rs) := opField_packFields _ _ _ _
theorem encCount : Statement .encCount := opField_packFields _ _ _ _
theorem encTree : Statement .encTree := opField_packFields _ _ _ _
theorem encTable : Statement .encTable := opField_packFields _ _ _ _
theorem encHdr : Statement .encHdr := opField_packFields _ _ _ _
theorem encPack : Statement .encPack := opField_packFields _ _ _ _
theorem encAll : Statement .encAll := opField_packFields _ _ _ _
theorem decHdr : Statement .decHdr := opField_packFields _ _ _ _
theorem decLoad : Statement .decLoad := opField_packFields _ _ _ _
theorem decStep : Statement .decStep := opField_packFields _ _ _ _
theorem decRun : Statement .decRun := opField_packFields _ _ _ _
theorem decAll : Statement .decAll := opField_packFields _ _ _ _

end Sys2Proof.Laws.OpcodeByte

namespace Sys2Proof.Laws.ReservedBits

/-- R61, R65: the word of a well-formed command has no bit in 15:12 or 31:24, none in `rs` (11:10) unless the
format is RR, and none in `imm8` (23:16) unless the format is RI. -/
def Statement (i : Instr) : Prop :=
  i.wellFormed = true → ∀ k, 10 ≤ k → (i.format = .RR → 12 ≤ k) → (i.format = .RI → k < 16 ∨ 24 ≤ k) →
    (encode i).getLsbD k = false

theorem sysNop : Statement .sysNop :=
  fun _ k h _ _ => packFields_reserved _ 0 0 0 0 0 (by decide) (by decide) k ⟨h, h, by omega⟩
theorem sysReset : Statement .sysReset :=
  fun _ k h _ _ => packFields_reserved _ 0 0 0 0 0 (by decide) (by decide) k ⟨h, h, by omega⟩
theorem bsClr (rd : Fin 4) : Statement (.bsClr rd) :=
  fun _ k h _ _ => packFields_reserved _ rd 0 0 0 0 (by decide) (by decide) k ⟨h, h, by omega⟩
theorem bsLd (rd : Fin 4) : Statement (.bsLd rd) :=
  fun _ k h _ _ => packFields_reserved _ rd 0 0 0 0 (by decide) (by decide) k ⟨h, h, by omega⟩
theorem bsSt (rd : Fin 4) : Statement (.bsSt rd) :=
  fun _ k h _ _ => packFields_reserved _ rd 0 0 0 0 (by decide) (by decide) k ⟨h, h, by omega⟩
theorem bsPushf (rd : Fin 4) (imm8 : Nat) : Statement (.bsPushf rd imm8) :=
  fun hw k h _ hi => packFields_reserved _ rd 0 imm8 0 8 (by decide)
    (by simpa [Instr.wellFormed] using hw) k ⟨h, h, hi rfl⟩
theorem bsShr (rd : Fin 4) : Statement (.bsShr rd) :=
  fun _ k h _ _ => packFields_reserved _ rd 0 0 0 0 (by decide) (by decide) k ⟨h, h, by omega⟩
theorem bsShl (rd : Fin 4) : Statement (.bsShl rd) :=
  fun _ k h _ _ => packFields_reserved _ rd 0 0 0 0 (by decide) (by decide) k ⟨h, h, by omega⟩
theorem bsCat (rd rs : Fin 4) : Statement (.bsCat rd rs) :=
  fun _ k h hr _ => packFields_reserved _ rd rs 0 2 0 rs.isLt (by decide) k ⟨h, hr rfl, by omega⟩
theorem bsStw (rd rs : Fin 4) : Statement (.bsStw rd rs) :=
  fun _ k h hr _ => packFields_reserved _ rd rs 0 2 0 rs.isLt (by decide) k ⟨h, hr rfl, by omega⟩
theorem bsEq (rd rs : Fin 4) : Statement (.bsEq rd rs) :=
  fun _ k h hr _ => packFields_reserved _ rd rs 0 2 0 rs.isLt (by decide) k ⟨h, hr rfl, by omega⟩
theorem encCount : Statement .encCount :=
  fun _ k h _ _ => packFields_reserved _ 0 0 0 0 0 (by decide) (by decide) k ⟨h, h, by omega⟩
theorem encTree : Statement .encTree :=
  fun _ k h _ _ => packFields_reserved _ 0 0 0 0 0 (by decide) (by decide) k ⟨h, h, by omega⟩
theorem encTable : Statement .encTable :=
  fun _ k h _ _ => packFields_reserved _ 0 0 0 0 0 (by decide) (by decide) k ⟨h, h, by omega⟩
theorem encHdr : Statement .encHdr :=
  fun _ k h _ _ => packFields_reserved _ 0 0 0 0 0 (by decide) (by decide) k ⟨h, h, by omega⟩
theorem encPack : Statement .encPack :=
  fun _ k h _ _ => packFields_reserved _ 0 0 0 0 0 (by decide) (by decide) k ⟨h, h, by omega⟩
theorem encAll : Statement .encAll :=
  fun _ k h _ _ => packFields_reserved _ 0 0 0 0 0 (by decide) (by decide) k ⟨h, h, by omega⟩
theorem decHdr : Statement .decHdr :=
  fun _ k h _ _ => packFields_reserved _ 0 0 0 0 0 (by decide) (by decide) k ⟨h, h, by omega⟩
theorem decLoad : Statement .decLoad :=
  fun _ k h _ _ => packFields_reserved _ 0 0 0 0 0 (by decide) (by decide) k ⟨h, h, by omega⟩
theorem decStep : Statement .decStep :=
  fun _ k h _ _ => packFields_reserved _ 0 0 0 0 0 (by decide) (by decide) k ⟨h, h, by omega⟩
theorem decRun : Statement .decRun :=
  fun _ k h _ _ => packFields_reserved _ 0 0 0 0 0 (by decide) (by decide) k ⟨h, h, by omega⟩
theorem decAll : Statement .decAll :=
  fun _ k h _ _ => packFields_reserved _ 0 0 0 0 0 (by decide) (by decide) k ⟨h, h, by omega⟩

end Sys2Proof.Laws.ReservedBits
end

