-- ==== Sys2Proof/Tests/Slice0.lean ====
section
/-!
SUPPORT. Tests of the model. Expected values are those of spec/95_test_vectors.md (the vector is named in the
comment) or of the rule named; none was taken from the model. The theorems `witness_<obligation>` show, for every
statement that has hypotheses, concrete values that meet all of them, clause by clause.
-/

namespace Sys2Proof.Tests

-- Elaborated one after another: each thread would ask for a large stack of its own.
set_option Elab.async false

open Sys2Proof Sys2Proof.Machine

/-! ## Helpers -/

/-- The next state of a result, if it is one. -/
def nextOf : Result → Option State
  | .next t => some t
  | _ => none

/-- The next state of a result, or the reset state where there is none. -/
def stateOf (r : Result) : State := (nextOf r).getD State.reset

theorem next_stateOf (r : Result) (h : (nextOf r).isSome = true) : r = .next (stateOf r) := by
  cases r with
  | next t => rfl
  | fault f => cases h
  | refused x => cases h

/-- A result that is a next state. -/
def Completes (r : Result) : Prop := ∃ t, r = .next t

theorem completes_of (r : Result) (h : (nextOf r).isSome = true) : Completes r := ⟨_, next_stateOf r h⟩

/-- A bit list written with 0 and 1, logical bit 0 first. -/
def bits (l : List Nat) : BitSeq := l.map (· == 1)

/-- A reset core with the bytes `d` in `IBUF` and `ILEN = |d|`. -/
def withInput (d : List Byte) : State :=
  { State.reset with ibuf := Memory.writeBytes [] 0 d, ilen := BitVec.ofNat 32 d.length }

/-- A reset core with two BitSequence registers set. -/
def withBs (q0 q1 : BitSeq) : State := (State.reset.setBs 0 q0).setBs 1 q1

/-- A table with `0x61 -> 1` and `0x62 -> 0`, the one of vector S-1. -/
def tableAB : Table := (Table.empty.put 0x61 (bits [1])).put 0x62 (bits [0])

/-- A smaller legal configuration. -/
def smallCfg : Config := { ibufCap := 8, obufCap := 8708, payCap := 16, bsCap := 256 }

/-- The counts of vector S-1: `a` three times, `b` once. -/
def freqAB : SymFile Word := countBytes [0x61, 0x61, 0x61, 0x62]

/-- The tree of vector S-1, written out from the spec's table. -/
def nodesAB : List Node :=
  [⟨.leaf, 0x61, 0x1FF, 0x1FF, 3⟩, ⟨.leaf, 0x62, 0x1FF, 0x1FF, 1⟩, ⟨.internal, 0, 1, 0, 4⟩]

/-- The artifact of vector S-1. -/
def artifactAB : List Byte := [0, 0, 0, 6, 0x61, 1, 0x80, 0x62, 1, 0, 0xE0]

/-- A faulted core. -/
def faulted : State := State.reset.takeFault .decodeExhausted 2

/-- The bytes of `OBUF` below `OLEN`. -/
def output (s : State) : List (Option Byte) := (List.range s.olen.toNat).map s.obuf.read?

/-- The valid slots of a table. -/
def entries (T : Table) : List (Byte × BitSeq) := T.pairs.filterMap fun p => p.2.map fun c => (p.1, c)

theorem mem_entries (T : Table) (x : Byte) (c : BitSeq) (h : T.slot x = some c) : (x, c) ∈ entries T :=
  List.mem_filterMap.mpr ⟨(x, some c), (SymFile.mem_pairs T _).mpr h, rfl⟩

theorem prefixFree_of_entries (T : Table)
    (h : ∀ p ∈ entries T, p.2 ≠ [] ∧ ∀ q ∈ entries T, p.1 ≠ q.1 → ¬ p.2 <+: q.2) : T.PrefixFree :=
  ⟨fun x c hx => (h (x, c) (mem_entries T x c hx)).1,
   fun x y c d hne hx hy => (h (x, c) (mem_entries T x c hx)).2 (y, d) (mem_entries T y d hy) hne⟩

theorem fits_of_entries (T : Table) (h : ∀ p ∈ entries T, p.2.length ≤ 255) : T.Fits :=
  fun x c hx => h (x, c) (mem_entries T x c hx)

theorem tableAB_prefixFree : tableAB.PrefixFree := prefixFree_of_entries _ (by decide +kernel)

theorem tableAB_fits : tableAB.Fits := fits_of_entries _ (by decide +kernel)

/-! ## Well-formedness: one ill-formed term for each check -/

theorem test_imm8_too_wide : (Instr.bsPushf 0 256).wellFormed = false := by decide
theorem test_imm8_widest : (Instr.bsPushf 0 255).wellFormed = true := by decide
theorem test_reference_is_wellFormed : Config.reference.WellFormed := by decide
theorem test_smallCfg_is_wellFormed : smallCfg.WellFormed := by decide
theorem test_ibufCap_too_small : ¬ ({ smallCfg with ibufCap := 3 } : Config).WellFormed := by decide
theorem test_ibufCap_too_large : ¬ ({ smallCfg with ibufCap := 2 ^ 32 } : Config).WellFormed := by decide
theorem test_obufCap_below_header : ¬ ({ smallCfg with obufCap := 8707 } : Config).WellFormed := by decide
theorem test_obufCap_below_bs : ¬ ({ smallCfg with bsCap := 80000 } : Config).WellFormed := by decide
theorem test_obufCap_too_large : ¬ ({ smallCfg with obufCap := 2 ^ 32 } : Config).WellFormed := by decide
theorem test_payCap_not_bytes : ¬ ({ smallCfg with payCap := 17 } : Config).WellFormed := by decide
theorem test_payCap_zero : ¬ ({ smallCfg with payCap := 0 } : Config).WellFormed := by decide
theorem test_payCap_too_large : ¬ ({ smallCfg with payCap := 2 ^ 32 } : Config).WellFormed := by decide
theorem test_bsCap_not_bytes : ¬ ({ smallCfg with bsCap := 257 } : Config).WellFormed := by decide
theorem test_bsCap_too_small : ¬ ({ smallCfg with bsCap := 248 } : Config).WellFormed := by decide
theorem test_bsCap_too_large : ¬ ({ smallCfg with bsCap := 2 ^ 32 } : Config).WellFormed := by decide
theorem test_memory_not_rising : ¬ Memory.wf 8 [(1, 0), (0, 0)] := by decide
theorem test_memory_repeats : ¬ Memory.wf 8 [(1, 0), (1, 0)] := by decide
theorem test_memory_beyond_capacity : ¬ Memory.wf 8 [(8, 0)] := by decide
theorem test_memory_last_byte : Memory.wf 8 [(7, 0)] := by decide

/-! ## Decoding: each command's word written out from the patterns of R61 and the opcodes of R63 -/

theorem test_decode_sys :
    decode 0b00000000_00000000_0000_00_00_00000000 = .ok .sysNop ∧
    decode 0b00000000_00000000_0000_00_00_00000001 = .ok .sysReset := by decide

theorem test_decode_bs :
    decode 0b00000000_00000000_0000_00_01_00010000 = .ok (.bsClr 1) ∧
    decode 0b00000000_00000000_0000_00_10_00010001 = .ok (.bsLd 2) ∧
    decode 0b00000000_00000000_0000_00_11_00010010 = .ok (.bsSt 3) ∧
    decode 0b00000000_10000001_0000_00_10_00010011 = .ok (.bsPushf 2 129) ∧
    decode 0b00000000_00000000_0000_00_00_00010100 = .ok (.bsShr 0) ∧
    decode 0b00000000_00000000_0000_00_01_00010101 = .ok (.bsShl 1) ∧
    decode 0b00000000_00000000_0000_11_01_00010110 = .ok (.bsCat 1 3) ∧
    decode 0b00000000_00000000_0000_10_11_00010111 = .ok (.bsStw 3 2) ∧
    decode 0b00000000_00000000_0000_01_10_00011000 = .ok (.bsEq 2 1) := by decide

theorem test_decode_enc :
    decode 0b00000000_00000000_0000_00_00_00100000 = .ok .encCount ∧
    decode 0b00000000_00000000_0000_00_00_00100001 = .ok .encTree ∧
    decode 0b00000000_00000000_0000_00_00_00100010 = .ok .encTable ∧
    decode 0b00000000_00000000_0000_00_00_00100011 = .ok .encHdr ∧
    decode 0b00000000_00000000_0000_00_00_00100100 = .ok .encPack ∧
    decode 0b00000000_00000000_0000_00_00_00101111 = .ok .encAll := by decide

theorem test_decode_dec :
    decode 0b00000000_00000000_0000_00_00_00110000 = .ok .decHdr ∧
    decode 0b00000000_00000000_0000_00_00_00110001 = .ok .decLoad ∧
    decode 0b00000000_00000000_0000_00_00_00110010 = .ok .decStep ∧
    decode 0b00000000_00000000_0000_00_00_00110011 = .ok .decRun ∧
    decode 0b00000000_00000000_0000_00_00_00111111 = .ok .decAll := by decide

/-- Y-3 to Y-8: reserved encodings do not fall through to a neighbour. -/
theorem test_decode_illegal :
    decode 0x00000002 = .error .unassignedOpcode ∧ decode 0x00010010 = .error .mustBeZeroBitSet ∧
    decode 0x00001000 = .error .mustBeZeroBitSet ∧ decode 0x00000101 = .error .mustBeZeroBitSet ∧
    decode 0x01000000 = .error .mustBeZeroBitSet ∧ decode 0x00000413 = .error .mustBeZeroBitSet := by decide

/-- The host's numbering of a table row, and no second word. -/
theorem test_decodeTableWord :
    decodeTableWord 32 0x00010213 = some (.bsPushf 2 1) ∧ decodeTableWord 32 0x00000101 = none ∧
    decodeTableWord 40 0x0100000000 = none := by decide

/-- `withFetchWord` makes the very next step run the word. -/
theorem test_withFetchWord :
    (nextOf (step (State.reset.withFetchWord 32 0x00010213))).map (·.bsReg 2) = some (bits [1]) := by decide +kernel

/-! ## System commands and dispatch -/

/-- Y-1. -/
theorem test_sysNop : nextOf (exec .sysNop (withInput [1])) = some (withInput [1]) := by decide +kernel

/-- Y-2: everything at its reset value but the buffer. -/
theorem test_sysReset :
    nextOf (exec .sysReset { withInput [0x61] with tflag := true, blen := 5, cw := tableAB, err := .noTree }) =
      some { State.reset with ibuf := [(0, 0x61)] } := by decide +kernel

/-- Y-3. -/
theorem test_illegal_command :
    (nextOf (step { State.reset with script := [commandWrite 2] })).map (fun t => (t.err, t.errinfo, t.statusWord)) =
      some (.illegalCommand, 2, 1) := by decide +kernel

/-- Y-12: no second fault on a faulted core. -/
theorem test_hold_off :
    (nextOf (step { faulted with script := [commandWrite 2] })).map (fun t => (t.err, t.errinfo)) =
      some (.decodeExhausted, 2) := by decide +kernel

/-! ## BitSequence commands -/

/-- B-1. -/
theorem test_bsClr : (nextOf (exec (.bsClr 1) (withBs [] (bits [1, 0, 1, 1])))).map (·.bsReg 1) = some [] := by
  decide +kernel

/-- B-2. -/
theorem test_bsLd :
    (nextOf (exec (.bsLd 2) { withInput [0xAB, 0xCD] with blen := 11 })).map (·.bsReg 2) =
      some (bits [1, 0, 1, 0, 1, 0, 1, 1, 1, 1, 0]) := by decide +kernel

/-- B-4. -/
theorem test_bsLd_beyond_input :
    (nextOf (exec (.bsLd 0) { withInput [0xFF] with blen := 9 })).map (fun t => (t.err, t.errinfo, t.bsReg 0)) =
      some (.capacityExceeded, 4, []) := by decide +kernel

/-- B-6. -/
theorem test_bsSt :
    (nextOf (exec (.bsSt 0) (withBs (bits [1, 0, 1, 1, 1]) []))).map (fun t => (output t, t.blen)) =
      some ([some 0xB8], 5) := by decide +kernel

/-- B-10. -/
theorem test_bsPushf :
    (nextOf (exec (.bsPushf 0 0) (withBs (bits [1]) []))).map (·.bsReg 0) = some (bits [0, 1]) := by decide +kernel

/-- B-11. -/
theorem test_bsPushf_bad_bit :
    (nextOf (exec (.bsPushf 0 2) (withBs (bits [1]) []))).map (fun t => (t.err, t.errinfo, t.bsReg 0)) =
      some (.invalidBitValue, 2, bits [1]) := by decide +kernel

/-- B-14. -/
theorem test_bsShr :
    (nextOf (exec (.bsShr 0) (withBs (bits [1, 1, 1, 1, 1, 1, 1, 1]) []))).map (fun t => backingBytes (t.bsReg 0)) =
      some [0x7F, 0x80] := by decide +kernel

/-- B-18: the spare byte is dropped. -/
theorem test_bsShl :
    (nextOf (exec (.bsShl 0) (withBs (bits [0, 1, 1, 1, 1, 1, 1, 1, 1]) []))).map
      (fun t => backingBytes (t.bsReg 0)) = some [0xFF] := by decide +kernel

/-- B-20. -/
theorem test_bsCat :
    (nextOf (exec (.bsCat 0 1) (withBs (bits [1, 0, 1]) (bits [1, 1, 0, 0, 1, 1, 1, 1, 0, 1])))).map
      (fun t => (t.bsReg 0, backingBytes (t.bsReg 0))) =
      some (bits [1, 0, 1, 1, 1, 0, 0, 1, 1, 1, 1, 0, 1], [0xB9, 0xE8]) := by decide +kernel

/-- B-22: `rs = rd` doubles. -/
theorem test_bsCat_doubles :
    (nextOf (exec (.bsCat 0 0) (withBs (bits [1, 0, 1, 1, 0]) []))).map (·.bsReg 0) =
      some (bits [1, 0, 1, 1, 0, 1, 0, 1, 1, 0]) := by decide +kernel

/-- B-25, B-26: the order of the operands. -/
theorem test_bsStw :
    (nextOf (exec (.bsStw 1 0) (withBs (bits [1, 0]) (bits [1, 0, 0])))).map (·.tflag) = some true ∧
    (nextOf (exec (.bsStw 0 1) (withBs (bits [1, 0]) (bits [1, 0, 0])))).map (·.tflag) = some false := by
  decide +kernel

/-- B-24: same backing byte, other length. -/
theorem test_bsEq :
    (nextOf (exec (.bsEq 0 1) (withBs (bits [1, 0]) (bits [1, 0, 0])))).map (·.tflag) = some false ∧
    (nextOf (exec (.bsEq 0 1) (withBs (bits [1, 0]) (bits [1, 0])))).map (·.tflag) = some true := by decide +kernel

/-- R85's worked example of the byte-level slow path: `A0 OR 19 = B9`. -/
theorem test_byteLevel_concat :
    ByteSeq.concat ⟨3, [0xA0]⟩ ⟨10, [0xCF, 0x40]⟩ = ⟨13, [0xB9, 0xE8]⟩ := by decide +kernel

/-! ## Encoder commands -/

/-- E-1, shortened to the input of S-1. -/
theorem test_encCount :
    (nextOf (exec .encCount (withInput [0x61, 0x61, 0x61, 0x62]))).map
      (fun t => (count t.freq 0x61, count t.freq 0x62, count t.freq 0x63)) = some (3, 1, 0) := by decide +kernel

/-- S-1: arena and `TREEINFO`. -/
theorem test_encTree :
    (nextOf (exec .encTree { State.reset with freq := freqAB })).map (fun t => (t.nodes, t.treeInfo)) =
      some (nodesAB, 0x00030002) := by decide +kernel

/-- E-3: a leaf pops before an Internal of the same weight. -/
theorem test_encTree_tie :
    (nextOf (exec .encTree { State.reset with freq := countBytes [0x61, 0x62, 0x63, 0x63] })).map
      (fun t => (nodeWord (nodeAt t.nodes 3), nodeWord (nodeAt t.nodes 4))) = some (0x80000001, 0x80000403) := by
  decide +kernel

/-- S-1. -/
theorem test_encTable :
    (nextOf (exec .encTable { State.reset with nodes := nodesAB, root := 2 })).map (·.cw) = some tableAB := by
  decide +kernel

/-- S-1. -/
theorem test_encHdr :
    (nextOf (exec .encHdr { State.reset with cw := tableAB })).map (fun t => (output t, t.hlen)) =
      some ([0, 0, 0, 6, 0x61, 1, 0x80, 0x62, 1, 0].map some, 10) := by decide +kernel

/-- S-1. -/
theorem test_encPack :
    (nextOf (exec .encPack { withInput [0x61, 0x61, 0x61, 0x62] with cw := tableAB })).map (·.pay) =
      some (bits [1, 1, 1, 0]) := by decide +kernel

/-- E-7g: the first byte without a codeword, by its index. -/
theorem test_encPack_unknown :
    (nextOf (exec .encPack { withInput [0x61, 0x62, 0x63, 0x61] with cw := tableAB, pay := bits [1] })).map
      (fun t => (t.err, t.errinfo, t.pay)) = some (.unknownSymbol, 2, bits [1]) := by decide +kernel

/-- S-2 (b): one distinct byte, whose partner wraps to `00`. -/
theorem test_encAll_single_symbol :
    (nextOf (exec .encAll (withInput [0xFF, 0xFF, 0xFF]))).map (fun t => (output t, t.pay, t.err)) =
      some ([0, 0, 0, 6, 0, 1, 0, 0xFF, 1, 0x80].map some, bits [1, 1, 1], .none) := by decide +kernel

/-- E-7b: the earlier parts of a composite command are kept, the fault stops it. -/
theorem test_encAll_empty :
    (nextOf (exec .encAll State.reset)).map (fun t => (t.err, t.olen, t.pay)) = some (.emptyInput, 0, []) := by
  decide +kernel

/-! ## Decoder commands -/

/-- D-1. -/
theorem test_decHdr :
    (nextOf (exec .decHdr (withInput artifactAB))).map (fun t => (t.cw, t.hlen)) = some (tableAB, 10) := by
  decide +kernel

/-- D-13e: an entry that reaches beyond the declared extent. -/
theorem test_decHdr_broken :
    (nextOf (exec .decHdr (withInput [0, 0, 0, 5, 0x41, 1, 0x80, 0x42, 9, 0xFF, 0xFF]))).map
      (fun t => (t.err, t.errinfo, t.hlen)) = some (.malformedHeader, 7, 0) := by decide +kernel

/-- D-2. -/
theorem test_decLoad :
    (nextOf (exec .decLoad { withInput artifactAB with hlen := 10 })).map (fun t => (t.pay, t.statusWord)) =
      some (bits [1, 1, 1, 0, 0, 0, 0, 0], 4) := by decide +kernel

/-- D-3, step 1. -/
theorem test_decStep :
    (nextOf (exec .decStep { State.reset with dstate := .scanning, cw := tableAB, pay := bits [1, 1, 0] })).map
      (fun t => (output t, t.pay, t.dstate)) = some ([some 0x61], bits [1, 0], .scanning) := by decide +kernel

/-- D-11, the last step: no candidate, a cursor that is not empty. -/
theorem test_decStep_exhausted :
    (nextOf (exec .decStep { State.reset with
      dstate := .scanning, cw := Table.empty.put 0x41 (bits [1, 0]), pay := bits [1, 1, 1] })).map
      (fun t => (t.err, t.errinfo, t.dstate, t.pay)) =
      some (.decodeExhausted, 3, .exhausted, bits [1, 1, 1]) := by decide +kernel

/-- D-19. -/
theorem test_decRun_empty :
    (nextOf (exec .decRun State.reset)).map (fun t => (t.statusWord, t.olen, t.err)) = some (0, 0, .none) := by
  decide +kernel

/-- D-4, with `DEC.RUN` after `DEC.HDR`'s results. -/
theorem test_decRun :
    (nextOf (exec .decRun { withInput artifactAB with cw := tableAB, hlen := 10, limitEn := true, symlimit := 4 })).map
      (fun t => (output t, t.pay, t.dstate)) =
      some ([0x61, 0x61, 0x61, 0x62].map some, bits [0, 0, 0, 0], .exhausted) := by decide +kernel

/-- D-4. -/
theorem test_decAll :
    (nextOf (exec .decAll { withInput artifactAB with limitEn := true, symlimit := 4 })).map
      (fun t => (output t, t.hlen, t.pay, t.statusWord)) =
      some ([0x61, 0x61, 0x61, 0x62].map some, 10, bits [0, 0, 0, 0], 0) := by decide +kernel

/-- D-16: the longest candidate, then the lowest symbol. -/
theorem test_decAll_not_prefixFree :
    (nextOf (exec .decAll (withInput
      [0, 0, 0, 12, 0x41, 1, 0x80, 0x42, 2, 0x80, 0x43, 2, 0x80, 0x44, 1, 0, 0xA0]))).map output =
      some ([0x42, 0x42, 0x44, 0x44, 0x44, 0x44].map some) := by decide +kernel

/-! ## The host's accesses -/

/-- S-1: two view words; R44: `REG[12]` is refused. -/
theorem test_host_reads :
    ({ State.reset with nodes := nodesAB } : State).hostRead .node 1 = .value (.word 0x0187FFFF) ∧
    ({ State.reset with cw := tableAB } : State).hostRead .cwdata (32 * 0x61) = .value (.byte 0x80) ∧
    State.reset.hostRead .reg 11 = .value (.word 0x000001FF) ∧ State.reset.hostRead .reg 12 = .refused := by
  decide +kernel

/-! ## Witnesses: for every statement with hypotheses, values that meet all of them, clause by clause -/

/-- A core whose host is about to write the word `w` to `CMD`. -/
def about (w : Word) (s : State) : State := { s with script := [commandWrite w] }

/-- A core whose host is about to do `a`. -/
def aboutTo (a : HostAction) (s : State) : State := { s with script := [a] }

/-- A reset core of the smaller configuration. -/
def small : State := State.powerOn smallCfg

/-- A core with the tree of S-1. -/
def treeAB : State := { State.reset with freq := freqAB, nodes := nodesAB, root := 2 }

/-- A core in the middle of decoding S-1, with a tree, a table, a cursor and one byte of output. -/
def decodingAB : State :=
  { withInput artifactAB with
    freq := freqAB, nodes := nodesAB, root := 2, cw := tableAB, pay := bits [1, 1, 0, 0, 0, 0, 0], hlen := 10,
    olen := 1, obuf := [(0, 0x61)], dstate := .scanning, tflag := true, bs := #v[bits [1], [], bits [0, 1], []] }

theorem witness_DecodeOfEncodeGivesTheCommand :
    (Instr.bsPushf 3 255).wellFormed = true ∧ (Instr.bsCat 3 3).wellFormed = true ∧
    Instr.decAll.wellFormed = true := by decide

theorem witness_EncodeOfDecodeGivesTheWord : decode 0x00FF0313 = .ok (.bsPushf 3 255) := by decide

theorem witness_StepRunsTheDecodedCommand :
    ((about 0x110 State.reset).script = commandWrite 0x110 :: [] ∧ decode 0x110 = .ok (.bsClr 1) ∧
      (about 0x110 State.reset).err = .none) ∧
    ((about 1 faulted).script = commandWrite 1 :: [] ∧ decode 1 = .ok .sysReset ∧ (about 1 faulted).err ≠ .none) := by
  decide +kernel

theorem witness_CommandWordsAreTakenInTheStatedOrder :
    (about 1 faulted).script = commandWrite 1 :: [] ∧ decode 1 = .ok .sysReset ∧
    (about 0x101 faulted).script = commandWrite 0x101 :: [] ∧ decode 0x101 ≠ .ok .sysReset ∧ faulted.err ≠ .none ∧
    (about 0x101 State.reset).script = commandWrite 0x101 :: [] ∧ decode 0x101 = .error .mustBeZeroBitSet ∧
    (about 0 State.reset).script = commandWrite 0 :: [] ∧ decode 0 = .ok .sysNop ∧ State.reset.err = .none := by
  decide +kernel

theorem witness_CommandWordsAreTakenInTheStatedOrder_read :
    Completes (step (aboutTo (.read .reg 11) decodingAB)) ∧
    (∀ w, (aboutTo (.read .reg 11) decodingAB).script.head? ≠ some (commandWrite w)) ∧
    (aboutTo (.read .reg 11) decodingAB).script.head? ≠ some .powerOnReset :=
  ⟨completes_of _ (by decide +kernel), fun _ h => (by cases h), by decide +kernel⟩

theorem witness_NopChangesNothing : (about 0 faulted).script = commandWrite 0 :: [] := by decide +kernel

theorem witness_ResetLeavesTheStatedValues :
    (aboutTo .powerOnReset decodingAB).script = .powerOnReset :: [] := by decide +kernel

theorem witness_FaultsAreStickyUntilReset :
    faulted.err ≠ .none ∧ Completes (step (aboutTo (.write .ibuf 0 (.byte 1)) faulted)) ∧
    Completes (step (aboutTo .powerOnReset faulted)) ∧ Completes (step (about 1 faulted)) :=
  ⟨by decide, completes_of _ (by decide +kernel), completes_of _ (by decide +kernel),
   completes_of _ (by decide +kernel)⟩

theorem witness_ClearAndShiftLeft :
    (withBs [] (bits [1])).bsReg 0 = [] ∧ (withBs [] (bits [1])).bsReg 1 = true :: [] := by decide +kernel

theorem witness_PushFrontAndShiftRight :
    ((small.setBs 0 (List.replicate 255 true)).bsReg 0).length + 1 ≤ small.cfg.bsCap ∧ 1 < 2 ∧
    small.cfg.bsCap < ((small.setBs 0 (List.replicate 256 true)).bsReg 0).length + 1 := by decide +kernel

theorem witness_ConcatenationAppends :
    ((small.setBs 0 (List.replicate 128 true)).bsReg 0).length +
      ((small.setBs 0 (List.replicate 128 true)).bsReg 0).length ≤ small.cfg.bsCap ∧
    small.cfg.bsCap < ((small.setBs 0 (List.replicate 129 true)).bsReg 0).length +
      ((small.setBs 0 (List.replicate 129 true)).bsReg 0).length := by decide +kernel

/-- The clauses of `LoadTakesBitsMostSignificantFirst`: `BLEN` one too large; `ILEN` one too large; one byte too
few; just enough bytes; no bit at all. -/
theorem witness_LoadTakesBitsMostSignificantFirst :
    (∃ s : State, s.cfg = smallCfg ∧ s.cfg.bsCap < s.blen.toNat ∧ s.blen = 257) ∧
    (∃ s : State, s.cfg = smallCfg ∧ s.blen.toNat ≤ s.cfg.bsCap ∧ s.cfg.ibufCap < s.ilen.toNat ∧ s.ilen = 9) ∧
    (∃ s : State, s.blen.toNat ≤ s.cfg.bsCap ∧ s.ilen.toNat < (s.blen.toNat + 7) / 8 ∧ s.blen = 9) ∧
    (∃ s : State, s.blen.toNat ≤ s.cfg.bsCap ∧ s.ilen.toNat ≤ s.cfg.ibufCap ∧
      (s.blen.toNat + 7) / 8 ≤ s.ilen.toNat ∧ s.blen = 9) ∧
    ∃ s : State, s.blen.toNat ≤ s.cfg.bsCap ∧ s.ilen.toNat ≤ s.cfg.ibufCap ∧
      (s.blen.toNat + 7) / 8 ≤ s.ilen.toNat ∧ s.blen = 0 :=
  ⟨⟨{ small with blen := 257 }, by decide +kernel⟩, ⟨{ small with blen := 256, ilen := 9 }, by decide +kernel⟩,
   ⟨{ State.reset with blen := 9, ilen := 1 }, by decide +kernel⟩,
   ⟨{ State.reset with blen := 9, ilen := 2 }, by decide +kernel⟩, ⟨State.reset, by decide +kernel⟩⟩

theorem witness_StoreWritesTheBackingBytes :
    small.cfg.WellFormed ∧ ((small.setBs 0 (List.replicate 256 true)).bsReg 0).length ≤ small.cfg.bsCap := by
  decide +kernel

theorem witness_BitSequenceLaws : bits [1] ≠ [] ∧ pushFrontBit [] 1 = some (bits [1]) := by decide +kernel

theorem witness_CountCountsEveryByte :
    ({ small with ilen := 9 } : State).cfg.ibufCap < ({ small with ilen := 9 } : State).ilen.toNat ∧
    ({ small with ilen := 8 } : State).ilen.toNat ≤ ({ small with ilen := 8 } : State).cfg.ibufCap := by
  decide +kernel

theorem witness_EmptyInputHasNoTree : ∀ x, count State.reset.freq x = 0 := count_fill

theorem witness_TreeBuilderBuildsOneTree :
    ({ State.reset with freq := freqAB } : State).CountsFit ∧ ∃ x, count freqAB x ≠ 0 :=
  ⟨by decide +kernel, 0x61, by decide +kernel⟩

/-- Two distinct bytes, and one distinct byte whose partner wraps. -/
theorem witness_LeavesAreSeededInAscendingOrder :
    (({ State.reset with freq := freqAB } : State).CountsFit ∧
      [0x61, 0x62].Pairwise (fun x y : Byte => x.toNat < y.toNat) ∧
      (∀ x : Byte, x ∈ [0x61, 0x62] ↔ count freqAB x ≠ 0)) ∧
    (({ State.reset with freq := countBytes [0xFF] } : State).CountsFit ∧
      [0xFF].Pairwise (fun x y : Byte => x.toNat < y.toNat) ∧
      (∀ x : Byte, x ∈ [0xFF] ↔ count (countBytes [0xFF]) x ≠ 0)) := by
  have h1 : distinctBytes freqAB = [0x61, 0x62] := by decide +kernel
  have h2 : distinctBytes (countBytes [0xFF]) = [0xFF] := by decide +kernel
  refine ⟨⟨by decide +kernel, by decide, fun x => ?_⟩, ⟨by decide +kernel, by decide, fun x => ?_⟩⟩
  · have h := mem_distinctBytes freqAB x
    rwa [h1] at h
  · have h := mem_distinctBytes (countBytes [0xFF]) x
    rwa [h2] at h

theorem witness_EveryJoinTakesTheTwoLightest :
    ({ State.reset with freq := freqAB } : State).CountsFit ∧ (∃ x, count freqAB x ≠ 0) ∧
    2 < (buildTree freqAB).length ∧ (nodeAt (buildTree freqAB) 2).kind = .internal :=
  ⟨by decide +kernel, ⟨0x61, by decide +kernel⟩, by decide +kernel, by decide +kernel⟩

theorem witness_CodewordsAreThePathsOfTheTree :
    State.reset.root = 0x1FF ∧ treeAB.root ≠ 0x1FF ∧ TreeShape treeAB.nodes treeAB.root := by decide +kernel

theorem witness_DerivedTableIsPrefixFree :
    treeAB.root ≠ 0x1FF ∧ TreeShape treeAB.nodes treeAB.root ∧ Completes (exec .encTable treeAB) :=
  ⟨by decide +kernel, by decide +kernel, completes_of _ (by decide +kernel)⟩

theorem witness_HeaderIsWrittenByteForByte :
    tableAB.Fits ∧ (Table.empty.put 0xFF (List.replicate 255 true)).Fits :=
  ⟨tableAB_fits, fits_of_entries _ (by decide +kernel)⟩

theorem witness_OverlongCodewordsAreRejected :
    let T := (Table.empty.put 0x40 (List.replicate 255 true)).put 0x41 (List.replicate 256 true)
    T.slot 0x41 = some (List.replicate 256 true) ∧ 255 < (List.replicate 256 true).length ∧
    ∀ (y : Byte) d, y.toNat < (0x41 : Byte).toNat → T.slot y = some d → d.length ≤ 255 := by
  refine ⟨by decide +kernel, by decide +kernel, fun y d hy hd => ?_⟩
  have hne : y ≠ 0x41 := by rintro rfl; exact absurd hy (by decide)
  rw [Table.slot_put, if_neg hne, Table.slot_put] at hd
  split at hd
  · cases hd; exact Nat.le_of_eq List.length_replicate
  · simp at hd

theorem witness_HeaderRoundTrips :
    ∃ s t u : State, s.cw.Fits ∧ exec .encHdr s = .next t ∧ t.hlen.toNat ≤ u.ilen.toNat ∧
      u.ilen.toNat ≤ u.cfg.ibufCap ∧ ∀ j < t.hlen.toNat, u.ibuf.read? j = t.obuf.read? j :=
  ⟨{ State.reset with cw := tableAB }, stateOf (exec .encHdr { State.reset with cw := tableAB }),
   withInput artifactAB, tableAB_fits, next_stateOf _ (by decide +kernel), by decide +kernel, by decide +kernel,
   by decide +kernel⟩

/-- `ILEN` too large; all bytes packed; a byte without a codeword at index 2; a codeword that does not fit. -/
theorem witness_PackerConcatenatesCodewords :
    (∃ s : State, s.cfg.ibufCap < s.ilen.toNat) ∧
    (∃ s : State, s.ilen.toNat ≤ s.cfg.ibufCap ∧ s.cw.covers s.input ∧
      (packed s.cw s.input).length ≤ s.cfg.payCap ∧ s.input = [0x61, 0x62]) ∧
    (∃ s : State, s.ilen.toNat ≤ s.cfg.ibufCap ∧ s.input[2]? = some 0x63 ∧ s.cw.covers (s.input.take 2) ∧
      (packed s.cw (s.input.take 2)).length ≤ s.cfg.payCap ∧ s.cw.slot 0x63 = none) ∧
    ∃ s : State, s.ilen.toNat ≤ s.cfg.ibufCap ∧ s.input[2]? = some 0x61 ∧ s.cw.covers (s.input.take 2) ∧
      (packed s.cw (s.input.take 2)).length ≤ s.cfg.payCap ∧ s.cw.slot 0x61 = some (List.replicate 8 true) ∧
      s.cfg.payCap < (packed s.cw (s.input.take 2)).length + (List.replicate 8 true).length :=
  ⟨⟨{ small with ilen := 9 }, by decide +kernel⟩,
   ⟨{ withInput [0x61, 0x62] with cw := tableAB }, by decide +kernel⟩,
   ⟨{ withInput [0x61, 0x62, 0x63] with cw := tableAB }, by decide +kernel⟩,
   ⟨{ withInput [0x61, 0x61, 0x61] with cfg := smallCfg, cw := Table.empty.put 0x61 (List.replicate 8 true) },
    by decide +kernel⟩⟩

theorem witness_EncodeAllEncodesTheInput :
    let s := withInput [0x61, 0x61, 0x61, 0x62]
    s.cfg.WellFormed ∧ s.err = .none ∧ s.HoldsInput [0x61, 0x61, 0x61, 0x62] ∧
    deriveTable (buildTree (countBytes [0x61, 0x61, 0x61, 0x62]))
      (BitVec.ofNat 9 ((buildTree (countBytes [0x61, 0x61, 0x61, 0x62])).length - 1)) = some tableAB ∧
    (packed tableAB [0x61, 0x61, 0x61, 0x62]).length ≤ s.cfg.payCap := by decide +kernel

/-- Entries with a codeword of exactly 8 bits, a repeated symbol with padding that is not 0, an empty codeword. -/
theorem witness_HeaderOfFramedEntriesIsParsed :
    let es : List RawEntry := [⟨0x41, 8, [0xA5]⟩, ⟨0x41, 2, [0xFF]⟩, ⟨0x42, 0, []⟩]
    let s := withInput [0, 0, 0, 8, 0x41, 8, 0xA5, 0x41, 2, 0xFF, 0x42, 0]
    (∀ e ∈ es, e.sized) ∧ s.ilen.toNat ≤ s.cfg.ibufCap ∧ 4 + (es.flatMap RawEntry.bytes).length ≤ s.ilen.toNat ∧
    beValue (s.ibufBytes 0 4) = (es.flatMap RawEntry.bytes).length ∧
    s.ibufBytes 4 (es.flatMap RawEntry.bytes).length = es.flatMap RawEntry.bytes := by decide +kernel

/-- D-13a, D-13c, D-13d, D-13e, and an input longer than the buffer. -/
theorem witness_BrokenHeadersAreRejected :
    (∃ s : State, s.cfg.ibufCap < s.ilen.toNat) ∧
    (∃ s : State, s.ilen.toNat ≤ s.cfg.ibufCap ∧ s.ilen.toNat < 4) ∧
    (∃ s : State, s.ilen.toNat ≤ s.cfg.ibufCap ∧ 4 ≤ s.ilen.toNat ∧
      s.ilen.toNat < 4 + beValue (s.ibufBytes 0 4)) ∧
    (∃ s : State, s.ilen.toNat ≤ s.cfg.ibufCap ∧ RawEntry.sized ⟨0x41, 1, [0x80]⟩ ∧
      beValue (s.ibufBytes 0 4) = 4 ∧ 4 + 4 ≤ s.ilen.toNat ∧ s.ibufBytes 4 3 = RawEntry.bytes ⟨0x41, 1, [0x80]⟩ ∧
      4 < 3 + 2) ∧
    ∃ s : State, s.ilen.toNat ≤ s.cfg.ibufCap ∧ beValue (s.ibufBytes 0 4) = 5 ∧ 4 + 5 ≤ s.ilen.toNat ∧
      s.ibufBytes 4 3 = RawEntry.bytes ⟨0x41, 1, [0x80]⟩ ∧ ¬ 5 < 3 + 2 ∧
      5 < 3 + 2 + ((s.ibufByte (4 + 3 + 1)).toNat + 7) / 8 :=
  ⟨⟨{ small with ilen := 9 }, by decide +kernel⟩, ⟨withInput [0, 0, 0], by decide +kernel⟩,
   ⟨withInput [0, 0, 0, 5, 0x41, 1, 0x80], by decide +kernel⟩,
   ⟨withInput [0, 0, 0, 4, 0x41, 1, 0x80, 0x42], by decide +kernel⟩,
   ⟨withInput [0, 0, 0, 5, 0x41, 1, 0x80, 0x42, 9, 0xFF, 0xFF], by decide +kernel⟩⟩

/-- The four ways of `DEC.LOAD`, the last with a full payload and with an empty one. -/
theorem witness_LoadFillsTheCursor :
    (∃ s : State, s.cfg.ibufCap < s.ilen.toNat) ∧
    (∃ s : State, s.ilen.toNat ≤ s.cfg.ibufCap ∧ s.ilen.toNat < s.hlen.toNat) ∧
    (∃ s : State, s.ilen.toNat ≤ s.cfg.ibufCap ∧ s.hlen.toNat ≤ s.ilen.toNat ∧
      s.cfg.payCap < 8 * (s.ilen.toNat - s.hlen.toNat)) ∧
    (∃ s : State, s.ilen.toNat ≤ s.cfg.ibufCap ∧ s.hlen.toNat ≤ s.ilen.toNat ∧
      8 * (s.ilen.toNat - s.hlen.toNat) = s.cfg.payCap) ∧
    ∃ s : State, s.ilen.toNat ≤ s.cfg.ibufCap ∧ s.hlen = s.ilen ∧
      8 * (s.ilen.toNat - s.hlen.toNat) ≤ s.cfg.payCap :=
  ⟨⟨{ small with ilen := 9 }, by decide +kernel⟩, ⟨{ small with ilen := 2, hlen := 3 }, by decide +kernel⟩,
   ⟨{ small with ilen := 3 }, by decide +kernel⟩, ⟨{ small with ilen := 3, hlen := 1 }, by decide +kernel⟩,
   ⟨{ small with ilen := 3, hlen := 3 }, by decide +kernel⟩⟩

theorem witness_MatchIsTheLongestThenTheLowest :
    matchSymbol (bits [1, 0]) tableAB = some (0x61, bits [1]) ∧ matchSymbol [] tableAB = none := by decide +kernel

/-- Exhausted; the limit reached exactly; an empty cursor; a cursor without a match; a full `OBUF`; room for one
more symbol. -/
theorem witness_DecoderStepFollowsItsTransitions :
    State.reset.dstate ≠ .scanning ∧
    (∃ s : State, s.dstate = .scanning ∧ s.limitEn = true ∧ s.symlimit.toNat = s.olen.toNat) ∧
    (∃ s : State, s.dstate = .scanning ∧ ¬ (s.limitEn = true ∧ s.symlimit.toNat ≤ s.olen.toNat) ∧
      matchSymbol s.pay s.cw = none ∧ s.pay = []) ∧
    (∃ s : State, s.dstate = .scanning ∧ ¬ (s.limitEn = true ∧ s.symlimit.toNat ≤ s.olen.toNat) ∧
      matchSymbol s.pay s.cw = none ∧ s.pay ≠ []) ∧
    (∃ s : State, s.dstate = .scanning ∧ ¬ (s.limitEn = true ∧ s.symlimit.toNat ≤ s.olen.toNat) ∧
      matchSymbol s.pay s.cw = some (0x61, bits [1]) ∧ s.cfg.obufCap = s.olen.toNat) ∧
    ∃ s : State, s.dstate = .scanning ∧ ¬ (s.limitEn = true ∧ s.symlimit.toNat ≤ s.olen.toNat) ∧
      matchSymbol s.pay s.cw = some (0x61, bits [1]) ∧ s.olen.toNat + 1 = s.cfg.obufCap ∧ s.cfg.WellFormed :=
  ⟨by decide, ⟨{ decodingAB with limitEn := true, symlimit := 1 }, by decide +kernel⟩,
   ⟨{ decodingAB with pay := [] }, by decide +kernel⟩, ⟨{ decodingAB with cw := Table.empty }, by decide +kernel⟩,
   ⟨{ decodingAB with cfg := smallCfg, olen := 8708 }, by decide +kernel⟩,
   ⟨{ decodingAB with cfg := smallCfg, olen := 8707 }, by decide +kernel⟩⟩

theorem witness_DecodeRunIsLoadAndBoundedSteps : (withInput artifactAB).err = .none := by decide +kernel

/-- The input of a decode with the table of S-1 in place. -/
def runAB (limited : Bool) : State :=
  { withInput artifactAB with cw := tableAB, hlen := 10, limitEn := limited, symlimit := 4 }

theorem witness_DecodeRunRestoresThePackedBytes :
    let s := runAB true
    let d : List Byte := [0x61, 0x61, 0x61, 0x62]
    s.cfg.WellFormed ∧ s.err = .none ∧ s.cw.PrefixFree ∧ s.cw.covers d ∧ s.limitEn = true ∧
    s.symlimit.toNat = d.length ∧ d.length ≤ s.cfg.obufCap ∧ s.ilen.toNat ≤ s.cfg.ibufCap ∧
    s.hlen.toNat ≤ s.ilen.toNat ∧ 8 * (s.ilen.toNat - s.hlen.toNat) ≤ s.cfg.payCap ∧
    mkbits (s.ibufBytes s.hlen.toNat (s.ilen.toNat - s.hlen.toNat)) (8 * (s.ilen.toNat - s.hlen.toNat)) =
      packed s.cw d ++ bits [0, 0, 0, 0] :=
  ⟨by decide +kernel, by decide +kernel, tableAB_prefixFree, by decide +kernel⟩

theorem witness_DecodeRunWithoutLimitDecodesPadding :
    let s := runAB false
    let d : List Byte := [0x61, 0x61, 0x61, 0x62]
    s.cfg.WellFormed ∧ s.err = .none ∧ s.cw.PrefixFree ∧ s.cw.covers d ∧ s.limitEn = false ∧
    d.length + (bits [0, 0, 0, 0]).length ≤ s.cfg.obufCap ∧ (bits [0, 0, 0, 0]).length ≤ 7 ∧
    s.ilen.toNat ≤ s.cfg.ibufCap ∧ s.hlen.toNat ≤ s.ilen.toNat ∧
    8 * (s.ilen.toNat - s.hlen.toNat) ≤ s.cfg.payCap ∧
    mkbits (s.ibufBytes s.hlen.toNat (s.ilen.toNat - s.hlen.toNat)) (8 * (s.ilen.toNat - s.hlen.toNat)) =
      packed s.cw d ++ bits [0, 0, 0, 0] :=
  ⟨by decide +kernel, by decide +kernel, tableAB_prefixFree, by decide +kernel⟩

theorem witness_DecodeAllDecodesAnArtifact :
    let s : State := { withInput artifactAB with limitEn := true, symlimit := 4 }
    let d : List Byte := [0x61, 0x61, 0x61, 0x62]
    s.cfg.WellFormed ∧ s.err = .none ∧ tableAB.PrefixFree ∧ tableAB.Fits ∧ tableAB.covers d ∧
    s.HoldsInput (headerBytes tableAB ++ [0xE0]) ∧
    mkbits [0xE0] (8 * [(0xE0 : Byte)].length) = packed tableAB d ++ bits [0, 0, 0, 0] ∧
    8 * [(0xE0 : Byte)].length ≤ s.cfg.payCap ∧ s.limitEn = true ∧ s.symlimit.toNat = d.length ∧
    d.length ≤ s.cfg.obufCap :=
  ⟨by decide +kernel, by decide +kernel, tableAB_prefixFree, tableAB_fits, by decide +kernel⟩

theorem witness_EncodeThenDecodeRestoresTheInput :
    ∃ (s t u : State) (d header : List Byte), s.cfg.WellFormed ∧ s.err = .none ∧ s.HoldsInput d ∧ d ≠ [] ∧
      exec .encAll s = .next t ∧ t.err = .none ∧ t.ShowsOutput header ∧ u.cfg.WellFormed ∧ u.err = .none ∧
      u.HoldsInput (header ++ (List.range ((t.pay.length + 7) / 8)).map (byteAt t.pay)) ∧
      8 * ((t.pay.length + 7) / 8) ≤ u.cfg.payCap ∧ d.length ≤ u.cfg.obufCap ∧ u.limitEn = true ∧
      u.symlimit.toNat = d.length :=
  ⟨withInput [0x61, 0x61, 0x61, 0x62], stateOf (exec .encAll (withInput [0x61, 0x61, 0x61, 0x62])),
   { withInput artifactAB with limitEn := true, symlimit := 4 }, [0x61, 0x61, 0x61, 0x62], artifactAB.take 10,
   by decide +kernel, by decide +kernel, by decide +kernel, by decide +kernel,
   next_stateOf _ (by decide +kernel), by decide +kernel⟩

theorem witness_ResetMeetsTheInvariant : smallCfg.WellFormed := by decide

/-- A state in the middle of its work, not a reset one, before a command and before a denied access. -/
theorem decodingAB_inv : decodingAB.Inv := by decide +kernel

theorem witness_EveryStepKeepsTheInvariant :
    (about 0x32 decodingAB).Inv ∧ Completes (step (about 0x32 decodingAB)) :=
  ⟨decodingAB_inv, completes_of _ (by decide +kernel)⟩

theorem witness_EveryCommandHasANextState : decodingAB.Inv ∧ decodingAB.err ≠ .encodingOverflow :=
  ⟨decodingAB_inv, by decide⟩

theorem witness_OnlyDeniedAccessesAreRefused :
    (aboutTo (.read .reg 12) decodingAB).Inv ∧ readAllowed decodingAB.cfg .reg 12 = false ∧
    (aboutTo (.write .obuf 0 (.byte 1)) decodingAB).Inv ∧
    writeAllowed decodingAB.cfg .obuf 0 (.byte 1) = false ∧
    (aboutTo (.read .node 1021) decodingAB).Inv ∧ readAllowed decodingAB.cfg .node 1021 = true :=
  ⟨decodingAB_inv, by decide +kernel, decodingAB_inv, by decide +kernel, decodingAB_inv, by decide +kernel⟩

theorem witness_PackedWordsHoldTheirFields :
    ({ State.reset with nodes := List.replicate 511 Node.resetRecord } : State).nodes.length ≤ 511 ∧
    ∀ c, some (mkbits [] 0) = some c → c.length ≤ 255 :=
  ⟨by decide +kernel, fun c h => by cases h; decide⟩

/-- A value of each space, at an end of its range where there is one. -/
theorem witness_HostReadsShowTheState :
    decodingAB.Shows .reg 0 (.word 0) ∧ decodingAB.Shows .reg 11 (.word 0x00030002) ∧
    decodingAB.Shows .ibuf 10 (.byte 0xE0) ∧ decodingAB.Shows .obuf 0 (.byte 0x61) ∧
    decodingAB.Shows .payb 0 (.byte 0xC0) ∧ decodingAB.Shows .freq 255 (.word 0) ∧
    decodingAB.Shows .node 1021 (.word 0x0003FFFF) ∧ decodingAB.Shows .cwlen 255 (.word 0) ∧
    decodingAB.Shows .cwdata (32 * 0x61) (.byte 0x80) := by
  refine ⟨⟨by decide +kernel, by decide +kernel⟩, ⟨by decide +kernel, by decide +kernel⟩,
    ⟨by decide +kernel, 0xE0, by decide +kernel⟩,
    ⟨by decide +kernel, by decide +kernel, 0x61, by decide +kernel⟩,
    ⟨by decide +kernel, by decide +kernel, 0xC0, by decide +kernel⟩, ⟨0xFF, by decide +kernel⟩,
    ⟨510, by decide +kernel⟩, ⟨0xFF, by decide +kernel⟩,
    ⟨0x61, bits [1], 0, by decide +kernel, by decide +kernel, by decide +kernel, by decide +kernel, 0x80,
      by decide +kernel⟩⟩

/-- The four kinds of UNSPECIFIED read, each at the first such index. -/
theorem witness_UnspecifiedReadsAreFreshDraws :
    Completes (step (aboutTo (.read .obuf 1) decodingAB)) ∧ Completes (step (aboutTo .powerOnReset decodingAB)) ∧
    (readAllowed decodingAB.cfg .obuf 1 = true ∧ decodingAB.olen.toNat ≤ 1) ∧
    (readAllowed decodingAB.cfg .ibuf 11 = true ∧ decodingAB.ibuf.read? 11 = none) ∧
    (readAllowed decodingAB.cfg .payb 1 = true ∧ (decodingAB.pay.length + 7) / 8 ≤ 1) ∧
    (readAllowed decodingAB.cfg .cwdata 3105 = true ∧ 3105 / 32 = (0x61 : Byte).toNat ∧
      ((codeOf decodingAB.cw 0x61).length + 7) / 8 ≤ 3105 % 32) :=
  ⟨completes_of _ (by decide +kernel), completes_of _ (by decide +kernel), by decide +kernel⟩

theorem witness_HostWritesStoreTheirElement :
    (aboutTo (.write .ibuf 7 (.byte 1)) small).script = .write .ibuf 7 (.byte 1) :: [] ∧ 7 < small.cfg.ibufCap ∧
    (aboutTo (.write .reg 4 (.word 1)) faulted).script = .write .reg 4 (.word 1) :: [] := by decide +kernel

theorem witness_FrameOfTheSequenceCommands :
    (∀ i ∈ [Instr.bsClr 0, .bsLd 0, .bsPushf 0 2, .bsShr 0, .bsShl 0, .bsCat 0 2], Completes (exec i decodingAB)) ∧
    (∀ i ∈ [Instr.bsStw 0 2, .bsEq 0 2], Completes (exec i decodingAB)) ∧ Completes (exec (.bsSt 2) decodingAB) := by
  refine ⟨fun i hi => completes_of _ ?_, fun i hi => completes_of _ ?_, completes_of _ (by decide +kernel)⟩
  · revert i; decide +kernel
  · revert i; decide +kernel

theorem witness_FrameOfTheEncoderCommands :
    ∀ i ∈ [Instr.encCount, .encTree, .encTable, .encHdr, .encPack, .encAll], Completes (exec i decodingAB) := by
  refine fun i hi => completes_of _ ?_
  revert i; decide +kernel

theorem witness_FrameOfTheDecoderCommands :
    decodingAB.cfg.WellFormed ∧
    ∀ i ∈ [Instr.decHdr, .decLoad, .decStep, .decRun, .decAll], Completes (exec i decodingAB) := by
  refine ⟨by decide +kernel, fun i hi => completes_of _ ?_⟩
  revert i; decide +kernel

theorem witness_OnlySequenceCommandsTouchTheRegisters :
    Instr.decStep.usesBs = false ∧ Completes (exec .decStep decodingAB) :=
  ⟨by decide, completes_of _ (by decide +kernel)⟩

theorem witness_TheTestFlagIsForTheHostAlone :
    Completes (exec .decStep decodingAB) ∧ Instr.decStep.writesT = false ∧
    Completes (exec (.bsEq 0 1) decodingAB) ∧ (Instr.bsEq 0 1).writesT = true :=
  ⟨completes_of _ (by decide +kernel), by decide, completes_of _ (by decide +kernel), by decide⟩

theorem witness_OnlyTheHostWritesTheInputBuffer :
    Completes (step (about 0x2F decodingAB)) ∧ Completes (step (aboutTo .powerOnReset decodingAB)) ∧
    Completes (step (aboutTo (.write .ibuf 3 (.byte 9)) decodingAB)) :=
  ⟨completes_of _ (by decide +kernel), completes_of _ (by decide +kernel), completes_of _ (by decide +kernel)⟩

end Sys2Proof.Tests
end

/-!
PROOFS. The tree builder (R112 to R116): the invariant of its loop of joins, and the tree that the loop ends with.
-/

namespace Sys2Proof.Machine

/-! ### Arena entries -/

theorem nodeAt_append_left (nodes : List Node) (n : Node) (k : Nat) (h : k < nodes.length) :
    nodeAt (nodes ++ [n]) k = nodeAt nodes k := by
  simp [nodeAt, List.getD_eq_getElem?_getD, List.getElem?_append_left h]

theorem nodeAt_append_last (nodes : List Node) (n : Node) : nodeAt (nodes ++ [n]) nodes.length = n := by
  simp [nodeAt]

theorem nodeAt_mem (nodes : List Node) (k : Nat) (h : k < nodes.length) : nodeAt nodes k ∈ nodes := by
  simp [nodeAt, List.getD_eq_getElem?_getD, h]

theorem children_leaf {n : Node} (h : n.kind = .leaf) : n.children = [] := by
  simp [Node.children, h]

/-- Every child index of an arena is a child index of one of its entries. -/
theorem child_lt_length {nodes : List Node} {c : Nat}
    (hdown : ∀ k < nodes.length, ∀ c ∈ (nodeAt nodes k).children, c < k)
    (hc : c ∈ nodes.flatMap Node.children) : c < nodes.length := by
  obtain ⟨n, hn, hcn⟩ := List.mem_flatMap.mp hc
  obtain ⟨k, hk, rfl⟩ := List.getElem_of_mem hn
  have hat : nodeAt nodes k = nodes[k] := by simp [nodeAt, List.getD_eq_getElem?_getD, hk]
  have := hdown k hk c (hat ▸ hcn)
  omega

theorem leavesOf_append_internal (nodes : List Node) {n : Node} (h : n.kind = .internal) :
    leavesOf (nodes ++ [n]) = leavesOf nodes := by
  simp [leavesOf, h]

theorem leavesOf_eq_self {nodes : List Node} (h : ∀ n ∈ nodes, n.kind = .leaf) : leavesOf nodes = nodes := by
  simpa [leavesOf] using h

/-- A join points at the two members that were popped, as long as their indices fit in 9 bits. -/
theorem joinNode_children (a b : Weighted) (ha : a.idx < 512) (hb : b.idx < 512) :
    (joinNode a b).children = [a.idx, b.idx] := by
  simp [joinNode, Node.children, Nat.mod_eq_of_lt ha, Nat.mod_eq_of_lt hb]

/-! ### The loop of joins -/

/-- R115: one round takes the two popped members out of the queue. -/
theorem popMin_twice_perm {Q Q₁ Q₂ : List Weighted} {a b : Weighted} (ha : popMin Q = some (a, Q₁))
    (hb : popMin Q₁ = some (b, Q₂)) : Q.Perm (a :: b :: Q₂) := by
  obtain ⟨hamem, rfl, -⟩ := popMin_spec _ _ _ ha
  obtain ⟨hbmem, rfl, -⟩ := popMin_spec _ _ _ hb
  exact (List.perm_cons_erase hamem).trans ((List.perm_cons_erase hbmem).cons a)

/-- R115: what every round of the loop keeps is true when it ends, and then one member is left. -/
theorem joinLoop_keeps (P : List Node → List Weighted → Prop)
    (hround : ∀ nodes Q a b Q₁ Q₂, P nodes Q → popMin Q = some (a, Q₁) → popMin Q₁ = some (b, Q₂) →
      P (nodes ++ [joinNode a b]) (⟨a.occ + b.occ, nodes.length⟩ :: Q₂))
    (fuel : Nat) (nodes : List Node) (Q : List Weighted) (h : P nodes Q) (hne : Q ≠ [])
    (hfuel : Q.length ≤ fuel + 1) : ∃ w, P (joinLoop fuel nodes Q) [w] := by
  induction fuel generalizing nodes Q with
  | zero =>
    obtain ⟨w, rfl⟩ := List.length_eq_one_iff.mp
      (Nat.le_antisymm hfuel (List.length_pos_iff.mpr hne))
    exact ⟨w, h⟩
  | succ fuel ih =>
    rw [joinLoop]
    split
    · next hnone => exact absurd ((popMin_none Q).mp hnone) hne
    · next a Q₁ ha =>
      obtain ⟨hmem, hQ₁, -⟩ := popMin_spec _ _ _ ha
      split
      · next hnone =>
        have hQ : Q.Perm [a] := by
          simpa [← hQ₁, (popMin_none Q₁).mp hnone] using List.perm_cons_erase hmem
        exact ⟨a, List.perm_singleton.mp hQ ▸ h⟩
      · next b Q₂ hb =>
        have hlen := (popMin_twice_perm ha hb).length_eq
        refine ih _ _ (hround nodes Q a b Q₁ Q₂ h ha hb) (by simp) ?_
        simp only [List.length_cons] at hlen ⊢
        omega

/-- R22, R114, R115: an arena under construction with its queue. Each queue member stands for a node no Internal
has taken yet, with that node's weight; `total` is the weight the queue holds together. -/
structure JoinState (leaves : List Node) (total : Nat) (nodes : List Node) (Q : List Weighted) : Prop where
  leaves_eq : leavesOf nodes = leaves
  size : nodes.length + Q.length = 2 * leaves.length
  weight : (Q.map Weighted.occ).sum = total
  member : ∀ w ∈ Q, w.idx < nodes.length ∧ (nodeAt nodes w.idx).occ.toNat = w.occ
  unshared : (nodes.flatMap Node.children ++ Q.map Weighted.idx).Nodup
  down : ∀ k < nodes.length, ∀ c ∈ (nodeAt nodes k).children, c < k
  plain : ∀ n ∈ nodes, (n.kind = .leaf → n.left = NodeIdx.nil ∧ n.right = NodeIdx.nil) ∧
    (n.kind = .internal → n.sym = 0)
  last : ∀ w, Q = [w] → w.idx + 1 = nodes.length

/-- R115: a join keeps `JoinState`: with at most 256 leaves and a total below `2^32` neither an index nor a weight
wraps. -/
theorem JoinState.join {leaves : List Node} {total : Nat} {nodes : List Node} {Q Q₁ Q₂ : List Weighted}
    {a b : Weighted} (h : JoinState leaves total nodes Q) (hleaves : leaves.length ≤ 256) (htotal : total < 2 ^ 32)
    (ha : popMin Q = some (a, Q₁)) (hb : popMin Q₁ = some (b, Q₂)) :
    JoinState leaves total (nodes ++ [joinNode a b]) (⟨a.occ + b.occ, nodes.length⟩ :: Q₂) := by
  obtain ⟨leaves_eq, size, weight, member, unshared, down, plain, -⟩ := h
  have hQ := popMin_twice_perm ha hb
  have hlen : Q.length = Q₂.length + 2 := hQ.length_eq
  have hsum : a.occ + b.occ + (Q₂.map Weighted.occ).sum = total := by
    rw [← weight, (hQ.map Weighted.occ).sum_eq]; simp [Nat.add_assoc]
  have hmember : ∀ w ∈ a :: b :: Q₂, w.idx < nodes.length ∧ (nodeAt nodes w.idx).occ.toNat = w.occ :=
    fun w hw => member w (hQ.mem_iff.mpr hw)
  obtain ⟨haidx, -⟩ := hmember a (by simp)
  obtain ⟨hbidx, -⟩ := hmember b (by simp)
  have hchildren : (joinNode a b).children = [a.idx, b.idx] := joinNode_children a b (by omega) (by omega)
  refine
    { leaves_eq := by rw [leavesOf_append_internal nodes rfl, leaves_eq]
      size := by simp only [List.length_append, List.length_cons, List.length_nil]; omega
      weight := by simpa [Nat.add_assoc] using hsum
      member := fun w hw => ?member
      unshared := ?unshared
      down := fun k hk c hc => ?down
      plain := fun n hn => ?plain
      last := fun w hw => by simp only [List.cons.injEq] at hw; simp [← hw.1] }
  case member =>
    rcases List.mem_cons.mp hw with rfl | hw
    · rw [nodeAt_append_last]
      simp only [List.length_append, List.length_cons, List.length_nil, joinNode, BitVec.toNat_ofNat]
      omega
    · obtain ⟨hidx, hocc⟩ := hmember w (by simp [hw])
      rw [nodeAt_append_left _ _ _ hidx]
      exact ⟨by simp; omega, hocc⟩
  case unshared =>
    have hold : (nodes.flatMap Node.children ++ a.idx :: b.idx :: Q₂.map Weighted.idx).Nodup :=
      (((hQ.map Weighted.idx).append_left _).nodup_iff).mp unshared
    have hnew : nodes.length ∉ nodes.flatMap Node.children ++ a.idx :: b.idx :: Q₂.map Weighted.idx := by
      intro hmem
      rcases List.mem_append.mp hmem with hmem | hmem
      · exact absurd (child_lt_length down hmem) (by omega)
      · obtain ⟨w, hw, hidx⟩ := List.mem_map.mp (show _ ∈ (a :: b :: Q₂).map Weighted.idx from hmem)
        have := (hmember w hw).1
        omega
    refine (List.Perm.nodup_iff ?_).mp (List.nodup_cons.mpr ⟨hnew, hold⟩)
    simp only [List.flatMap_append, List.flatMap_cons, List.flatMap_nil, List.append_nil, hchildren, List.map_cons]
    simpa using (List.perm_middle (a := nodes.length)
      (l₁ := nodes.flatMap Node.children ++ [a.idx, b.idx]) (l₂ := Q₂.map Weighted.idx)).symm
  case down =>
    rcases Nat.lt_or_ge k nodes.length with hlt | hge
    · rw [nodeAt_append_left _ _ _ hlt] at hc
      exact down k hlt c hc
    · obtain rfl : k = nodes.length := by simp at hk; omega
      rw [nodeAt_append_last, hchildren] at hc
      simp only [List.mem_cons, List.not_mem_nil, or_false] at hc
      omega
  case plain =>
    rcases List.mem_append.mp hn with hn | hn
    · exact plain n hn
    · obtain rfl := List.mem_singleton.mp hn
      exact ⟨nofun, fun _ => rfl⟩

/-- R22, R115: an arena whose queue is down to one member is a tree, whose root, the last entry, has the whole
weight. -/
theorem JoinState.tree {leaves : List Node} {total : Nat} {nodes : List Node} {w : Weighted}
    (h : JoinState leaves total nodes [w]) (htwo : 2 ≤ leaves.length) (hleaves : leaves.length ≤ 256)
    (hsyms : (leaves.map Node.sym).Nodup) :
    TreeShape nodes (BitVec.ofNat 9 (nodes.length - 1)) ∧
      (nodeAt nodes (BitVec.ofNat 9 (nodes.length - 1)).toNat).occ.toNat = total := by
  obtain ⟨rfl, size, weight, member, unshared, down, plain, last⟩ := h
  simp only [List.length_cons, List.length_nil] at size
  have hroot : (BitVec.ofNat 9 (nodes.length - 1)).toNat = w.idx := by
    have := last w rfl
    rw [BitVec.toNat_ofNat]
    omega
  refine ⟨⟨htwo, by omega, rfl, down, (List.nodup_append.mp unshared).1, hsyms, plain⟩, ?_⟩
  rw [hroot, (member w (by simp)).2]
  simpa using weight

/-! ### The seeded leaves -/

theorem distinctBytes_eq (f : SymFile Word) : distinctBytes f = symbols.filter fun x => count f x ≠ 0 := by
  rw [distinctBytes, SymFile.pairs_eq, List.filter_map, List.map_map]
  exact List.map_id _

theorem distinctBytes_nodup (f : SymFile Word) : (distinctBytes f).Nodup :=
  distinctBytes_eq f ▸ symbols_nodup.filter _

theorem distinctBytes_length_le (f : SymFile Word) : (distinctBytes f).length ≤ 256 := by
  rw [distinctBytes_eq]
  exact (List.length_filter_le _ _).trans (by simp [symbols])

theorem distinctBytes_eq_nil (f : SymFile Word) : distinctBytes f = [] ↔ ∀ x, count f x = 0 := by
  simp [List.eq_nil_iff_forall_not_mem, mem_distinctBytes]

/-- The symbols that do not occur add nothing to the sum of all counts. -/
theorem countTotal_eq_sum_distinctBytes (f : SymFile Word) :
    countTotal f = ((distinctBytes f).map fun x => (count f x).toNat).sum := by
  have hdrop (l : List Byte) : (l.map fun x => (count f x).toNat).sum =
      ((l.filter fun x => count f x ≠ 0).map fun x => (count f x).toNat).sum := by
    induction l with
    | nil => rfl
    | cons x l ih => by_cases hx : count f x = 0 <;> simp_all
  rw [distinctBytes_eq, ← hdrop]
  simp [countTotal, SymFile.pairs_eq, Function.comp_def, count]

/-- R113, R116: the two ways to seed an arena. -/
theorem seedLeaves_cases (f : SymFile Word) :
    (∃ x, distinctBytes f = [x] ∧ seedLeaves f = [leafNode x (count f x), leafNode (x + 1) 0]) ∨
    ((distinctBytes f).length ≠ 1 ∧ seedLeaves f = (distinctBytes f).map fun x => leafNode x (count f x)) := by
  unfold seedLeaves
  split
  · next x hx => exact .inl ⟨x, hx, rfl⟩
  · next hx =>
    refine .inr ⟨fun h => ?_, rfl⟩
    obtain ⟨x, hx'⟩ := List.length_eq_one_iff.mp h
    exact hx x hx'

theorem seedLeaves_eq_leafNode (f : SymFile Word) (n : Node) (h : n ∈ seedLeaves f) :
    ∃ x c, n = leafNode x c := by
  rcases seedLeaves_cases f with ⟨x, -, hs⟩ | ⟨-, hs⟩
  · rw [hs] at h
    rcases List.mem_pair.mp h with rfl | rfl <;> exact ⟨_, _, rfl⟩
  · rw [hs] at h
    obtain ⟨x, -, rfl⟩ := List.mem_map.mp h
    exact ⟨_, _, rfl⟩

theorem seedLeaves_length (f : SymFile Word) (hne : distinctBytes f ≠ []) :
    2 ≤ (seedLeaves f).length ∧ (seedLeaves f).length ≤ 256 := by
  have hpos := List.length_pos_iff.mpr hne
  have hle := distinctBytes_length_le f
  rcases seedLeaves_cases f with ⟨x, -, hs⟩ | ⟨hone, hs⟩
  · simp [hs]
  · rw [hs, List.length_map]
    omega

theorem seedLeaves_syms_nodup (f : SymFile Word) : ((seedLeaves f).map Node.sym).Nodup := by
  rcases seedLeaves_cases f with ⟨x, -, hs⟩ | ⟨-, hs⟩
  · simp [hs, leafNode]
  · simpa [hs, Function.comp_def, leafNode] using distinctBytes_nodup f

theorem seedLeaves_weight (f : SymFile Word) :
    ((seedLeaves f).map fun n => n.occ.toNat).sum = countTotal f := by
  rw [countTotal_eq_sum_distinctBytes]
  rcases seedLeaves_cases f with ⟨x, hx, hs⟩ | ⟨-, hs⟩
  · simp [hs, hx, leafNode]
  · simp [hs, Function.comp_def, leafNode]

/-! ### The queue of the seeded leaves -/

theorem mem_seedQueue {leaves : List Node} {w : Weighted} (h : w ∈ seedQueue leaves) :
    w.idx < leaves.length ∧ (nodeAt leaves w.idx).occ.toNat = w.occ := by
  obtain ⟨i, hi, rfl⟩ := List.mem_mapIdx.mp h
  simp [nodeAt, hi]

theorem seedQueue_map_occ (leaves : List Node) :
    (seedQueue leaves).map Weighted.occ = leaves.map fun n => n.occ.toNat := by
  apply List.ext_getElem <;> simp [seedQueue]

theorem seedQueue_map_idx (leaves : List Node) : (seedQueue leaves).map Weighted.idx = List.range leaves.length := by
  apply List.ext_getElem <;> simp [seedQueue]

/-- R113, R114: the arena of the seeded leaves with their queue. -/
theorem JoinState.seed (f : SymFile Word) (hne : distinctBytes f ≠ []) :
    JoinState (seedLeaves f) (countTotal f) (seedLeaves f) (seedQueue (seedLeaves f)) := by
  have hleaf : ∀ n ∈ seedLeaves f, n.kind = .leaf := fun n hn => by
    obtain ⟨x, c, rfl⟩ := seedLeaves_eq_leafNode f n hn; rfl
  have hlen : (seedQueue (seedLeaves f)).length = (seedLeaves f).length := by simp [seedQueue]
  refine
    { leaves_eq := leavesOf_eq_self hleaf
      size := by omega
      weight := by rw [seedQueue_map_occ, seedLeaves_weight]
      member := fun w => mem_seedQueue
      unshared := ?unshared
      down := fun k hk c hc => ?down
      plain := fun n hn => ?plain
      last := fun w hw => ?last }
  case unshared =>
    have hnone : (seedLeaves f).flatMap Node.children = [] :=
      List.flatMap_eq_nil_iff.mpr fun n hn => children_leaf (hleaf n hn)
    rw [hnone, List.nil_append, seedQueue_map_idx]
    exact List.nodup_range
  case down =>
    rw [children_leaf (hleaf _ (nodeAt_mem _ k hk))] at hc
    cases hc
  case plain =>
    obtain ⟨x, c, rfl⟩ := seedLeaves_eq_leafNode f n hn
    exact ⟨fun _ => ⟨rfl, rfl⟩, nofun⟩
  case last =>
    have := (seedLeaves_length f hne).1
    simp only [hw, List.length_cons, List.length_nil] at hlen
    omega

/-- R22, R112: the arena of the counts is a tree whose root weighs their sum. -/
theorem buildTree_tree (f : SymFile Word) (hfit : countTotal f < 2 ^ 32) (hne : distinctBytes f ≠ []) :
    TreeShape (buildTree f) (BitVec.ofNat 9 ((buildTree f).length - 1)) ∧
      (nodeAt (buildTree f) (BitVec.ofNat 9 ((buildTree f).length - 1)).toNat).occ.toNat = countTotal f := by
  obtain ⟨htwo, hmax⟩ := seedLeaves_length f hne
  have hlen : (seedQueue (seedLeaves f)).length = (seedLeaves f).length := by simp [seedQueue]
  obtain ⟨w, hw⟩ := joinLoop_keeps (JoinState (seedLeaves f) (countTotal f))
    (fun nodes Q a b Q₁ Q₂ h ha hb => h.join hmax hfit ha hb) (seedLeaves f).length (seedLeaves f)
    (seedQueue (seedLeaves f)) (JoinState.seed f hne) (List.length_pos_iff.mp (by omega)) (by omega)
  exact hw.tree htwo hmax (seedLeaves_syms_nodup f)

/-- Settles O21, by the loop invariant `JoinState`: it holds of the seeded leaves, every join keeps it, and with one
member left in the queue it is the stated tree. -/
theorem treeBuilderBuildsOneTree : Obligations.TreeBuilderBuildsOneTree := by
  unfold Obligations.TreeBuilderBuildsOneTree
  rintro s hfit ⟨x, hx⟩
  have hne : distinctBytes s.freq ≠ [] := fun h => hx ((distinctBytes_eq_nil s.freq).mp h x)
  obtain ⟨htree, hweight⟩ := buildTree_tree s.freq hfit hne
  exact ⟨_, if_neg hne, htree, hweight, rfl⟩

end Sys2Proof.Machine

/-!
PROOFS. The invariant between commands (R30): what bounds the codewords, what each state update leaves of the
invariant, what each command leaves of it, and what a step can do.
-/

namespace Sys2Proof.Machine

/-! ### Codeword lengths (R23) -/

theorem overlong_eq_false_iff (slot : Option BitSeq) :
    overlong slot = false ↔ ∀ c, slot = some c → c.length ≤ 255 := by
  cases slot <;> simp [overlong]

/-- R23, R30 (g): the two ways to say that every codeword fits the header's length byte. -/
theorem Table.fits_iff (T : Table) : T.Fits ↔ ∀ p ∈ T.pairs, overlong p.2 = false := by
  simp only [SymFile.pairs_eq, List.forall_mem_map, overlong_eq_false_iff]
  exact ⟨fun h x _ => h x, fun h x => h x (mem_symbols x)⟩

theorem Table.fits_empty : Table.empty.Fits := fun x c h => by simp at h

theorem Table.Fits.put {T : Table} (h : T.Fits) (x : Byte) {c : BitSeq} (hc : c.length ≤ 255) : (T.put x c).Fits := by
  intro y d hd
  rw [Table.slot_put] at hd
  split at hd
  · cases hd; exact hc
  · exact h y d hd

/-- R140: a codeword that the parser accepts has the length its length byte says. -/
theorem parseEntries_fits (rd : Nat → Byte) (fin fuel pos : Nat) (T U : Table) (hT : T.Fits)
    (h : parseEntries rd fin fuel pos T = .table U) : U.Fits := by
  induction fuel generalizing pos T with
  | zero => cases h; exact hT
  | succ fuel ih =>
    rw [parseEntries] at h
    split at h
    · cases h; exact hT
    · split at h
      · cases h
      · dsimp only at h
        split at h
        · cases h
        · refine ih _ _ (hT.put _ ((mkbits_length_le _ _).trans ?_)) h
          exact Nat.le_of_lt_succ (rd (pos + 1)).isLt

theorem tableOf_fits (entries : List (Byte × BitSeq)) (h : ∀ p ∈ entries, p.2.length ≤ 255) :
    (tableOf entries).Fits := by
  unfold tableOf
  exact List.foldlRecOn entries _ Table.fits_empty fun T hT p hp => hT.put p.1 (h p hp)

/-! ### The depth of a tree (R120) -/

/-- How many of the entries below index `k` are Internals. -/
def internalsBelow (nodes : List Node) (k : Nat) : Nat := (nodes.take k).countP fun n => n.kind = .internal

theorem internalsBelow_mono (nodes : List Node) {j k : Nat} (h : j ≤ k) :
    internalsBelow nodes j ≤ internalsBelow nodes k :=
  (List.take_sublist_take_left h).countP_le

theorem internalsBelow_succ (nodes : List Node) (i : Nat) (h : (nodeAt nodes i).kind = .internal) :
    i < nodes.length ∧ internalsBelow nodes (i + 1) = internalsBelow nodes i + 1 := by
  have hi : i < nodes.length := by
    by_contra hge
    simp [nodeAt, List.getD_eq_getElem?_getD, List.getElem?_eq_none (Nat.le_of_not_lt hge), Node.resetRecord] at h
  have hat : nodeAt nodes i = nodes[i] := by simp [nodeAt, List.getD_eq_getElem?_getD, hi]
  refine ⟨hi, ?_⟩
  rw [internalsBelow, List.take_succ_eq_append_getElem hi, List.countP_append]
  simp [internalsBelow, ← hat, h]

/-- R118: every bit of a codeword is a branch at an Internal of its own, at or below the node the walk starts from. -/
theorem deriveCodes_length_le (nodes : List Node)
    (hdown : ∀ k < nodes.length, ∀ c ∈ (nodeAt nodes k).children, c < k) (fuel i : Nat)
    (entries : List (Byte × BitSeq)) (h : deriveCodes nodes fuel i = some entries) :
    ∀ p ∈ entries, p.2.length ≤ internalsBelow nodes (i + 1) := by
  induction fuel generalizing i entries with
  | zero => simp [deriveCodes] at h
  | succ fuel ih =>
    rw [deriveCodes] at h
    cases hk : (nodeAt nodes i).kind with
    | leaf =>
      simp only [hk, Option.some.injEq] at h
      subst h
      simp
    | internal =>
      obtain ⟨hi, hcount⟩ := internalsBelow_succ nodes i hk
      have hbelow (c : Nat) (hc : c ∈ (nodeAt nodes i).children) (l : List (Byte × BitSeq))
          (hl : deriveCodes nodes fuel c = some l) (q : Byte × BitSeq) (hq : q ∈ l) :
          q.2.length + 1 ≤ internalsBelow nodes (i + 1) := by
        have := ih c l hl q hq
        have : internalsBelow nodes (c + 1) ≤ internalsBelow nodes i := internalsBelow_mono nodes (hdown i hi c hc)
        omega
      simp only [hk] at h
      split at h
      · next l r hl hr =>
        simp only [Option.some.injEq] at h
        subst h
        intro p hp
        rcases List.mem_append.mp hp with hp | hp
        all_goals obtain ⟨q, hq, rfl⟩ := List.mem_map.mp hp
        · exact hbelow _ (by simp [Node.children, hk]) l hl q hq
        · exact hbelow _ (by simp [Node.children, hk]) r hr q hq
      · cases h

/-- R22: with no symbol on two leaves a tree has at most 256 of them. -/
theorem TreeShape.leaves_le {nodes : List Node} {root : NodeIdx} (h : TreeShape nodes root) :
    (leavesOf nodes).length ≤ 256 := by
  obtain ⟨-, -, -, -, -, hsyms, -⟩ := h
  simpa [symbols] using (hsyms.subperm fun x _ => mem_symbols x).length_le

theorem TreeShape.internals_le {nodes : List Node} {root : NodeIdx} (h : TreeShape nodes root) (k : Nat) :
    internalsBelow nodes k ≤ 255 := by
  have hleaves := h.leaves_le
  obtain ⟨-, hsize, -⟩ := h
  have hall : internalsBelow nodes k ≤ nodes.countP fun n => n.kind = .internal :=
    (List.take_sublist k nodes).countP_le
  have hsplit := List.length_eq_countP_add_countP (fun n : Node => decide (n.kind = .internal)) (l := nodes)
  have hnot : (nodes.countP fun n => ¬ decide (n.kind = .internal) = true) = (leavesOf nodes).length := by
    rw [leavesOf, ← List.countP_eq_length_filter]
    refine List.countP_congr fun n _ => ?_
    cases n.kind <;> decide
  omega

/-- R120: no codeword of a tree is longer than 255 bits. -/
theorem deriveTable_fits (nodes : List Node) (root : NodeIdx) (T : Table) (hshape : TreeShape nodes root)
    (h : deriveTable nodes root = some T) : T.Fits := by
  obtain ⟨entries, hentries, rfl⟩ := Option.map_eq_some_iff.mp h
  refine tableOf_fits entries fun p hp => ?_
  have ⟨_, _, _, hdown, _⟩ := hshape
  exact (deriveCodes_length_le nodes hdown _ _ entries hentries p hp).trans (hshape.internals_le _)

/-! ### Sizes (R122, R126, R110) -/

theorem headerEntry_length_le (x : Byte) (slot : Option BitSeq) (h : overlong slot = false) :
    (headerEntry x slot).length ≤ 34 := by
  cases slot with
  | none => simp [headerEntry]
  | some c =>
    have := (overlong_eq_false_iff _).mp h c rfl
    simp only [headerEntry, List.length_cons, backingBytes_length, nbytes]
    omega

/-- R5, R122: the longest header takes 8708 bytes, the least capacity of `OBUF`. -/
theorem headerBytes_length_le (T : Table) (h : ∀ p ∈ T.pairs, overlong p.2 = false) :
    (headerBytes T).length ≤ 8708 := by
  have hsum := List.sum_le_card_nsmul (T.pairs.map fun p => (headerEntry p.1 p.2).length) 34 fun n hn => by
    obtain ⟨p, hp, rfl⟩ := List.mem_map.mp hn
    exact headerEntry_length_le p.1 p.2 (h p hp)
  have hpairs : T.pairs.length = 256 := by simp [SymFile.pairs_eq, symbols]
  rw [List.length_map, hpairs] at hsum
  simp only [headerBytes, headerBody, List.length_append, beBytes_length, List.length_flatMap]
  simpa using Nat.add_le_add_left hsum 4

theorem shiftLeftOnce_length_le (q : BitSeq) : (shiftLeftOnce q).length ≤ q.length := by
  cases q <;> simp [shiftLeftOnce]

theorem packLoop_length_le (T : Table) (cap i : Nat) (acc : BitSeq) (bytes : List Byte) (q : BitSeq)
    (hacc : acc.length ≤ cap) (h : packLoop T cap i acc bytes = .bits q) : q.length ≤ cap := by
  induction bytes generalizing i acc with
  | nil => cases h; exact hacc
  | cons x bytes ih =>
    rw [packLoop] at h
    split at h
    · cases h
    · split at h
      · cases h
      · next c _ hfits => exact ih _ _ (by simpa [concat] using hfits) h

/-- R21, R110: the counters of fewer than `2^32` bytes add up to the number of bytes. -/
theorem countTotal_countBytes (bytes : List Byte) (h : bytes.length < 2 ^ 32) :
    countTotal (countBytes bytes) = bytes.length := by
  have hall : ∀ x ∈ (bytes : Multiset Byte), x ∈ symbols.toFinset := fun x _ => by simp [mem_symbols]
  calc countTotal (countBytes bytes)
      = (symbols.map fun x => bytes.count x).sum := by
        simp only [countTotal, SymFile.pairs_eq, List.map_map]
        exact congrArg List.sum (List.map_congr_left fun x _ => count_countBytes bytes x h)
    _ = ∑ x ∈ symbols.toFinset, bytes.count x := (List.sum_toFinset _ symbols_nodup).symm
    _ = bytes.length := by simpa using Multiset.sum_count_eq_card hall

/-! ### What each state update leaves of the invariant -/

section
variable {s : State}

theorem State.Inv.takeFault (h : s.Inv) {code : ErrCode} (hcode : code ≠ .none) (info : Nat) :
    (s.takeFault code info).Inv := by
  obtain ⟨hcfg, hseq, hbuf, ⟨-, hdstate⟩, hcounts, harena⟩ := h
  refine ⟨hcfg, hseq, hbuf, ⟨fun herr => absurd herr hcode, ?_⟩, hcounts, harena⟩
  simp only [State.takeFault_dstate, dstateAfterFault]
  split
  · decide
  · exact hdstate

theorem State.Inv.drawn (h : s.Inv) : s.drawn.Inv := h

theorem State.Inv.setT (h : s.Inv) (b : Bool) : (s.setT b).Inv := h

theorem State.Inv.setBs (h : s.Inv) (rd : Fin 4) {v : BitSeq} (hv : v.length ≤ s.cfg.bsCap) :
    (s.setBs rd v).Inv := by
  obtain ⟨hcfg, ⟨hbs, hpay, hcw⟩, hrest⟩ := h
  refine ⟨hcfg, ⟨fun i => ?_, hpay, hcw⟩, hrest⟩
  rw [State.bsReg_setBs]
  split
  · exact hv
  · exact hbs i

theorem State.Inv.withFreq (h : s.Inv) {f : SymFile Word} (hf : countTotal f < 2 ^ 32) :
    State.Inv { s with freq := f } := by
  obtain ⟨hcfg, hseq, hbuf, hctl, -, harena⟩ := h
  exact ⟨hcfg, hseq, hbuf, hctl, hf, harena⟩

theorem State.Inv.withTree (h : s.Inv) {nodes : List Node} {root : NodeIdx} (htree : TreeShape nodes root) :
    State.Inv { s with nodes := nodes, root := root } := by
  obtain ⟨hcfg, hseq, hbuf, hctl, hcounts, -⟩ := h
  exact ⟨hcfg, hseq, hbuf, hctl, hcounts, .inr htree⟩

theorem State.Inv.withTable (h : s.Inv) {T : Table} (hT : T.Fits) : State.Inv { s with cw := T } := by
  obtain ⟨hcfg, ⟨hbs, hpay, -⟩, hrest⟩ := h
  exact ⟨hcfg, ⟨hbs, hpay, T.fits_iff.mp hT⟩, hrest⟩

theorem State.Inv.withPay (h : s.Inv) {q : BitSeq} (hq : q.length ≤ s.cfg.payCap) :
    State.Inv { s with pay := q } := by
  obtain ⟨hcfg, ⟨hbs, -, hcw⟩, hrest⟩ := h
  exact ⟨hcfg, ⟨hbs, hq, hcw⟩, hrest⟩

theorem State.Inv.withDstate (h : s.Inv) {d : DState} (hd : d ≠ .matched) : State.Inv { s with dstate := d } := by
  obtain ⟨hcfg, hseq, hbuf, ⟨herr, -⟩, hrest⟩ := h
  exact ⟨hcfg, hseq, hbuf, ⟨herr, hd⟩, hrest⟩

theorem State.Inv.withInputByte (h : s.Inv) {idx : Nat} (hidx : idx < s.cfg.ibufCap) (b : Byte) :
    State.Inv { s with ibuf := s.ibuf.write idx b } := by
  obtain ⟨hcfg, hseq, ⟨hibuf, hobuf⟩, hrest⟩ := h
  exact ⟨hcfg, hseq, ⟨Memory.write_wf _ _ _ _ hibuf hidx, hobuf⟩, hrest⟩

/-- R30 (e), R19: a new `OBUF` and `OLEN` keep the invariant when the buffer is canonical and written up to `OLEN`. -/
theorem State.Inv.withOutput (h : s.Inv) {m : Memory} {n : Word} (hm : m.wf s.cfg.obufCap)
    (hn : n.toNat ≤ s.cfg.obufCap) (hwritten : ∀ a < n.toNat, (m.read? a).isSome = true) :
    State.Inv { s with obuf := m, olen := n } := by
  obtain ⟨hcfg, hseq, ⟨hibuf, -⟩, hrest⟩ := h
  exact ⟨hcfg, hseq, ⟨hibuf, hm, hn, hwritten⟩, hrest⟩

theorem State.Inv.obufCap_lt (h : s.Inv) : s.cfg.obufCap < 2 ^ 32 := by
  obtain ⟨⟨-, ⟨-, hobuf⟩, -⟩, -⟩ := h
  omega

/-- A command that stores `bytes` at the front of `OBUF` and makes `OLEN` their number (R99, R121). -/
theorem State.Inv.withStored (h : s.Inv) {bytes : List Byte} (hlen : bytes.length ≤ s.cfg.obufCap) :
    State.Inv { s with obuf := s.obuf.writeBytes 0 bytes, olen := BitVec.ofNat 32 bytes.length } := by
  have hcap := h.obufCap_lt
  have hn : (BitVec.ofNat 32 bytes.length).toNat = bytes.length := by rw [BitVec.toNat_ofNat]; omega
  have ⟨_, _, ⟨_, hobuf, _⟩, _⟩ := h
  refine h.withOutput (Memory.writeBytes_wf _ _ _ _ hobuf (by omega)) (by omega) fun a ha => ?_
  rw [hn] at ha
  simp [Memory.read?_writeBytes, ha]

/-- R148: emitting a symbol where `OBUF` has room. -/
theorem State.Inv.emit (h : s.Inv) (hroom : s.olen.toNat < s.cfg.obufCap) (x : Byte) (c : BitSeq) :
    (s.emit x c).Inv := by
  have hcap := h.obufCap_lt
  have ⟨_, ⟨_, hpay, _⟩, ⟨_, hobuf, _, hwritten⟩, _⟩ := h
  have hn : (s.olen + 1).toNat = s.olen.toNat + 1 := by
    rw [BitVec.toNat_add]
    exact Nat.mod_eq_of_lt (by simp; omega)
  have hout : State.Inv { s with obuf := s.obuf.write s.olen.toNat x, olen := s.olen + 1 } := by
    refine h.withOutput (Memory.write_wf _ _ _ _ hobuf hroom) (by omega) fun a ha => ?_
    rw [Memory.read?_write]
    split
    · rfl
    · exact hwritten a (by omega)
  have hshift : (shiftLeftTimes c.length s.pay).length ≤ s.cfg.payCap := by
    rw [shiftLeftTimes_eq_drop, List.length_drop]
    omega
  exact (hout.withPay hshift).withDstate (by decide)

/-- R29: a core with canonical buffers has the invariant when all else is at its reset value. -/
theorem State.Inv.atReset (hcfg : s.cfg.WellFormed) (hibuf : s.ibuf.wf s.cfg.ibufCap)
    (hobuf : s.obuf.wf s.cfg.obufCap) : s.commandReset.Inv :=
  ⟨hcfg, ⟨fun i => by simp [State.bsReg], Nat.zero_le _, Table.empty.fits_iff.mp Table.fits_empty⟩,
    ⟨hibuf, hobuf, Nat.zero_le _, fun a ha => absurd ha (by simp)⟩, ⟨fun _ => rfl, by simp⟩,
    (countTotal_countBytes [] (by decide)).trans_lt (by decide), .inl ⟨rfl, rfl⟩⟩

theorem State.Inv.commandReset (h : s.Inv) : s.commandReset.Inv := by
  obtain ⟨hcfg, -, ⟨hibuf, hobuf, -⟩, -⟩ := h
  exact State.Inv.atReset hcfg hibuf hobuf

theorem State.powerOn_inv {c : Config} (hc : c.WellFormed) : (State.powerOn c).Inv :=
  State.Inv.atReset (s := State.powerOn c) hc (Memory.nil_wf _) (Memory.nil_wf _)

end

/-! ### What each primitive command leaves of the invariant -/

section
variable {s t : State} (hs : s.Inv)
include hs

theorem execBsLd_inv (rd : Fin 4) (h : execBsLd rd s = .next t) : t.Inv := by
  rcases execBsLd_next rd s t h with rfl | rfl | ⟨hcap, -, -, rfl⟩
  · exact hs.takeFault (by decide) _
  · exact hs.takeFault (by decide) _
  · exact (hs.setBs rd ((mkbits_length_le _ _).trans hcap)).drawn

theorem execBsSt_inv (rd : Fin 4) (h : execBsSt rd s = .next t) : t.Inv := by
  cases h
  have ⟨⟨_, ⟨hobuf, _⟩, _⟩, ⟨hbs, _⟩, _⟩ := hs
  have hlen : (backingBytes (s.bsReg rd)).length ≤ s.cfg.obufCap := by
    rw [backingBytes_length]
    exact (nbytes_mono (hbs rd)).trans ((le_max_right _ _).trans hobuf)
  have := hs.withStored hlen
  rwa [backingBytes_length] at this

theorem execBsPushf_inv (rd : Fin 4) (imm8 : Nat) (h : execBsPushf rd imm8 s = .next t) : t.Inv := by
  rcases execBsPushf_next rd imm8 s t h with ⟨-, rfl⟩ | ⟨-, -, rfl⟩ | ⟨-, hcap, rfl⟩
  · exact hs.takeFault (by decide) _
  · exact hs.takeFault (by decide) _
  · exact hs.setBs rd hcap

theorem execBsShr_inv (rd : Fin 4) (h : execBsShr rd s = .next t) : t.Inv := by
  rcases execBsShr_next rd s t h with ⟨-, rfl⟩ | ⟨hcap, rfl⟩
  · exact hs.takeFault (by decide) _
  · exact hs.setBs rd hcap

theorem execBsShl_inv (rd : Fin 4) (h : execBsShl rd s = .next t) : t.Inv := by
  cases h
  have ⟨_, ⟨hbs, _⟩, _⟩ := hs
  exact hs.setBs rd ((shiftLeftOnce_length_le _).trans (hbs rd))

theorem execBsCat_inv (rd rs : Fin 4) (h : execBsCat rd rs s = .next t) : t.Inv := by
  rcases execBsCat_next rd rs s t h with ⟨-, rfl⟩ | ⟨hcap, rfl⟩
  · exact hs.takeFault (by decide) _
  · exact hs.setBs rd (by simpa using hcap)

theorem execEncCount_inv (h : execEncCount s = .next t) : t.Inv := by
  rcases execEncCount_next s t h with ⟨-, rfl⟩ | ⟨-, rfl⟩
  · exact hs.takeFault (by decide) _
  · have hlen : s.input.length < 2 ^ 32 := by simpa [State.input] using s.ilen.isLt
    exact (hs.withFreq (by rwa [countTotal_countBytes _ hlen])).drawn

theorem execEncTree_inv (h : execEncTree s = .next t) : t.Inv := by
  rcases execEncTree_next s t h with ⟨-, rfl⟩ | ⟨hne, rfl⟩
  · exact hs.takeFault (by decide) _
  · have ⟨_, _, _, _, hcounts, _⟩ := hs
    exact hs.withTree (buildTree_tree s.freq hcounts hne).1

theorem execEncTable_inv (h : execEncTable s = .next t) : t.Inv := by
  rcases execEncTable_next s t h with ⟨-, rfl⟩ | ⟨hroot, T, hT, rfl⟩
  · exact hs.takeFault (by decide) _
  · have ⟨_, _, _, _, _, harena⟩ := hs
    rcases harena with ⟨-, hnil⟩ | htree
    · exact absurd hnil hroot
    · exact hs.withTable (deriveTable_fits _ _ T htree hT)

theorem execEncHdr_inv (h : execEncHdr s = .next t) : t.Inv := by
  rcases execEncHdr_next s t h with ⟨x, -, rfl⟩ | ⟨-, rfl⟩
  · exact hs.takeFault (by decide) _
  · have ⟨⟨_, ⟨hobuf, _⟩, _⟩, ⟨_, _, hcw⟩, _⟩ := hs
    exact hs.withStored ((headerBytes_length_le s.cw hcw).trans ((le_max_left _ _).trans hobuf))

theorem execEncPack_inv (h : execEncPack s = .next t) : t.Inv := by
  rcases execEncPack_next s t h with ⟨-, rfl⟩ | ⟨-, ⟨i, -, rfl⟩ | ⟨-, rfl⟩ | ⟨q, hq, rfl⟩⟩
  · exact hs.takeFault (by decide) _
  · exact hs.takeFault (by decide) _
  · exact hs.takeFault (by decide) _
  · exact (hs.withPay (packLoop_length_le _ _ _ _ _ _ (Nat.zero_le _) hq)).drawn

theorem execDecHdr_inv (h : execDecHdr s = .next t) : t.Inv := by
  rcases execDecHdr_next s t h with ⟨-, rfl⟩ | ⟨-, -, rfl⟩ | ⟨-, -, -, ⟨pos, -, rfl⟩ | ⟨T, hT, rfl⟩⟩
  · exact hs.takeFault (by decide) _
  · exact hs.takeFault (by decide) _
  · exact hs.takeFault (by decide) _
  · exact (hs.withTable (parseEntries_fits _ _ _ _ _ T Table.fits_empty hT)).drawn

theorem execDecLoad_inv (h : execDecLoad s = .next t) : t.Inv := by
  rcases execDecLoad_next s t h with ⟨-, rfl⟩ | ⟨-, rfl⟩ | ⟨-, rfl⟩ | ⟨-, -, hcap, rfl⟩
  · exact hs.takeFault (by decide) _
  · exact hs.takeFault (by decide) _
  · exact hs.takeFault (by decide) _
  · have ⟨_, _, ⟨_, hobuf, _⟩, _⟩ := hs
    have hout : State.Inv { s with obuf := s.obuf, olen := 0 } :=
      hs.withOutput hobuf (Nat.zero_le _) fun a ha => absurd ha (by simp)
    exact ((hout.withPay ((mkbits_length_le _ _).trans hcap)).withDstate (by decide)).drawn

theorem execDecStep_inv (h : execDecStep s = .next t) : t.Inv := by
  rcases execDecStep_next s t h with ⟨-, rfl⟩ | ⟨-, ⟨-, rfl⟩ | ⟨-, -, ⟨-, rfl⟩ | ⟨-, rfl⟩⟩ |
    ⟨-, x, c, -, ⟨-, rfl⟩ | ⟨hroom, rfl⟩⟩⟩
  · exact hs
  · exact hs.withDstate (by decide)
  · exact hs.withDstate (by decide)
  · exact hs.takeFault (by decide) _
  · exact hs.takeFault (by decide) _
  · exact hs.emit hroom x c

end

/-! ### From the primitive commands to all commands (R173) -/

/-- The composite commands: those that R173 defines as a sequence of others. -/
def isComposite : Instr → Bool
  | .encAll | .decRun | .decAll => true
  | _ => false

/-- What two commands keep, the one after the other keeps. -/
theorem andThen_keeps (P : State → Prop) {first : Result} {next : State → Result}
    (hfirst : ∀ t, first = .next t → P t) (hnext : ∀ u t, P u → next u = .next t → P t) (t : State)
    (h : andThen first next = .next t) : P t := by
  obtain ⟨u, hu, ⟨-, rfl⟩ | ⟨-, ht⟩⟩ := (andThen_next first next t).mp h
  · exact hfirst _ hu
  · exact hnext u t (hfirst u hu) ht

/-- R173: what every primitive command keeps, every command keeps. -/
theorem exec_keeps (P : State → Prop)
    (hP : ∀ i, isComposite i = false → ∀ s t, P s → exec i s = .next t → P t) (i : Instr) (s t : State)
    (hs : P s) (h : exec i s = .next t) : P t := by
  have hrun (s t : State) (hs : P s) (h : execDecRun s = .next t) : P t :=
    andThen_keeps P (fun t => hP .decLoad rfl s t hs)
      (fun u t hu => stepLoop_keeps P (fun s t => hP .decStep rfl s t) _ u t hu) t h
  cases hi : isComposite i with
  | false => exact hP i hi s t hs h
  | true =>
    cases i with
    | encAll =>
      have hcount := fun t => hP .encCount rfl s t hs
      have htree := andThen_keeps P hcount (hP .encTree rfl)
      have htable := andThen_keeps P htree (hP .encTable rfl)
      have hhdr := andThen_keeps P htable (hP .encHdr rfl)
      exact andThen_keeps P hhdr (hP .encPack rfl) t h
    | decRun => exact hrun s t hs h
    | decAll => exact andThen_keeps P (fun t => hP .decHdr rfl s t hs) hrun t h
    | _ => cases hi

/-- R30: every command keeps the invariant. -/
theorem exec_inv (i : Instr) (s t : State) (hs : s.Inv) (h : exec i s = .next t) : t.Inv := by
  refine exec_keeps State.Inv (fun i hi s t hs h => ?_) i s t hs h
  cases i with
  | sysNop => cases h; exact hs
  | sysReset => cases h; exact hs.commandReset
  | bsClr rd => cases h; exact hs.setBs rd (Nat.zero_le _)
  | bsLd rd => exact execBsLd_inv hs rd h
  | bsSt rd => exact execBsSt_inv hs rd h
  | bsPushf rd imm8 => exact execBsPushf_inv hs rd imm8 h
  | bsShr rd => exact execBsShr_inv hs rd h
  | bsShl rd => exact execBsShl_inv hs rd h
  | bsCat rd rs => exact execBsCat_inv hs rd rs h
  | bsStw rd rs => cases h; exact hs.setT _
  | bsEq rd rs => cases h; exact hs.setT _
  | encCount => exact execEncCount_inv hs h
  | encTree => exact execEncTree_inv hs h
  | encTable => exact execEncTable_inv hs h
  | encHdr => exact execEncHdr_inv hs h
  | encPack => exact execEncPack_inv hs h
  | decHdr => exact execDecHdr_inv hs h
  | decLoad => exact execDecLoad_inv hs h
  | decStep => exact execDecStep_inv hs h
  | encAll | decRun | decAll => cases hi

/-! ### What a step can do (R45, R170) -/

theorem step_of_script {s : State} {a : HostAction} {rest : List HostAction} (h : s.script = a :: rest) :
    step s = perform a { s with script := rest } :=
  hostStep_perform s a rest h

/-- R13, R45, R170: everything a step that answers next can have done. `u` is the state without the access. -/
theorem step_next (s t : State) (h : step s = .next t) :
    (s.script = [] ∧ t = s) ∨ ∃ a rest u, s.script = a :: rest ∧ u = { s with script := rest } ∧
      ((∃ r d, t = { u with replies := r, draws := d }) ∨
       (∃ l i j k m, t = { u with limitEn := l, ilen := i, hlen := j, symlimit := k, blen := m }) ∨
       (∃ idx b, a = .write .ibuf idx (.byte b) ∧ idx < u.cfg.ibufCap ∧ t = { u with ibuf := u.ibuf.write idx b }) ∨
       (a = .powerOnReset ∧ t = u.powerOnReset) ∨
       ∃ w, a = commandWrite w ∧
        (t = u ∨ (∃ i, exec i u = .next t) ∨ t = u.takeFault .illegalCommand w.toNat)) := by
  cases hscript : s.script with
  | nil =>
    rw [step, hostStep_idle s hscript] at h
    exact .inl ⟨rfl, by simpa using h.symm⟩
  | cons a rest =>
    rw [step_of_script hscript] at h
    refine .inr ⟨a, rest, _, rfl, rfl, ?_⟩
    cases a with
    | read space idx =>
      rcases performRead_next space idx _ t h with ⟨e, -, rfl⟩ | ⟨-, rfl⟩ <;> exact .inl ⟨_, _, rfl⟩
    | powerOnReset => exact .inr (.inr (.inr (.inl ⟨rfl, by simpa [perform] using h.symm⟩)))
    | write space idx value =>
      rcases performWrite_next space idx value _ t h with
        ⟨w, rfl, rfl, rfl, hw⟩ | ⟨v, -, -, hreg⟩ | ⟨b, rfl, rfl, hidx, rfl⟩
      · refine .inr (.inr (.inr (.inr ⟨w, rfl, ?_⟩)))
        rcases takeCommand_next w _ t hw with ⟨-, hi⟩ | ⟨-, rfl⟩ | ⟨i, -, -, hi⟩ | ⟨e, -, -, rfl⟩
        · exact .inr (.inl ⟨_, hi⟩)
        · exact .inl rfl
        · exact .inr (.inl ⟨i, hi⟩)
        · exact .inr (.inr rfl)
      · rcases hreg with ⟨-, rfl⟩ | ⟨-, rfl⟩ | ⟨-, rfl⟩ | ⟨-, rfl⟩ | ⟨-, rfl⟩ <;>
          exact .inr (.inl ⟨_, _, _, _, _, rfl⟩)
      · exact .inr (.inr (.inl ⟨idx, b, rfl, hidx, rfl⟩))

/-- Settles O44: the host's own accesses touch nothing the invariant limits but `IBUF`, within its capacity, and each
command keeps the invariant. -/
theorem everyStepKeepsTheInvariant : Obligations.EveryStepKeepsTheInvariant := by
  unfold Obligations.EveryStepKeepsTheInvariant
  intro s t hs h
  obtain ⟨-, rfl⟩ | ⟨a, rest, u, -, hu, hdone⟩ := step_next s t h
  · exact hs
  · have hinv : u.Inv := hu ▸ hs
    have ⟨hcfg, _⟩ := hinv
    rcases hdone with ⟨r, d, rfl⟩ | ⟨l, i, j, k, m, rfl⟩ | ⟨idx, b, -, hidx, rfl⟩ | ⟨-, rfl⟩ |
      ⟨w, -, rfl | ⟨i, hi⟩ | rfl⟩
    · exact hinv
    · exact hinv
    · exact hinv.withInputByte hidx b
    · exact State.powerOn_inv (c := u.cfg) hcfg
    · exact hinv
    · exact exec_inv i u t hinv hi
    · exact hinv.takeFault (by decide) _

/-- Settles O43: after power-on every limit of the invariant is met by an empty container or a zero. -/
theorem resetMeetsTheInvariant : Obligations.ResetMeetsTheInvariant := by
  unfold Obligations.ResetMeetsTheInvariant
  exact ⟨State.powerOn_inv (c := Config.reference) (by decide), fun c hc => State.powerOn_inv hc⟩

end Sys2Proof.Machine

/-!
PROOFS. The state as the host sees it: `IBUF`, the command words, the resets, the packed words and the host reads;
and what the encoder and decoder commands do not see.
-/

namespace Sys2Proof.Machine

/-! ### IBUF is the host's (R25) -/

/-- R25: no command writes `IBUF`. -/
theorem exec_ibuf (i : Instr) (s t : State) (h : exec i s = .next t) : t.ibuf = s.ibuf := by
  refine exec_keeps (fun u => u.ibuf = s.ibuf) (fun i hi u v hu h => ?_) i s t rfl h
  rw [← hu]
  cases i with
  | bsLd rd => rcases execBsLd_next rd u v h with rfl | rfl | ⟨-, -, -, rfl⟩ <;> rfl
  | bsPushf rd imm8 => rcases execBsPushf_next rd imm8 u v h with ⟨-, rfl⟩ | ⟨-, -, rfl⟩ | ⟨-, -, rfl⟩ <;> rfl
  | bsShr rd => rcases execBsShr_next rd u v h with ⟨-, rfl⟩ | ⟨-, rfl⟩ <;> rfl
  | bsCat rd rs => rcases execBsCat_next rd rs u v h with ⟨-, rfl⟩ | ⟨-, rfl⟩ <;> rfl
  | encCount => rcases execEncCount_next u v h with ⟨-, rfl⟩ | ⟨-, rfl⟩ <;> rfl
  | encTree => rcases execEncTree_next u v h with ⟨-, rfl⟩ | ⟨-, rfl⟩ <;> rfl
  | encTable => rcases execEncTable_next u v h with ⟨-, rfl⟩ | ⟨-, _, -, rfl⟩ <;> rfl
  | encHdr => rcases execEncHdr_next u v h with ⟨_, -, rfl⟩ | ⟨-, rfl⟩ <;> rfl
  | encPack =>
    rcases execEncPack_next u v h with ⟨-, rfl⟩ | ⟨-, ⟨_, -, rfl⟩ | ⟨-, rfl⟩ | ⟨_, -, rfl⟩⟩ <;> rfl
  | decHdr =>
    rcases execDecHdr_next u v h with ⟨-, rfl⟩ | ⟨-, -, rfl⟩ | ⟨-, -, -, ⟨_, -, rfl⟩ | ⟨_, -, rfl⟩⟩ <;> rfl
  | decLoad => rcases execDecLoad_next u v h with ⟨-, rfl⟩ | ⟨-, rfl⟩ | ⟨-, rfl⟩ | ⟨-, -, -, rfl⟩ <;> rfl
  | decStep =>
    rcases execDecStep_next u v h with ⟨-, rfl⟩ | ⟨-, ⟨-, rfl⟩ | ⟨-, -, ⟨-, rfl⟩ | ⟨-, rfl⟩⟩ |
      ⟨-, _, _, -, ⟨-, rfl⟩ | ⟨-, rfl⟩⟩⟩ <;> rfl
  | encAll | decRun | decAll => cases hi
  | sysNop | sysReset | bsClr | bsSt | bsShl | bsStw | bsEq => cases h; rfl

/-- Settles O56: of all a step can do, only a host write of a byte and a power-on reset touch `IBUF`. -/
theorem onlyTheHostWritesTheInputBuffer : Obligations.OnlyTheHostWritesTheInputBuffer := by
  unfold Obligations.OnlyTheHostWritesTheInputBuffer
  intro s t h
  obtain ⟨-, rfl⟩ | ⟨a, rest, u, hscript, rfl, hdone⟩ := step_next s t h
  · exact .inl fun _ => rfl
  · rcases hdone with ⟨r, d, rfl⟩ | ⟨l, i, j, k, m, rfl⟩ | ⟨idx, b, rfl, -, rfl⟩ | ⟨rfl, -⟩ |
      ⟨w, -, rfl | ⟨i, hi⟩ | rfl⟩
    · exact .inl fun _ => rfl
    · exact .inl fun _ => rfl
    · exact .inr (.inr ⟨idx, b, by simp [hscript], fun x hx => Memory.read?_write_other _ _ _ _ hx⟩)
    · exact .inr (.inl (by simp [hscript]))
    · exact .inl fun _ => rfl
    · exact .inl fun _ => by rw [exec_ibuf i _ t hi]
    · exact .inl fun _ => rfl

/-! ### Command words and resets -/

/-- R170 step 4: a command's word is executed when no fault is recorded, and `SYS.RESET` always is. -/
theorem takeCommand_of_decode {w : Word} {i : Instr} {s : State} (hw : decode w = .ok i)
    (hs : s.err = .none ∨ i = .sysReset) : takeCommand w s = exec i s := by
  by_cases hi : i = .sysReset
  · subst hi
    simp [takeCommand, hw]
  · have herr : s.err = .none := hs.resolve_right hi
    unfold takeCommand
    split
    · next h => rw [hw] at h; cases h; exact absurd rfl hi
    · next j _ h => rw [hw] at h; cases h; simp [State.faulted, herr]
    · next e h => rw [hw] at h; cases h

/-- Settles O4: the access is the write of a command word, and that word is taken. -/
theorem stepRunsTheDecodedCommand : Obligations.StepRunsTheDecodedCommand := by
  unfold Obligations.StepRunsTheDecodedCommand
  intro s w rest i hscript hw hs
  rw [step_of_script hscript]
  exact takeCommand_of_decode (s := { s with script := rest }) hw hs

/-- R29: the command reset leaves the values of the table. -/
theorem State.commandReset_atReset (s : State) : s.commandReset.AtReset := by
  exact ⟨fun i => by simp [State.bsReg], rfl, rfl, rfl, rfl, rfl, rfl, rfl, rfl, rfl, rfl, rfl, rfl, rfl, rfl,
    (by decide : State.reset.treeInfo = 0x1FF), rfl, rfl, count_fill, fun i => rfl, Table.slot_empty⟩

/-- Settles O6: both resets write the table of R29, and differ in the buffers alone. -/
theorem resetLeavesTheStatedValues : Obligations.ResetLeavesTheStatedValues := by
  unfold Obligations.ResetLeavesTheStatedValues
  refine ⟨fun s => ⟨_, rfl, fun a => ⟨rfl, rfl⟩, s.commandReset_atReset⟩, fun s rest hscript => ?_,
    State.reset.commandReset_atReset, fun a => ⟨rfl, rfl⟩⟩
  exact ⟨_, step_of_script hscript, fun a => ⟨rfl, rfl⟩, State.commandReset_atReset { s with ibuf := [], obuf := [] }⟩

/-! ### The packed words (R16, R20, R56) -/

theorem statusWord_fields (s : State) :
    (s.statusWord.getLsbD 0 = true ↔ s.err ≠ .none) ∧ s.statusWord.getLsbD 1 = s.tflag ∧
    s.statusWord.extractLsb' 2 2 = (match s.dstate with | .exhausted => 0 | .scanning => 1 | .matched => 2) ∧
    s.statusWord.extractLsb' 4 28 = 0 := by
  have hfault : s.faulted = true ↔ s.err ≠ .none := by simp [State.faulted]
  rw [← hfault, State.statusWord]
  cases s.faulted <;> cases s.tflag <;> cases s.dstate <;> decide

/-- A field of `m` bits put at bit `k` is read back from there. -/
theorem extract_field_same {m : Nat} (x : BitVec m) (k : Nat) (h : k + m ≤ 32) :
    (x.setWidth 32 <<< k).extractLsb' k m = x := by
  ext i hi
  have h32 : k + i < 32 := by omega
  simp [BitVec.getElem_extractLsb', h32, hi]

/-- A field leaves 0 in every range of bits it does not reach into. -/
theorem extract_field_other {m : Nat} (x : BitVec m) (k j w : Nat) (h : j + w ≤ k ∨ k + m ≤ j) :
    (x.setWidth 32 <<< k).extractLsb' j w = 0#w := by
  ext i hi
  rcases h with h | h
  · have hlow : j + i < k := by omega
    simp [BitVec.getElem_extractLsb', hlow]
  · have hhigh : x.getLsbD (j + i - k) = false := BitVec.getLsbD_of_ge _ _ (by omega)
    simp [BitVec.getElem_extractLsb', BitVec.getLsbD_shiftLeft, hhigh]

theorem getLsbD_eq_extract (w : Word) (j : Nat) : w.getLsbD j = (w.extractLsb' j 1).getLsbD 0 := by
  simp

theorem treeInfo_eq (s : State) :
    s.treeInfo = s.root.setWidth 32 <<< 0 ||| (BitVec.ofNat 10 s.nnode).setWidth 32 <<< 16 := by
  simp [State.treeInfo]

theorem nodeWord_eq (n : Node) :
    nodeWord n = (BitVec.ofBool (decide (n.kind = .internal))).setWidth 32 <<< 31 ||| n.sym.setWidth 32 <<< 18 |||
      n.left.setWidth 32 <<< 9 ||| n.right.setWidth 32 <<< 0 := by
  obtain ⟨kind, sym, left, right, occ⟩ := n
  have hleaf : ((0 <<< 31 : Nat) : Word) = (BitVec.ofBool false).setWidth 32 <<< 31 := by decide
  have hinternal : ((1 <<< 31 : Nat) : Word) = (BitVec.ofBool true).setWidth 32 <<< 31 := by decide
  rw [BitVec.shiftLeft_zero]
  cases kind
  · exact congrArg (· ||| _ ||| _ ||| _) hleaf
  · exact congrArg (· ||| _ ||| _ ||| _) hinternal

theorem cwlenWord_some (c : BitSeq) :
    cwlenWord (some c) = (BitVec.ofBool true).setWidth 32 <<< 31 ||| (BitVec.ofNat 8 c.length).setWidth 32 <<< 0 := by
  simp [cwlenWord]

theorem treeInfo_fields (s : State) (h : s.nodes.length ≤ 511) :
    s.treeInfo.extractLsb' 0 9 = s.root ∧ (s.treeInfo.extractLsb' 16 10).toNat = s.nodes.length ∧
    s.treeInfo.extractLsb' 9 7 = 0 ∧ s.treeInfo.extractLsb' 26 6 = 0 := by
  have hn : s.nnode % 1024 = s.nodes.length := Nat.mod_eq_of_lt (by rw [State.nnode]; omega)
  simp [treeInfo_eq, BitVec.extractLsb'_or, extract_field_same, extract_field_other, hn, -BitVec.shiftLeft_zero]

theorem nodeWord_fields (n : Node) :
    ((nodeWord n).getLsbD 31 = true ↔ n.kind = .internal) ∧ (nodeWord n).extractLsb' 26 5 = 0 ∧
    (nodeWord n).extractLsb' 18 8 = n.sym ∧ (nodeWord n).extractLsb' 9 9 = n.left ∧
    (nodeWord n).extractLsb' 0 9 = n.right := by
  rw [getLsbD_eq_extract, nodeWord_eq]
  simp [BitVec.extractLsb'_or, extract_field_same, extract_field_other, -BitVec.shiftLeft_zero]

theorem cwlenWord_fields (slot : Option BitSeq) (h : ∀ c, slot = some c → c.length ≤ 255) :
    (cwlenWord slot).getLsbD 31 = slot.isSome ∧ (cwlenWord slot).extractLsb' 8 23 = 0 ∧
    ((cwlenWord slot).extractLsb' 0 8).toNat = (slot.getD []).length := by
  cases slot with
  | none => decide
  | some c =>
    have hc : c.length % 256 = c.length := Nat.mod_eq_of_lt (Nat.lt_succ_of_le (h c rfl))
    rw [getLsbD_eq_extract, cwlenWord_some]
    simp [BitVec.extractLsb'_or, extract_field_same, extract_field_other, hc, -BitVec.shiftLeft_zero]

/-- Settles O47: every packed word is the `or` of its fields at their bits, so each range of bits shows one field or
none. -/
theorem packedWordsHoldTheirFields : Obligations.PackedWordsHoldTheirFields := by
  unfold Obligations.PackedWordsHoldTheirFields
  exact ⟨rfl, statusWord_fields, treeInfo_fields, nodeWord_fields, cwlenWord_fields⟩

/-! ### Host reads (R44) -/

/-- R7: a byte whose bits are those of the sequence from bit `8 * j` on is backing byte `j`. -/
theorem eq_byteAt_of_bits {q : BitSeq} {j : Nat} {b : Byte}
    (h : ∀ k < 8, b.getLsbD (7 - k) = q.getD (8 * j + k) false) : b = byteAt q j := by
  refine BitVec.eq_of_getLsbD_eq fun i hi => ?_
  have hk : 7 - (7 - i) = i := by omega
  rw [← hk, h (7 - i) (by omega), byteAt_getLsbD q j (7 - i) (by omega)]

theorem backingRead_of_bits {q : BitSeq} {j : Nat} {b : Byte} (hj : j < (q.length + 7) / 8)
    (h : ∀ k < 8, b.getLsbD (7 - k) = q.getD (8 * j + k) false) : backingRead q j = .value (.byte b) := by
  rw [eq_byteAt_of_bits h]
  exact if_pos hj

/-- R14, R40, R44, R56: where the state shows an element, a host read finds it. -/
theorem hostRead_of_shows {s : State} {space : Space} {idx : Nat} {e : Elem} (h : s.Shows space idx e) :
    s.hostRead space idx = .value e := by
  cases space with
  | reg =>
    obtain ⟨hidx, rfl⟩ := h
    interval_cases idx <;> rfl
  | ibuf =>
    obtain ⟨hcap, b, hb, rfl⟩ := h
    simp [State.hostRead, hcap, hb, ReadResult.ofByte?]
  | obuf =>
    obtain ⟨hcap, holen, b, hb, rfl⟩ := h
    simp [State.hostRead, hcap, holen, hb, ReadResult.ofByte?]
  | payb =>
    obtain ⟨hcap, hlen, b, hb, rfl⟩ := h
    simp [State.hostRead, hcap, backingRead_of_bits hlen hb]
  | freq =>
    obtain ⟨x, rfl, rfl⟩ := h
    simp [State.hostRead, x.isLt]
  | node =>
    obtain ⟨i, hi, ⟨rfl, rfl⟩ | ⟨rfl, rfl⟩⟩ := h
    · have hcap : 2 * i < 1022 := by omega
      simp [State.hostRead, State.nodeView, hcap]
    · have hcap : 2 * i + 1 < 1022 := by omega
      have hdiv : (2 * i + 1) / 2 = i := by omega
      have hmod : (2 * i + 1) % 2 = 1 := by omega
      simp [State.hostRead, State.nodeView, hcap, hdiv, hmod]
  | cwlen =>
    obtain ⟨x, rfl, rfl⟩ := h
    simp [State.hostRead, x.isLt]
  | cwdata =>
    obtain ⟨x, c, j, rfl, hj, hslot, hlen, b, hb, rfl⟩ := h
    have hcap : 32 * x.toNat + j < 8192 := by have := x.isLt; omega
    have hdiv : (32 * x.toNat + j) / 32 = x.toNat := by omega
    have hmod : (32 * x.toNat + j) % 32 = j := by omega
    simp [State.hostRead, hcap, hdiv, hmod, hslot, slotBits, backingRead_of_bits hlen hb]

/-- Settles O48: a read that finds an element hands it over and changes nothing else. -/
theorem hostReadsShowTheState : Obligations.HostReadsShowTheState := by
  unfold Obligations.HostReadsShowTheState
  intro s space idx rest e hscript hshows
  have hread : State.hostRead { s with script := rest } space idx = .value e :=
    hostRead_of_shows (s := { s with script := rest }) (by cases space <;> exact hshows)
  refine ⟨_, ?_, rfl⟩
  rw [step_of_script hscript, perform, performRead, hread]

/-! ### What the encoder and the decoder do not see (R12, R26) -/

/-- A result with its next state changed by `g`. -/
def mapNext (g : State → State) : Result → Result
  | .next t => .next (g t)
  | .fault f => .fault f
  | .refused r => .refused r

theorem mapNext_next {g : State → State} {r : Result} {t : State} (h : r = .next t) :
    mapNext g r = .next (g t) := by
  rw [h]; rfl

/-- A command that does the same after the change `g` of the state as before it, and leaves what `g` changes. -/
def Commutes (g : State → State) (f : State → Result) : Prop := ∀ s, f (g s) = mapNext g (f s)

section
variable {g : State → State} {f₁ f₂ : State → Result}

/-- R173: a composite command commutes with what both its parts commute with. -/
theorem Commutes.andThen (herr : ∀ s, (g s).err = s.err) (h₁ : Commutes g f₁) (h₂ : Commutes g f₂) :
    Commutes g fun s => andThen (f₁ s) f₂ := by
  intro s
  simp only [h₁ s]
  cases f₁ s with
  | next t => by_cases ht : t.err = .none <;> simp [mapNext, Machine.andThen, ht, herr, h₂ t]
  | fault f => rfl
  | refused r => rfl

/-- R153: so does the decoder's loop, whose condition `g` leaves alone. -/
theorem Commutes.stepLoop (herr : ∀ s, (g s).err = s.err) (hdstate : ∀ s, (g s).dstate = s.dstate)
    (hstep : Commutes g execDecStep) (fuel : Nat) : Commutes g (stepLoop fuel) := by
  induction fuel with
  | zero => exact fun s => rfl
  | succ fuel ih =>
    intro s
    simp only [Machine.stepLoop, hdstate]
    split
    · exact Commutes.andThen herr hstep ih s
    · rfl

end

/-- The state with other contents of the `BS` registers and of `T`. -/
def State.withBsT (v : Vector BitSeq 4) (b : Bool) (s : State) : State := { s with bs := v, tflag := b }

section
variable (v : Vector BitSeq 4) (b : Bool)

theorem execEncCount_commutes : Commutes (State.withBsT v b) execEncCount := by
  intro s
  simp only [execEncCount, apply_ite (mapNext _)]
  rfl

theorem execEncTree_commutes : Commutes (State.withBsT v b) execEncTree := by
  intro s
  simp only [execEncTree, apply_ite (mapNext _)]
  rfl

theorem execEncTable_commutes : Commutes (State.withBsT v b) execEncTable := by
  intro s
  have hsame : deriveTable (s.withBsT v b).nodes (s.withBsT v b).root = deriveTable s.nodes s.root := rfl
  simp only [execEncTable, hsame, apply_ite (mapNext _)]
  cases deriveTable s.nodes s.root <;> rfl

theorem execEncHdr_commutes : Commutes (State.withBsT v b) execEncHdr := by
  intro s
  have hsame : (s.withBsT v b).cw = s.cw := rfl
  simp only [execEncHdr, hsame]
  cases s.cw.pairs.find? fun p => overlong p.2 <;> rfl

theorem execEncPack_commutes : Commutes (State.withBsT v b) execEncPack := by
  intro s
  have hsame : packLoop (s.withBsT v b).cw (s.withBsT v b).cfg.payCap 0 [] (s.withBsT v b).input =
    packLoop s.cw s.cfg.payCap 0 [] s.input := rfl
  simp only [execEncPack, hsame, apply_ite (mapNext _)]
  cases packLoop s.cw s.cfg.payCap 0 [] s.input <;> rfl

theorem execDecHdr_commutes : Commutes (State.withBsT v b) execDecHdr := by
  intro s
  have hsame : parseEntries (s.withBsT v b).ibufByte (s.withBsT v b).headerExtent (s.withBsT v b).headerExtent 4
      Table.empty = parseEntries s.ibufByte s.headerExtent s.headerExtent 4 Table.empty := rfl
  simp only [execDecHdr, hsame, apply_ite (mapNext _)]
  cases parseEntries s.ibufByte s.headerExtent s.headerExtent 4 Table.empty <;> rfl

theorem execDecLoad_commutes : Commutes (State.withBsT v b) execDecLoad := by
  intro s
  simp only [execDecLoad, apply_ite (mapNext _)]
  rfl

theorem execDecStep_commutes : Commutes (State.withBsT v b) execDecStep := by
  intro s
  have hsame : matchSymbol (s.withBsT v b).pay (s.withBsT v b).cw = matchSymbol s.pay s.cw := rfl
  simp only [execDecStep, hsame, apply_ite (mapNext _)]
  cases matchSymbol s.pay s.cw <;> simp only [apply_ite (mapNext _)] <;> rfl

theorem execDecRun_commutes : Commutes (State.withBsT v b) execDecRun := by
  have hloop (fuel : Nat) : Commutes (State.withBsT v b) (stepLoop fuel) :=
    Commutes.stepLoop (g := State.withBsT v b) (fun _ => rfl) (fun _ => rfl) (execDecStep_commutes v b) fuel
  exact Commutes.andThen (fun _ => rfl) (execDecLoad_commutes v b) fun s => hloop (s.pay.length + 1) s

/-- R12, R26: no encoder or decoder command sees or writes a `BS` register or `T`. -/
theorem exec_commutes_withBsT (i : Instr) (hi : i.usesBs = false) : Commutes (State.withBsT v b) (exec i) := by
  have herr : ∀ s, (State.withBsT v b s).err = s.err := fun _ => rfl
  cases i with
  | sysNop => exact fun _ => rfl
  | encCount => exact execEncCount_commutes v b
  | encTree => exact execEncTree_commutes v b
  | encTable => exact execEncTable_commutes v b
  | encHdr => exact execEncHdr_commutes v b
  | encPack => exact execEncPack_commutes v b
  | encAll =>
    have htree := (execEncCount_commutes v b).andThen herr (execEncTree_commutes v b)
    have htable := htree.andThen herr (execEncTable_commutes v b)
    have hhdr := htable.andThen herr (execEncHdr_commutes v b)
    exact hhdr.andThen herr (execEncPack_commutes v b)
  | decHdr => exact execDecHdr_commutes v b
  | decLoad => exact execDecLoad_commutes v b
  | decStep => exact execDecStep_commutes v b
  | decRun => exact execDecRun_commutes v b
  | decAll => exact (execDecHdr_commutes v b).andThen herr (execDecRun_commutes v b)
  | sysReset | bsClr | bsLd | bsSt | bsPushf | bsShr | bsShl | bsCat | bsStw | bsEq => cases hi

end

/-- What a command commutes with, it leaves as it is. -/
theorem Commutes.unchanged {g : State → State} {f : State → Result} {s t : State} (hf : Commutes g f)
    (h : f s = .next t) (hs : g s = s) : g t = t := by
  have hg := hf s
  rw [hs, h] at hg
  exact (Host.Outcome.next.inj hg).symm

/-- R12, R26: the encoder and decoder commands leave the `BS` registers and `T`. -/
theorem exec_leaves_bs_tflag {i : Instr} {s t : State} (hi : i.usesBs = false) (h : exec i s = .next t) :
    t.bs = s.bs ∧ t.tflag = s.tflag := by
  have ht := (exec_commutes_withBsT s.bs s.tflag i hi).unchanged h rfl
  rw [← ht]
  exact ⟨rfl, rfl⟩

/-- Settles O54: such a command commutes with any change of the `BS` registers. -/
theorem onlySequenceCommandsTouchTheRegisters : Obligations.OnlySequenceCommandsTouchTheRegisters := by
  unfold Obligations.OnlySequenceCommandsTouchTheRegisters
  intro i s v hi t h
  obtain ⟨hbs, htflag⟩ := exec_leaves_bs_tflag hi h
  have ht : t.withBsT v s.tflag = { t with bs := v } := by rw [← htflag]; rfl
  exact ⟨hbs, ((exec_commutes_withBsT v s.tflag i hi s).trans (mapNext_next h)).trans (congrArg _ ht)⟩

/-- R26: of the commands that do not write `T`, none sees it. -/
theorem exec_commutes_setT (b : Bool) (i : Instr) (hi : i.writesT = false) : Commutes (·.setT b) (exec i) := by
  intro s
  cases hbs : i.usesBs with
  | false =>
    have hrun := exec_commutes_withBsT s.bs b i hbs s
    cases h : exec i s with
    | next t =>
      rw [h] at hrun
      obtain ⟨hbs', -⟩ := exec_leaves_bs_tflag hbs h
      have ht : t.withBsT s.bs b = t.setT b := by rw [← hbs']; rfl
      exact hrun.trans (congrArg Host.Outcome.next ht)
    | fault f => rw [h] at hrun; exact hrun
    | refused r => rw [h] at hrun; exact hrun
  | true =>
    cases i with
    | bsLd rd => simp only [exec, execBsLd, apply_ite (mapNext _)]; rfl
    | bsShr rd => simp only [exec, execBsShr, apply_ite (mapNext _)]; rfl
    | bsCat rd rs => simp only [exec, execBsCat, apply_ite (mapNext _)]; rfl
    | bsPushf rd imm8 =>
      have hsame : pushFrontBit ((s.setT b).bsReg rd) imm8 = pushFrontBit (s.bsReg rd) imm8 := rfl
      simp only [exec, execBsPushf, hsame]
      cases pushFrontBit (s.bsReg rd) imm8 <;> simp only [apply_ite (mapNext _)] <;> rfl
    | bsClr | bsSt | bsShl => rfl
    | sysReset | bsStw | bsEq => cases hi
    | sysNop | encCount | encTree | encTable | encHdr | encPack | encAll | decHdr | decLoad | decStep | decRun
    | decAll => cases hbs

/-- Settles O55: a command that does not write `T` commutes with a change of it, and one that does overwrites it. -/
theorem theTestFlagIsForTheHostAlone : Obligations.TheTestFlagIsForTheHostAlone := by
  unfold Obligations.TheTestFlagIsForTheHostAlone
  intro i s t b h
  constructor
  · intro hi
    have ht : t.setT s.tflag = t := (exec_commutes_setT s.tflag i hi).unchanged h rfl
    exact ⟨by rw [← ht]; rfl, (exec_commutes_setT b i hi s).trans (mapNext_next h)⟩
  · intro hi
    cases i with
    | sysReset | bsStw | bsEq => exact h
    | _ => cases hi

end Sys2Proof.Machine

/-!
PROOFS. The rights of host accesses and what they store (R44 to R46), that every command completes (R171), and the
frames of the commands (R49).
-/

namespace Sys2Proof.Machine

/-! ### Host writes (R44, R45) -/

/-- Settles O50: each such write is one update of the state, and a byte written to `IBUF` is the one read back. -/
theorem hostWritesStoreTheirElement : Obligations.HostWritesStoreTheirElement := by
  unfold Obligations.HostWritesStoreTheirElement
  refine ⟨fun s idx b rest hscript hidx => ?_, fun s v rest => ⟨?_, ?_, ?_, ?_, ?_⟩⟩
  · have hstep : step s = .next { s with script := rest, ibuf := s.ibuf.write idx b } :=
      (step_of_script hscript).trans (if_pos hidx)
    exact ⟨_, hstep, Memory.read?_write_same _ _ _, Memory.read?_write_other s.ibuf idx b, rfl⟩
  all_goals exact step_of_script

/-! ### Every command completes (R171) -/

/-- The command answers a next state, and that state has the invariant (R30, R171). -/
def CompletesInv (r : Result) : Prop := ∃ t, r = .next t ∧ t.Inv

/-- R173: so does a sequence of two commands that do. -/
theorem CompletesInv.andThen {first : Result} {next : State → Result} (hfirst : CompletesInv first)
    (hnext : ∀ u : State, u.Inv → CompletesInv (next u)) : CompletesInv (andThen first next) := by
  obtain ⟨u, rfl, hu⟩ := hfirst
  by_cases herr : u.err = .none
  · simpa [Machine.andThen, herr] using hnext u hu
  · exact ⟨u, by simp [Machine.andThen, herr], hu⟩

/-- R118: where every child is below its parent, the walk down from an entry ends within one round per index. -/
theorem deriveCodes_isSome (nodes : List Node)
    (hdown : ∀ k < nodes.length, ∀ c ∈ (nodeAt nodes k).children, c < k) (fuel i : Nat) (h : i < fuel) :
    (deriveCodes nodes fuel i).isSome = true := by
  induction fuel generalizing i with
  | zero => omega
  | succ fuel ih =>
    rw [deriveCodes]
    cases hk : (nodeAt nodes i).kind with
    | leaf => rfl
    | internal =>
      have hi := (internalsBelow_succ nodes i hk).1
      have hbelow (c : Nat) (hc : c ∈ (nodeAt nodes i).children) : ∃ l, deriveCodes nodes fuel c = some l := by
        have := hdown i hi c hc
        exact Option.isSome_iff_exists.mp (ih c (by omega))
      obtain ⟨l, hl⟩ := hbelow (nodeAt nodes i).left.toNat (by simp [Node.children, hk])
      obtain ⟨r, hr⟩ := hbelow (nodeAt nodes i).right.toNat (by simp [Node.children, hk])
      simp [hl, hr]

/-- R22, R118: a tree has a table. -/
theorem TreeShape.deriveTable_isSome {nodes : List Node} {root : NodeIdx} (h : TreeShape nodes root) :
    (deriveTable nodes root).isSome = true := by
  obtain ⟨-, -, rfl, hdown, -⟩ := h
  have hroot : (BitVec.ofNat 9 (nodes.length - 1)).toNat < nodes.length + 1 := by
    rw [BitVec.toNat_ofNat]
    omega
  simpa [deriveTable] using deriveCodes_isSome nodes hdown _ _ hroot

theorem execEncTable_completes (s : State) (hs : s.Inv) : ∃ t, execEncTable s = .next t := by
  have ⟨_, _, _, _, _, harena⟩ := hs
  by_cases hroot : s.root = NodeIdx.nil
  · exact ⟨_, if_pos hroot⟩
  · have htree : TreeShape s.nodes s.root := harena.resolve_left fun h => hroot h.2
    obtain ⟨T, hT⟩ := Option.isSome_iff_exists.mp htree.deriveTable_isSome
    exact ⟨{ s with cw := T }, by simp [execEncTable, hroot, hT]⟩

/-- R171: of the primitive commands only `ENC.TABLE` needs the invariant to complete. -/
theorem exec_completes_of_primitive (i : Instr) (hi : isComposite i = false) (s : State) (hs : s.Inv) :
    ∃ t, exec i s = .next t := by
  cases i with
  | encTable => exact execEncTable_completes s hs
  | decStep => exact execDecStep_completes s
  | sysNop | sysReset | bsClr | bsSt | bsShl | bsStw | bsEq => exact ⟨_, rfl⟩
  | bsLd rd => simp only [exec, execBsLd]; split_ifs <;> exact ⟨_, rfl⟩
  | bsPushf rd imm8 =>
    simp only [exec, execBsPushf]
    split
    · exact ⟨_, rfl⟩
    · split_ifs <;> exact ⟨_, rfl⟩
  | bsShr rd => simp only [exec, execBsShr]; split_ifs <;> exact ⟨_, rfl⟩
  | bsCat rd rs => simp only [exec, execBsCat]; split_ifs <;> exact ⟨_, rfl⟩
  | encCount => simp only [exec, execEncCount]; split_ifs <;> exact ⟨_, rfl⟩
  | encTree => simp only [exec, execEncTree]; split_ifs <;> exact ⟨_, rfl⟩
  | encHdr => simp only [exec, execEncHdr]; split <;> exact ⟨_, rfl⟩
  | encPack =>
    simp only [exec, execEncPack]
    split
    · exact ⟨_, rfl⟩
    · split <;> exact ⟨_, rfl⟩
  | decHdr =>
    simp only [exec, execDecHdr]
    split_ifs
    · exact ⟨_, rfl⟩
    · exact ⟨_, rfl⟩
    · exact ⟨_, rfl⟩
    · split <;> exact ⟨_, rfl⟩
  | decLoad => simp only [exec, execDecLoad]; split_ifs <;> exact ⟨_, rfl⟩
  | encAll | decRun | decAll => cases hi

/-- R30, R171: every command completes and keeps the invariant. -/
theorem exec_completesInv (i : Instr) (s : State) (hs : s.Inv) : CompletesInv (exec i s) := by
  have hprimitive (i : Instr) (hi : isComposite i = false) (s : State) (hs : s.Inv) : CompletesInv (exec i s) := by
    obtain ⟨t, ht⟩ := exec_completes_of_primitive i hi s hs
    exact ⟨t, ht, exec_inv i s t hs ht⟩
  have hloop (fuel : Nat) (s : State) (hs : s.Inv) : CompletesInv (stepLoop fuel s) := by
    induction fuel generalizing s with
    | zero => exact ⟨s, rfl, hs⟩
    | succ fuel ih =>
      rw [stepLoop]
      split
      · exact (hprimitive .decStep rfl s hs).andThen ih
      · exact ⟨s, rfl, hs⟩
  have hrun (s : State) (hs : s.Inv) : CompletesInv (exec .decRun s) :=
    (hprimitive .decLoad rfl s hs).andThen fun u => hloop (u.pay.length + 1) u
  cases hi : isComposite i with
  | false => exact hprimitive i hi s hs
  | true =>
    cases i with
    | encAll =>
      exact ((((hprimitive .encCount rfl s hs).andThen (hprimitive .encTree rfl)).andThen
        (hprimitive .encTable rfl)).andThen (hprimitive .encHdr rfl)).andThen (hprimitive .encPack rfl)
    | decRun => exact hrun s hs
    | decAll => exact (hprimitive .decHdr rfl s hs).andThen hrun
    | _ => cases hi

/-! ### Rights (R44, R46) -/

/-- The access is one that the rights table does not allow (R44, R45). -/
def denied (c : Config) : HostAction → Bool
  | .read space idx => !readAllowed c space idx
  | .write space idx value => !writeAllowed c space idx value
  | .powerOnReset => false

theorem readReg_refused_iff (s : State) (idx : Nat) : s.readReg idx = .refused ↔ 11 < idx := by
  by_cases h : 11 < idx
  · obtain ⟨k, rfl⟩ := Nat.exists_eq_add_of_le' (Nat.succ_le_of_lt h)
    exact iff_of_true rfl h
  · refine iff_of_false ?_ h
    interval_cases idx <;> nofun

theorem backingRead_ne_refused (q : BitSeq) (j : Nat) : backingRead q j ≠ .refused := by
  unfold backingRead
  split <;> nofun

theorem ofByte?_ne_refused (b : Option Byte) : ReadResult.ofByte? b ≠ .refused := by
  cases b <;> nofun

/-- R44: a read is refused exactly when the rights table does not allow it. -/
theorem hostRead_refused_iff (s : State) (space : Space) (idx : Nat) :
    s.hostRead space idx = .refused ↔ readAllowed s.cfg space idx = false := by
  cases space with
  | reg => simp [State.hostRead, readAllowed, readReg_refused_iff]
  | ibuf => simp [State.hostRead, readAllowed, ofByte?_ne_refused]
  | obuf => simp [State.hostRead, readAllowed, ite_eq_iff, ofByte?_ne_refused]
  | payb => simp [State.hostRead, readAllowed, backingRead_ne_refused]
  | freq => simp [State.hostRead, readAllowed]; omega
  | node => simp [State.hostRead, readAllowed]; omega
  | cwlen => simp [State.hostRead, readAllowed]; omega
  | cwdata => simp [State.hostRead, readAllowed, backingRead_ne_refused]; omega

/-- R171: the taking of a command word completes, whatever the word is. -/
theorem takeCommand_completes (w : Word) (s : State) (hs : s.Inv) : ∃ t, takeCommand w s = .next t := by
  have hexec (i : Instr) : ∃ t, exec i s = .next t := by
    obtain ⟨t, ht, -⟩ := exec_completesInv i s hs
    exact ⟨t, ht⟩
  unfold takeCommand
  split
  · exact hexec .sysReset
  · split
    · exact ⟨_, rfl⟩
    · exact hexec _
  · split <;> exact ⟨_, rfl⟩

theorem performWrite_completes (space : Space) (idx : Nat) (value : Elem) (s : State) (hs : s.Inv)
    (h : writeAllowed s.cfg space idx value = true) : ∃ t, performWrite space idx value s = .next t := by
  unfold writeAllowed at h
  split at h
  · next w =>
    simp only [List.mem_cons, List.not_mem_nil, or_false, decide_eq_true_eq] at h
    rcases h with rfl | rfl | rfl | rfl | rfl | rfl
    · exact takeCommand_completes w s hs
    all_goals exact ⟨_, rfl⟩
  · exact ⟨_, if_pos (of_decide_eq_true h)⟩
  · cases h

theorem performWrite_refused (space : Space) (idx : Nat) (value : Elem) (s : State)
    (h : writeAllowed s.cfg space idx value = false) : ∃ r, performWrite space idx value s = .refused r := by
  unfold performWrite
  split
  · simp only [writeAllowed, List.mem_cons, List.not_mem_nil, or_false, decide_eq_false_iff_not, not_or] at h
    unfold writeReg
    split <;> simp at h ⊢
  · exact ⟨_, if_neg (of_decide_eq_false h)⟩
  all_goals exact ⟨_, rfl⟩

/-- R44, R45, R171: an access that is allowed completes. -/
theorem perform_completes (a : HostAction) (s : State) (hs : s.Inv) (h : denied s.cfg a = false) :
    ∃ t, perform a s = .next t := by
  cases a with
  | read space idx =>
    have hread : s.hostRead space idx ≠ .refused := fun hr => by
      simp [denied, (hostRead_refused_iff s space idx).mp hr] at h
    rw [perform, performRead]
    cases hr : s.hostRead space idx with
    | refused => exact absurd hr hread
    | _ => exact ⟨_, rfl⟩
  | write space idx value => exact performWrite_completes space idx value s hs (by simpa [denied] using h)
  | powerOnReset => exact ⟨_, rfl⟩

/-- R46: an access that is denied is refused. -/
theorem perform_refused (a : HostAction) (s : State) (h : denied s.cfg a = true) :
    ∃ r, perform a s = .refused r := by
  cases a with
  | read space idx =>
    have hread : s.hostRead space idx = .refused := (hostRead_refused_iff s space idx).mpr (by simpa [denied] using h)
    exact ⟨.hostReadRefused space idx, by rw [perform, performRead, hread]⟩
  | write space idx value => exact performWrite_refused space idx value s (by simpa [denied] using h)
  | powerOnReset => cases h

theorem exists_denied_iff (c : Config) (next : Option HostAction) :
    (∃ a, next = some a ∧ denied c a = true) ↔
      (∃ space idx, next = some (.read space idx) ∧ readAllowed c space idx = false) ∨
      ∃ space idx value, next = some (.write space idx value) ∧ writeAllowed c space idx value = false := by
  constructor
  · rintro ⟨⟨space, idx⟩ | ⟨space, idx, value⟩ | _, hnext, hdenied⟩
    · exact .inl ⟨space, idx, hnext, by simpa [denied] using hdenied⟩
    · exact .inr ⟨space, idx, value, hnext, by simpa [denied] using hdenied⟩
    · cases hdenied
  · rintro (⟨space, idx, hnext, hallowed⟩ | ⟨space, idx, value, hnext, hallowed⟩) <;>
      exact ⟨_, hnext, by simp [denied, hallowed]⟩

/-- Settles O46: the step performs the next access, which completes when it is allowed and is refused when it is
denied. -/
theorem onlyDeniedAccessesAreRefused : Obligations.OnlyDeniedAccessesAreRefused := by
  unfold Obligations.OnlyDeniedAccessesAreRefused
  intro s hs
  rw [← exists_denied_iff]
  cases hscript : s.script with
  | nil => simp [step, hostStep_idle s hscript]
  | cons a rest =>
    rw [step_of_script hscript]
    cases hdenied : denied s.cfg a with
    | true =>
      obtain ⟨r, hr⟩ := perform_refused a { s with script := rest } hdenied
      simp [hr, hdenied]
    | false =>
      obtain ⟨t, ht⟩ := perform_completes a { s with script := rest } hs hdenied
      simp [ht, hdenied]

/-! ### Frames of the BS commands (R49) -/

/-- R49: what a command does that writes at most the register `BS[rd]`: that, or a fault that leaves `DSTATE`. -/
theorem exec_writesBs_next {rd rs : Fin 4} {imm8 : Nat} {i : Instr}
    (hi : i ∈ [Instr.bsClr rd, .bsLd rd, .bsPushf rd imm8, .bsShr rd, .bsShl rd, .bsCat rd rs]) {s t : State}
    (h : exec i s = .next t) :
    (∃ code info, code ≠ .decodeExhausted ∧ t = s.takeFault code info) ∨
      ∃ v d, t = { s.setBs rd v with draws := d } := by
  simp only [List.mem_cons, List.not_mem_nil, or_false] at hi
  rcases hi with rfl | rfl | rfl | rfl | rfl | rfl
  · cases h; exact .inr ⟨_, _, rfl⟩
  · rcases execBsLd_next rd s t h with h | h | ⟨-, -, -, h⟩
    · exact .inl ⟨_, _, by decide, h⟩
    · exact .inl ⟨_, _, by decide, h⟩
    · exact .inr ⟨_, _, h⟩
  · rcases execBsPushf_next rd imm8 s t h with ⟨-, h⟩ | ⟨-, -, h⟩ | ⟨-, -, h⟩
    · exact .inl ⟨_, _, by decide, h⟩
    · exact .inl ⟨_, _, by decide, h⟩
    · exact .inr ⟨_, _, h⟩
  · rcases execBsShr_next rd s t h with ⟨-, h⟩ | ⟨-, h⟩
    · exact .inl ⟨_, _, by decide, h⟩
    · exact .inr ⟨_, _, h⟩
  · cases h; exact .inr ⟨_, _, rfl⟩
  · rcases execBsCat_next rd rs s t h with ⟨-, h⟩ | ⟨-, h⟩
    · exact .inl ⟨_, _, by decide, h⟩
    · exact .inr ⟨_, _, h⟩

/-- R150, R190: a fault other than `DecodeExhausted` leaves the decoder's state. -/
theorem State.takeFault_eq {code : ErrCode} (hcode : code ≠ .decodeExhausted) (info : Nat) (s : State) :
    s.takeFault code info = { s with err := code, errinfo := BitVec.ofNat 32 info, draws := s.draws + 1 } := by
  simp [State.takeFault, dstateAfterFault, hcode]

/-- A write of bytes at the front of a buffer leaves the bytes beyond them. -/
theorem Memory.read?_writeBytes_beyond (m : Memory) (bytes : List Byte) {a : Nat} (h : bytes.length ≤ a) :
    (m.writeBytes 0 bytes).read? a = m.read? a := by
  rw [Memory.read?_writeBytes, if_neg (by omega)]

/-- Settles O51: a `BS` command writes one register, the flag `T`, or the output of `BS.ST`, or it takes a fault. -/
theorem frameOfTheSequenceCommands : Obligations.FrameOfTheSequenceCommands := by
  unfold Obligations.FrameOfTheSequenceCommands
  intro s t rd rs imm8
  refine ⟨fun i hi h => ?_, fun i hi h => ?_, fun h => ?_⟩
  · rcases exec_writesBs_next hi h with ⟨code, info, hcode, rfl⟩ | ⟨v, d, rfl⟩
    · rw [State.takeFault_eq hcode]
      exact ⟨fun j _ => rfl, rfl⟩
    · exact ⟨fun j hj => State.bsReg_setBs_other s rd j v hj, rfl⟩
  · simp only [List.mem_cons, List.not_mem_nil, or_false] at hi
    rcases hi with rfl | rfl <;> (cases h; rfl)
  · cases h
    refine ⟨fun a ha => Memory.read?_writeBytes_beyond _ _ ?_, rfl⟩
    rwa [backingBytes_length]

/-! ### Frames of the ENC commands (R49) -/

/-- R49: `s` with the fields that an `ENC` command may write, and the fault record, as in `t`. -/
def State.withEncFields (s t : State) : State :=
  { s with
    freq := t.freq, nodes := t.nodes, root := t.root, cw := t.cw, obuf := t.obuf, olen := t.olen, hlen := t.hlen,
    pay := t.pay, err := t.err, errinfo := t.errinfo, draws := t.draws }

section
variable {s t : State}

theorem execEncCount_frame (h : execEncCount s = .next t) :
    t = { s with freq := t.freq, err := t.err, errinfo := t.errinfo, draws := t.draws } := by
  rcases execEncCount_next s t h with ⟨-, rfl⟩ | ⟨-, rfl⟩ <;> rfl

theorem execEncTree_frame (h : execEncTree s = .next t) :
    t = { s with nodes := t.nodes, root := t.root, err := t.err, errinfo := t.errinfo, draws := t.draws } := by
  rcases execEncTree_next s t h with ⟨-, rfl⟩ | ⟨-, rfl⟩ <;> rfl

theorem execEncTable_frame (h : execEncTable s = .next t) :
    t = { s with cw := t.cw, err := t.err, errinfo := t.errinfo, draws := t.draws } := by
  rcases execEncTable_next s t h with ⟨-, rfl⟩ | ⟨-, _, -, rfl⟩ <;> rfl

theorem execEncHdr_frame (h : execEncHdr s = .next t) :
    t = { s with obuf := t.obuf, olen := t.olen, hlen := t.hlen, err := t.err, errinfo := t.errinfo,
                 draws := t.draws } := by
  rcases execEncHdr_next s t h with ⟨_, -, rfl⟩ | ⟨-, rfl⟩ <;> rfl

theorem execEncPack_frame (h : execEncPack s = .next t) :
    t = { s with pay := t.pay, err := t.err, errinfo := t.errinfo, draws := t.draws } := by
  rcases execEncPack_next s t h with ⟨-, rfl⟩ | ⟨-, ⟨_, -, rfl⟩ | ⟨-, rfl⟩ | ⟨_, -, rfl⟩⟩ <;> rfl

/-- R121: `ENC.HDR` stores to the bytes of the header alone. -/
theorem execEncHdr_obuf (h : execEncHdr s = .next t) (a : Nat) (ha : (headerBytes s.cw).length ≤ a) :
    t.obuf.read? a = s.obuf.read? a := by
  rcases execEncHdr_next s t h with ⟨_, -, rfl⟩ | ⟨-, rfl⟩
  · rfl
  · exact Memory.read?_writeBytes_beyond _ _ ha

/-- R128: as far as the table, `ENC.ALL` has written its fields alone, and nothing of `OBUF`. -/
def EncodedSilently (s u : State) : Prop := u = s.withEncFields u ∧ u.obuf = s.obuf

/-- R128: from the header on, `ENC.ALL` has written no byte of `OBUF` beyond the header of the table. -/
def EncodedBelowHeader (s u : State) : Prop :=
  u = s.withEncFields u ∧ ∀ a, (headerBytes u.cw).length ≤ a → u.obuf.read? a = s.obuf.read? a

theorem State.withEncFields_trans {u v : State} (hu : u = s.withEncFields u) (hv : v = u.withEncFields v) :
    v = s.withEncFields v :=
  hv.trans (by rw [hu]; rfl)

theorem EncodedSilently.step {u v : State} (hu : EncodedSilently s u) (hframe : v = u.withEncFields v)
    (hobuf : v.obuf = u.obuf) : EncodedSilently s v :=
  ⟨State.withEncFields_trans hu.1 hframe, hobuf.trans hu.2⟩

theorem EncodedSilently.belowHeader {u : State} (hu : EncodedSilently s u) : EncodedBelowHeader s u :=
  ⟨hu.1, fun a _ => by rw [hu.2]⟩

theorem EncodedBelowHeader.step {u v : State} (hu : EncodedBelowHeader s u) (hframe : v = u.withEncFields v)
    (hcw : v.cw = u.cw) (hobuf : ∀ a, (headerBytes u.cw).length ≤ a → v.obuf.read? a = u.obuf.read? a) :
    EncodedBelowHeader s v := by
  refine ⟨State.withEncFields_trans hu.1 hframe, fun a ha => ?_⟩
  rw [hcw] at ha
  exact (hobuf a ha).trans (hu.2 a ha)

theorem execEncAll_frame (h : execEncAll s = .next t) : EncodedBelowHeader s t := by
  have hcount (u : State) (h : execEncCount s = .next u) : EncodedSilently s u :=
    EncodedSilently.step ⟨rfl, rfl⟩ (by rw [execEncCount_frame h]; rfl) (by rw [execEncCount_frame h])
  have htree (u v : State) (hu : EncodedSilently s u) (h : execEncTree u = .next v) : EncodedSilently s v :=
    hu.step (by rw [execEncTree_frame h]; rfl) (by rw [execEncTree_frame h])
  have htable (u v : State) (hu : EncodedSilently s u) (h : execEncTable u = .next v) : EncodedSilently s v :=
    hu.step (by rw [execEncTable_frame h]; rfl) (by rw [execEncTable_frame h])
  have hhdr (u v : State) (hu : EncodedBelowHeader s u) (h : execEncHdr u = .next v) : EncodedBelowHeader s v :=
    hu.step (by rw [execEncHdr_frame h]; rfl) (by rw [execEncHdr_frame h]) (execEncHdr_obuf h)
  have hpack (u v : State) (hu : EncodedBelowHeader s u) (h : execEncPack u = .next v) : EncodedBelowHeader s v :=
    hu.step (by rw [execEncPack_frame h]; rfl) (by rw [execEncPack_frame h])
      fun a _ => by rw [execEncPack_frame h]
  have hsilent := andThen_keeps (EncodedSilently s) (andThen_keeps _ hcount htree) htable
  exact andThen_keeps (EncodedBelowHeader s)
    (andThen_keeps _ (fun u hu => (hsilent u hu).belowHeader) hhdr) hpack t h

end

/-- Settles O52, by the frames of the parts of `ENC.ALL`. -/
theorem frameOfTheEncoderCommands : Obligations.FrameOfTheEncoderCommands := by
  unfold Obligations.FrameOfTheEncoderCommands
  intro s t
  refine ⟨execEncCount_frame, execEncTree_frame, execEncTable_frame, fun h => ⟨execEncHdr_obuf h, execEncHdr_frame h⟩,
    execEncPack_frame, fun h => ?_⟩
  obtain ⟨hframe, hobuf⟩ := execEncAll_frame h
  exact ⟨hobuf, hframe⟩

/-! ### Frames of the DEC commands (R49) -/

/-- R49: `s` with the fields that `DEC.LOAD` and `DEC.STEP` may write, and the fault record, as in `t`. -/
def State.withDecodeFields (s t : State) : State :=
  { s with
    obuf := t.obuf, olen := t.olen, pay := t.pay, dstate := t.dstate, err := t.err, errinfo := t.errinfo,
    draws := t.draws }

/-- R153: the decoder's loop has written no byte of `OBUF` from the present `OLEN` on. -/
def DecodedBelowOlen (s u : State) : Prop :=
  u = s.withDecodeFields u ∧ ∀ a, u.olen.toNat ≤ a → u.obuf.read? a = s.obuf.read? a

section
variable {s t : State}

theorem execDecHdr_frame (h : execDecHdr s = .next t) :
    t = { s with cw := t.cw, hlen := t.hlen, err := t.err, errinfo := t.errinfo, draws := t.draws } := by
  rcases execDecHdr_next s t h with ⟨-, rfl⟩ | ⟨-, -, rfl⟩ | ⟨-, -, -, ⟨_, -, rfl⟩ | ⟨_, -, rfl⟩⟩ <;> rfl

theorem execDecLoad_frame (h : execDecLoad s = .next t) :
    t = { s with pay := t.pay, olen := t.olen, dstate := t.dstate, err := t.err, errinfo := t.errinfo,
                 draws := t.draws } := by
  rcases execDecLoad_next s t h with ⟨-, rfl⟩ | ⟨-, rfl⟩ | ⟨-, rfl⟩ | ⟨-, -, -, rfl⟩ <;> rfl

/-- R148: `DEC.STEP` leaves all but its fields, and `OBUF`, unless it emits a symbol where there is room. -/
theorem execDecStep_frame (h : execDecStep s = .next t) :
    t = s.withDecodeFields t ∧ ((t.obuf = s.obuf ∧ t.olen = s.olen) ∨
      s.olen.toNat < s.cfg.obufCap ∧ ∃ x, t.obuf = s.obuf.write s.olen.toNat x ∧ t.olen = s.olen + 1) := by
  rcases execDecStep_next s t h with ⟨-, rfl⟩ | ⟨-, ⟨-, rfl⟩ | ⟨-, -, ⟨-, rfl⟩ | ⟨-, rfl⟩⟩ |
    ⟨-, x, c, -, ⟨-, rfl⟩ | ⟨hroom, rfl⟩⟩⟩
  case inr.inr.inr.inr => exact ⟨rfl, .inr ⟨hroom, x, rfl, rfl⟩⟩
  all_goals exact ⟨rfl, .inl ⟨rfl, rfl⟩⟩

theorem execDecStep_obuf (h : execDecStep s = .next t) (a : Nat) (ha : a ≠ s.olen.toNat) :
    t.obuf.read? a = s.obuf.read? a := by
  obtain ⟨-, ⟨hobuf, -⟩ | ⟨-, x, hobuf, -⟩⟩ := execDecStep_frame h
  · rw [hobuf]
  · rw [hobuf, Memory.read?_write_other _ _ _ _ ha]

/-- R5, R148: `OLEN` does not wrap, so a step leaves the bytes from its new `OLEN` on. -/
theorem execDecStep_below {u v : State} (hcfg : s.cfg.WellFormed) (hu : DecodedBelowOlen s u)
    (h : execDecStep u = .next v) : DecodedBelowOlen s v := by
  obtain ⟨hframe, hout⟩ := execDecStep_frame h
  obtain ⟨hus, hbelow⟩ := hu
  refine ⟨hframe.trans (by rw [hus]; rfl), fun a ha => ?_⟩
  rcases hout with ⟨hobuf, holen⟩ | ⟨hroom, x, hobuf, holen⟩
  · rw [hobuf]
    exact hbelow a (holen ▸ ha)
  · have hcap : u.cfg.obufCap < 2 ^ 32 := by
      have hsame : u.cfg = s.cfg := by rw [hus]; rfl
      obtain ⟨-, ⟨-, hobufCap⟩, -⟩ := hcfg
      rw [hsame]
      omega
    have hnext : (u.olen + 1).toNat = u.olen.toNat + 1 := BitVec.toNat_add_of_lt (by simp; omega)
    rw [holen, hnext] at ha
    rw [hobuf, Memory.read?_write_other _ _ _ _ (by omega)]
    exact hbelow a (by omega)

theorem execDecRun_frame (hcfg : s.cfg.WellFormed) (h : execDecRun s = .next t) : DecodedBelowOlen s t := by
  refine andThen_keeps (DecodedBelowOlen s) (fun u hu => ?_) (fun u v hu hv => ?_) t h
  · exact ⟨by rw [execDecLoad_frame hu]; rfl, fun a _ => by rw [execDecLoad_frame hu]⟩
  · exact stepLoop_keeps (DecodedBelowOlen s) (fun _ _ => execDecStep_below hcfg) _ u v hu hv

end

/-- Settles O53, by the frames of the parts of `DEC.ALL`. -/
theorem frameOfTheDecoderCommands : Obligations.FrameOfTheDecoderCommands := by
  unfold Obligations.FrameOfTheDecoderCommands
  intro s t hcfg
  refine ⟨execDecHdr_frame, execDecLoad_frame, fun h => ⟨execDecStep_obuf h, (execDecStep_frame h).1⟩,
    fun h => (execDecRun_frame hcfg h).symm, fun h => ?_⟩
  obtain ⟨u, hu, ⟨-, rfl⟩ | ⟨-, hrun⟩⟩ := (andThen_next _ _ _).mp h
  · exact ⟨fun a _ => by rw [execDecHdr_frame hu], by rw [execDecHdr_frame hu]⟩
  · have hhdr := execDecHdr_frame hu
    have hsame : u.cfg = s.cfg := by rw [hhdr]
    obtain ⟨hframe, hbelow⟩ := execDecRun_frame (hsame ▸ hcfg) hrun
    exact ⟨fun a ha => (hbelow a ha).trans (by rw [hhdr]), by rw [hframe, hhdr]; rfl⟩

end Sys2Proof.Machine

namespace Sys2Proof

/-! ### A word as its fields (R60 to R62) -/

theorem getLsbD_eq_of_extract_eq {v w : Word} {k m : Nat} (h : v.extractLsb' k m = w.extractLsb' k m) {i : Nat}
    (hk : k ≤ i) (hm : i < k + m) : v.getLsbD i = w.getLsbD i := by
  have hbit := congrArg (·.getLsbD (i - k)) h
  simpa [show i - k < m by omega, Nat.add_sub_cancel' hk] using hbit

/-- R60: a word is its four fields and the two ranges of bits that are in no field. -/
theorem word_eq_iff_fields (v w : Word) : v = w ↔
    v.extractLsb' 0 8 = w.extractLsb' 0 8 ∧ v.extractLsb' 8 2 = w.extractLsb' 8 2 ∧
    v.extractLsb' 10 2 = w.extractLsb' 10 2 ∧ v.extractLsb' 16 8 = w.extractLsb' 16 8 ∧
    v.extractLsb' 12 4 = w.extractLsb' 12 4 ∧ v.extractLsb' 24 8 = w.extractLsb' 24 8 := by
  refine ⟨fun h => by simp [h], fun ⟨hop, hrd, hrs, himm, hlow, hhigh⟩ => BitVec.eq_of_getLsbD_eq fun i hi => ?_⟩
  obtain h | ⟨h, h'⟩ | ⟨h, h'⟩ | ⟨h, h'⟩ | ⟨h, h'⟩ | h : i < 8 ∨ (8 ≤ i ∧ i < 10) ∨ (10 ≤ i ∧ i < 12) ∨
    (12 ≤ i ∧ i < 16) ∨ (16 ≤ i ∧ i < 24) ∨ 24 ≤ i := by omega
  · exact getLsbD_eq_of_extract_eq hop (Nat.zero_le i) (by omega)
  · exact getLsbD_eq_of_extract_eq hrd h h'
  · exact getLsbD_eq_of_extract_eq hrs h h'
  · exact getLsbD_eq_of_extract_eq hlow h h'
  · exact getLsbD_eq_of_extract_eq himm h h'
  · exact getLsbD_eq_of_extract_eq hhigh h hi

theorem packFields_eq_or (op : Byte) (rd rs : Fin 4) {imm8 : Nat} (himm : imm8 < 256) :
    packFields op rd rs imm8 = op.setWidth 32 <<< 0 ||| (BitVec.ofFin (w := 2) rd).setWidth 32 <<< 8 |||
      (BitVec.ofFin (w := 2) rs).setWidth 32 <<< 10 ||| (BitVec.ofNat 8 imm8).setWidth 32 <<< 16 := by
  have hreg (r : Fin 4) : (BitVec.ofFin (w := 2) r).setWidth 32 = BitVec.ofNat 32 r := by
    revert r
    decide
  have hbyte : (BitVec.ofNat 8 imm8).setWidth 32 = BitVec.ofNat 32 imm8 := by
    apply BitVec.eq_of_toNat_eq
    simp [Nat.mod_eq_of_lt himm]
  rw [packFields, hreg, hreg, hbyte, BitVec.shiftLeft_zero]

/-- R60: a packed word shows each field at its bits, and 0 elsewhere. -/
theorem packFields_extract (op : Byte) (rd rs : Fin 4) {imm8 : Nat} (himm : imm8 < 256) :
    (packFields op rd rs imm8).extractLsb' 0 8 = op ∧ (packFields op rd rs imm8).extractLsb' 8 2 = BitVec.ofFin rd ∧
    (packFields op rd rs imm8).extractLsb' 10 2 = BitVec.ofFin rs ∧
    (packFields op rd rs imm8).extractLsb' 16 8 = BitVec.ofNat 8 imm8 ∧
    (packFields op rd rs imm8).extractLsb' 12 4 = 0 ∧ (packFields op rd rs imm8).extractLsb' 24 8 = 0 := by
  simp [packFields_eq_or op rd rs himm, BitVec.extractLsb'_or, Machine.extract_field_same,
    Machine.extract_field_other, -BitVec.shiftLeft_zero]

theorem operandFields_packFields (op : Byte) (rd rs : Fin 4) {imm8 : Nat} (himm : imm8 < 256) :
    rdField (packFields op rd rs imm8) = rd ∧ rsField (packFields op rd rs imm8) = rs ∧
    immField (packFields op rd rs imm8) = imm8 := by
  obtain ⟨-, hrd, hrs, himm8, -, -⟩ := packFields_extract op rd rs himm
  rw [rdField, rsField, immField, hrd, hrs, himm8]
  exact ⟨rfl, rfl, Nat.mod_eq_of_lt himm⟩

theorem immField_lt (w : Word) : immField w < 256 := (w.extractLsb' 16 8).isLt

/-- A word is packed from its own fields exactly when it has no bit outside them. -/
theorem packFields_eq_self_iff (w : Word) :
    packFields (opField w) (rdField w) (rsField w) (immField w) = w ↔
      w.extractLsb' 12 4 = 0 ∧ w.extractLsb' 24 8 = 0 := by
  have hbyte : BitVec.ofNat 8 (immField w) = w.extractLsb' 16 8 := by
    rw [immField, BitVec.ofNat_toNat, BitVec.setWidth_eq]
  obtain ⟨hop, hrd, hrs, himm, hlow, hhigh⟩ :=
    packFields_extract (opField w) (rdField w) (rsField w) (immField_lt w)
  rw [word_eq_iff_fields, hop, hrd, hrs, himm, hlow, hhigh]
  exact ⟨fun ⟨_, _, _, _, hlow, hhigh⟩ => ⟨hlow.symm, hhigh.symm⟩,
    fun ⟨hlow, hhigh⟩ => ⟨rfl, rfl, rfl, hbyte, hlow.symm, hhigh.symm⟩⟩

/-! ### The mask test of a format (R61, R64) -/

/-- R61: the operand fields a command of the format can hold; a field that the format does not use is 0. -/
def Format.Fits (f : Format) (rd rs : Fin 4) (imm8 : Nat) : Prop :=
  match f with
  | .Z => rd = 0 ∧ rs = 0 ∧ imm8 = 0
  | .R => rs = 0 ∧ imm8 = 0
  | .RR => imm8 = 0
  | .RI => rs = 0 ∧ imm8 < 256

theorem Format.Fits.imm8_lt {f : Format} {rd rs : Fin 4} {imm8 : Nat} (h : f.Fits rd rs imm8) : imm8 < 256 := by
  cases f <;> simp only [Format.Fits] at h <;> omega

/-- R64: a word passes the mask test of a format when its fields fit the format and it has no bit outside them. -/
theorem masked_eq_opField_iff (f : Format) (w : Word) :
    w &&& f.mask = (opField w).setWidth 32 ↔
      f.Fits (rdField w) (rsField w) (immField w) ∧
      packFields (opField w) (rdField w) (rsField w) (immField w) = w := by
  have hop : w.extractLsb' 0 8 = opField w := rfl
  have hrd : rdField w = 0 ↔ w.extractLsb' 8 2 = 0 := BitVec.toFin_inj
  have hrs : rsField w = 0 ↔ w.extractLsb' 10 2 = 0 := BitVec.toFin_inj
  have himm : immField w = 0 ↔ w.extractLsb' 16 8 = 0 := BitVec.toNat_inj (y := 0#8)
  have h2 (x : BitVec 2) : x &&& 3#2 = x := BitVec.and_allOnes
  have h4 (x : BitVec 4) : x &&& 15#4 = x := BitVec.and_allOnes
  have h8 (x : BitVec 8) : x &&& 255#8 = x := BitVec.and_allOnes
  rw [packFields_eq_self_iff, word_eq_iff_fields, ← BitVec.shiftLeft_zero ((opField w).setWidth 32)]
  cases f <;> simp [Format.Fits, Format.mask, hop, hrd, hrs, himm, immField_lt, h2, h4, h8, and_assoc,
    BitVec.extractLsb'_and, Machine.extract_field_same, Machine.extract_field_other, -BitVec.shiftLeft_zero]

/-! ### The rows of the opcode map (R63) -/

/-- R63: no two rows share an opcode, so looking a row's opcode up finds that row. -/
theorem find?_opcodeMap {row : OpRow} (hrow : row ∈ opcodeMap) :
    opcodeMap.find? (fun r => r.op == row.op) = some row := by
  fin_cases hrow <;> rfl

theorem encode_build {row : OpRow} (hrow : row ∈ opcodeMap) {rd rs : Fin 4} {imm8 : Nat}
    (h : row.format.Fits rd rs imm8) : encode (row.build rd rs imm8) = packFields row.op rd rs imm8 := by
  fin_cases hrow <;> simp only [Format.Fits] at h <;> simp [encode, Instr.opcode, h]

theorem wellFormed_build {row : OpRow} (hrow : row ∈ opcodeMap) (rd rs : Fin 4) {imm8 : Nat} (h : imm8 < 256) :
    (row.build rd rs imm8).wellFormed = true := by
  fin_cases hrow <;> simp [Instr.wellFormed, h]

/-- R63: the map has a row for every command: the one that its opcode finds. -/
theorem exists_build {i : Instr} (h : i.wellFormed = true) :
    ∃ row ∈ opcodeMap, ∃ rd rs imm8, row.format.Fits rd rs imm8 ∧ row.build rd rs imm8 = i := by
  have hrow {row : OpRow} (hfind : opcodeMap.find? (fun r => r.op == i.opcode) = some row) (rd rs : Fin 4)
      (imm8 : Nat) (hfits : row.format.Fits rd rs imm8) (hbuild : row.build rd rs imm8 = i) :
      ∃ row ∈ opcodeMap, ∃ rd rs imm8, row.format.Fits rd rs imm8 ∧ row.build rd rs imm8 = i :=
    ⟨row, List.mem_of_find?_eq_some hfind, rd, rs, imm8, hfits, hbuild⟩
  cases i with
  | bsClr rd | bsLd rd | bsSt rd | bsShr rd | bsShl rd => exact hrow rfl rd 0 0 ⟨rfl, rfl⟩ rfl
  | bsPushf rd imm8 => exact hrow rfl rd 0 imm8 ⟨rfl, by simpa [Instr.wellFormed] using h⟩ rfl
  | bsCat rd rs | bsStw rd rs | bsEq rd rs => exact hrow rfl rd rs 0 rfl rfl
  | sysNop | sysReset | encCount | encTree | encTable | encHdr | encPack | encAll | decHdr | decLoad | decStep
  | decRun | decAll => exact hrow rfl 0 0 0 ⟨rfl, rfl, rfl⟩ rfl

/-! ### Decode and encode -/

/-- R64: the words that decode are the ones packed from a row's opcode and operand fields that fit its format. -/
theorem decode_eq_ok_iff (w : Word) (i : Instr) : decode w = .ok i ↔
    ∃ row ∈ opcodeMap, ∃ rd rs imm8, row.format.Fits rd rs imm8 ∧ row.build rd rs imm8 = i ∧
      packFields row.op rd rs imm8 = w := by
  constructor
  · intro h
    unfold decode at h
    split at h
    · cases h
    · next row hfind =>
      have hop : row.op = opField w := by simpa using List.find?_some hfind
      split at h
      · next hmask =>
        rw [hop, masked_eq_opField_iff] at hmask
        obtain ⟨hfits, hpack⟩ := hmask
        exact ⟨row, List.mem_of_find?_eq_some hfind, _, _, _, hfits, Except.ok.inj h, hop ▸ hpack⟩
      · cases h
  · rintro ⟨row, hrow, rd, rs, imm8, hfits, rfl, rfl⟩
    have hop := Laws.opField_packFields row.op rd rs imm8
    obtain ⟨hrd, hrs, himm⟩ := operandFields_packFields row.op rd rs hfits.imm8_lt
    have hmask := masked_eq_opField_iff row.format (packFields row.op rd rs imm8)
    rw [hop, hrd, hrs, himm] at hmask
    simp [decode, hop, hrd, hrs, himm, find?_opcodeMap hrow, hmask.mpr ⟨hfits, rfl⟩]

/-- Settles O1: the command is built by a row of the map from operands that fit, and its word is packed from them. -/
theorem decodeOfEncodeGivesTheCommand : Obligations.DecodeOfEncodeGivesTheCommand := by
  unfold Obligations.DecodeOfEncodeGivesTheCommand
  intro i hi
  obtain ⟨row, hrow, rd, rs, imm8, hfits, rfl⟩ := exists_build hi
  exact (decode_eq_ok_iff _ _).mpr ⟨row, hrow, rd, rs, imm8, hfits, rfl, (encode_build hrow hfits).symm⟩

/-- Settles O2: a word that decodes is packed from a row's opcode and operands that fit, as the command's word is. -/
theorem encodeOfDecodeGivesTheWord : Obligations.EncodeOfDecodeGivesTheWord := by
  unfold Obligations.EncodeOfDecodeGivesTheWord
  intro w i hw
  obtain ⟨row, hrow, rd, rs, imm8, hfits, rfl, rfl⟩ := (decode_eq_ok_iff w i).mp hw
  exact ⟨wellFormed_build hrow rd rs hfits.imm8_lt, encode_build hrow hfits⟩

/-- Settles O3: R69's nine words are closed, and decoding them is a computation. -/
theorem workedWordsDecodeAsTheSpecSays : Obligations.WorkedWordsDecodeAsTheSpecSays := by
  unfold Obligations.WorkedWordsDecodeAsTheSpecSays
  decide

end Sys2Proof

/-!
PROOFS. The byte-level procedures refine the bit lists (R81 to R87): a canonical representation shows, byte after
byte, the bits of its list and then fewer than 8 zeros, so each procedure is a fact about that one list of bits.
-/

namespace Sys2Proof.Machine

/-! ### Bytes as lists of bits (R6, R7) -/

theorem byteBits_eq (b : Byte) : byteBits b = [b.getLsbD 7, b.getLsbD 6, b.getLsbD 5, b.getLsbD 4, b.getLsbD 3,
    b.getLsbD 2, b.getLsbD 1, b.getLsbD 0] := rfl

theorem byteBits_injective : Function.Injective byteBits := by
  intro a b h
  refine BitVec.eq_of_getLsbD_eq fun i hi => ?_
  have hbit := congrArg (·[7 - i]?) h
  rw [byteBits_getElem? a _ (by omega), byteBits_getElem? b _ (by omega), Nat.sub_sub_self (by omega)] at hbit
  exact Option.some.inj hbit

/-- R6: two lists of bytes that show the same bits are the same. -/
theorem flatMap_byteBits_injective : Function.Injective (List.flatMap byteBits) := by
  intro xs
  induction xs with
  | nil => intro ys h; cases ys <;> simp [byteBits_eq] at h ⊢
  | cons x xs ih =>
    intro ys h
    cases ys with
    | nil => simp [byteBits_eq] at h
    | cons y ys =>
      obtain ⟨hhead, htail⟩ := List.append_inj (by simpa using h)
        (by simp : (byteBits x).length = (byteBits y).length)
      rw [byteBits_injective hhead, ih htail]

theorem take_flatMap_byteBits (bytes : List Byte) (n : Nat) :
    (bytes.take n).flatMap byteBits = (bytes.flatMap byteBits).take (8 * n) := by
  induction bytes generalizing n with
  | nil => simp
  | cons b bytes ih =>
    cases n with
    | zero => simp
    | succ n => simp [ih, List.take_append, Nat.mul_succ, List.take_of_length_le]

/-- R81: the backing bytes show the bits of the list, then zeros up to the end of the last byte. -/
theorem flatMap_byteBits_backingBytes (q : BitSeq) :
    (backingBytes q).flatMap byteBits = q ++ List.replicate (8 * nbytes q.length - q.length) false := by
  have hle := le_eight_nbytes q.length
  have hlen := flatMap_byteBits_length (backingBytes q)
  rw [backingBytes_length] at hlen
  refine List.ext_getElem? fun i => ?_
  by_cases hi : i < 8 * nbytes q.length
  · have hbit := byteAt_getLsbD q (i / 8) (i % 8) (by omega)
    rw [Nat.div_add_mod] at hbit
    rw [flatMap_byteBits_getElem? _ _ (by rwa [backingBytes_length]), List.getD_eq_getElem?_getD,
      backingBytes_getElem? q (i / 8) (by omega), Option.getD_some, hbit]
    by_cases hq : i < q.length
    · rw [List.getElem?_append_left hq]
      simp [hq]
    · rw [List.getElem?_append_right (by omega), List.getElem?_replicate_of_lt (by omega)]
      simp [hq]
  · rw [List.getElem?_eq_none (by omega), List.getElem?_eq_none (by simp; omega)]

/-! ### Canonical representations (R81) -/

/-- R81: a representation is the canonical one when its length is that of the list, and its bytes show the list and then
fewer than 8 zeros. -/
theorem eq_ofBits_iff (p : ByteSeq) (q : BitSeq) : p = ByteSeq.ofBits q ↔
    p.len = q.length ∧ ∃ k < 8, p.bytes.flatMap byteBits = q ++ List.replicate k false := by
  have hle := le_eight_nbytes q.length
  have hlt := eight_nbytes_lt q.length
  constructor
  · rintro rfl
    exact ⟨rfl, _, by omega, flatMap_byteBits_backingBytes q⟩
  · rintro ⟨hlen, k, hk, hbits⟩
    have hcount := congrArg List.length hbits
    rw [flatMap_byteBits_length, List.length_append, List.length_replicate] at hcount
    have hk' : k = 8 * nbytes q.length - q.length := by omega
    obtain ⟨len, bytes⟩ := p
    have hbytes : bytes = backingBytes q :=
      flatMap_byteBits_injective (by rw [flatMap_byteBits_backingBytes, ← hk']; exact hbits)
    rw [ByteSeq.ofBits, ← hbytes, ← hlen]

@[simp] theorem ofBits_len (q : BitSeq) : (ByteSeq.ofBits q).len = q.length := rfl

@[simp] theorem ofBits_bytes (q : BitSeq) : (ByteSeq.ofBits q).bytes = backingBytes q := rfl

theorem ofBits_flatMap_byteBits (q : BitSeq) :
    ∃ k < 8, (ByteSeq.ofBits q).bytes.flatMap byteBits = q ++ List.replicate k false :=
  ((eq_ofBits_iff _ q).mp rfl).2

theorem ofBits_injective : Function.Injective ByteSeq.ofBits := by
  intro q o h
  have hbits := congrArg ByteSeq.bits h
  simpa [ByteSeq.bits, ByteSeq.ofBits, mkbits_backingBytes] using hbits

/-! ### The shifts (R83, R84) -/

/-- R83: the cascade moves every bit one position on: the carry's low bit comes first, and the last bit goes. -/
theorem flatMap_byteBits_cascadeRight (carry : Byte) (bytes : List Byte) :
    (cascadeRight carry bytes).flatMap byteBits = (carry.getLsbD 0 :: bytes.flatMap byteBits).dropLast := by
  induction bytes generalizing carry with
  | nil => rfl
  | cons b bytes ih =>
    have hbyte : byteBits ((b >>> 1) ||| ((carry &&& 1) <<< 7)) ++ [b.getLsbD 0] = carry.getLsbD 0 :: byteBits b := by
      simp [byteBits_eq]
    rw [cascadeRight, List.flatMap_cons, List.flatMap_cons, ih, ← List.cons_append, ← hbyte, List.append_assoc,
      List.singleton_append, List.dropLast_append_of_ne_nil (by simp)]

/-- R83: after the zero byte is appended, if it is, the storage has room for one more bit. -/
theorem flatMap_byteBits_grown (q : BitSeq) : ∃ k < 8,
    (if q.length = 8 * (backingBytes q).length then backingBytes q ++ [0] else backingBytes q).flatMap byteBits =
      q ++ List.replicate (k + 1) false := by
  have hle := le_eight_nbytes q.length
  have hlt := eight_nbytes_lt q.length
  rw [backingBytes_length]
  split
  · next hfull =>
    refine ⟨7, by omega, ?_⟩
    rw [List.flatMap_append, flatMap_byteBits_backingBytes, ← hfull, Nat.sub_self, List.replicate_zero,
      List.append_nil]
    rfl
  · next hroom =>
    refine ⟨8 * nbytes q.length - q.length - 1, by omega, ?_⟩
    rw [flatMap_byteBits_backingBytes, Nat.sub_add_cancel (by omega)]

/-- R83: `shift_right_once` on canonical storage. -/
theorem shiftRightOnce_ofBits (q : BitSeq) :
    (ByteSeq.ofBits q).shiftRightOnce = ByteSeq.ofBits (shiftRightOnce q) := by
  obtain ⟨k, hk, hgrown⟩ := flatMap_byteBits_grown q
  refine (eq_ofBits_iff _ _).mpr ⟨rfl, k, hk, ?_⟩
  change (cascadeRight 0 _).flatMap byteBits = _
  rw [flatMap_byteBits_cascadeRight, ofBits_len, ofBits_bytes, hgrown, List.replicate_succ',
    ← List.append_assoc, ← List.cons_append, List.dropLast_concat]
  rfl

/-- R84: the loop moves every bit one position to the front: the first bit goes, and a 0 comes last. -/
theorem flatMap_byteBits_cascadeLeft (b : Byte) (bytes : List Byte) :
    (cascadeLeft (b :: bytes)).flatMap byteBits = ((b :: bytes).flatMap byteBits).tail ++ [false] := by
  induction bytes generalizing b with
  | nil => simp [cascadeLeft, byteBits_eq]
  | cons c bytes ih =>
    simp only [cascadeLeft, List.flatMap_cons] at ih ⊢
    rw [ih]
    simp [byteBits_eq]

/-- R84: `shift_left_once` on canonical storage: a last byte that is dropped holds zeros alone. -/
theorem shiftLeftOnce_ofBits (q : BitSeq) :
    (ByteSeq.ofBits q).shiftLeftOnce = ByteSeq.ofBits (shiftLeftOnce q) := by
  cases q with
  | nil => rfl
  | cons b q =>
    have hlt := eight_nbytes_lt q.length
    have hmono := nbytes_mono (q.length.le_add_right 1)
    have hle := le_eight_nbytes (q.length + 1)
    have hshifted : (cascadeLeft (backingBytes (b :: q))).flatMap byteBits =
        q ++ List.replicate (8 * nbytes (q.length + 1) - q.length) false := by
      rw [backingBytes_step _ (List.cons_ne_nil b q), flatMap_byteBits_cascadeLeft,
        ← backingBytes_step _ (List.cons_ne_nil b q), flatMap_byteBits_backingBytes, List.cons_append, List.tail_cons,
        List.append_assoc, ← List.replicate_succ']
      congr 3
      simp only [List.length_cons]
      omega
    refine (eq_ofBits_iff _ _).mpr ⟨rfl, 8 * nbytes q.length - q.length, by omega, ?_⟩
    change ((cascadeLeft (backingBytes (b :: q))).take (nbytes q.length)).flatMap byteBits = _
    rw [take_flatMap_byteBits, hshifted, List.take_append, List.take_of_length_le (le_eight_nbytes _),
      List.take_replicate, Nat.min_eq_left (by omega)]
    rfl

/-! ### The prepend (R82) -/

/-- R82: the bit is written where the shift has put a 0. -/
theorem flatMap_byteBits_orFirst (b : Bool) {bytes : List Byte} {q : BitSeq}
    (h : bytes.flatMap byteBits = false :: q) :
    (orFirst (BitVec.ofNat 8 b.toNat <<< 7) bytes).flatMap byteBits = b :: q := by
  cases bytes with
  | nil => cases h
  | cons c bytes =>
    simp only [List.flatMap_cons, byteBits_eq, List.cons_append, List.cons.injEq] at h
    obtain ⟨htop, rfl⟩ := h
    cases b <;> simp [orFirst, byteBits_eq, -BitVec.getLsbD_eq_getElem, htop]

/-- R82: `push_front_bit` on canonical storage, for a legal bit. -/
theorem pushFrontBit_ofBits_toNat (q : BitSeq) (b : Bool) :
    (ByteSeq.ofBits q).pushFrontBit b.toNat = some (ByteSeq.ofBits (b :: q)) := by
  obtain ⟨k, hk, hbits⟩ := ofBits_flatMap_byteBits (shiftRightOnce q)
  rw [ByteSeq.pushFrontBit, if_pos b.toNat_le, shiftRightOnce_ofBits]
  exact congrArg some ((eq_ofBits_iff _ _).mpr ⟨rfl, k, hk, flatMap_byteBits_orFirst b hbits⟩)

/-- R82: `push_front_bit` on canonical storage. -/
theorem pushFrontBit_ofBits (q : BitSeq) (bit : Nat) :
    (ByteSeq.ofBits q).pushFrontBit bit = (pushFrontBit q bit).map ByteSeq.ofBits := by
  match bit with
  | 0 => exact pushFrontBit_ofBits_toNat q false
  | 1 => exact pushFrontBit_ofBits_toNat q true
  | _ + 2 => simp [ByteSeq.pushFrontBit, pushFrontBit]

/-- Settles O16: each shift moves the bits that the canonical bytes show, and the prepend fills the 0 that a shift
leaves. -/
theorem byteLevelShiftsRefineTheBitLists : Obligations.ByteLevelShiftsRefineTheBitLists := by
  unfold Obligations.ByteLevelShiftsRefineTheBitLists
  exact fun q => ⟨shiftRightOnce_ofBits q, pushFrontBit_ofBits q, shiftLeftOnce_ofBits q⟩

/-! ### The append (R85) -/

theorem byteBits_or (a b : Byte) : byteBits (a ||| b) = List.zipWith (· || ·) (byteBits a) (byteBits b) := by
  simp [byteBits_eq]

/-- R85: the `OR` of two bytes is safe where each holds zeros where the other holds bits. -/
theorem byteBits_or_of_disjoint {a b : Byte} {x y : BitSeq} {m n : Nat} (hn : x.length = n)
    (ha : byteBits a = x ++ List.replicate m false) (hb : byteBits b = List.replicate n false ++ y) :
    byteBits (a ||| b) = x ++ y := by
  have hlen : m = y.length := by
    have hla := congrArg List.length ha
    have hlb := congrArg List.length hb
    simp only [byteBits_length, List.length_append, List.length_replicate] at hla hlb
    omega
  subst hn hlen
  have hleft (z : BitSeq) : List.zipWith (· || ·) z (List.replicate z.length false) = z := by
    induction z with
    | nil => rfl
    | cons c z ih => simp [List.replicate_succ, ih]
  rw [byteBits_or, ha, hb, List.zipWith_append (by simp), hleft, List.zipWith_comm_of_comm Bool.or_comm, hleft]

/-- R85: the copy that is shifted `k` times has `k` zeros in front. -/
theorem shiftRightTimes_ofBits (k : Nat) (q : BitSeq) :
    ByteSeq.shiftRightTimes k (ByteSeq.ofBits q) = ByteSeq.ofBits (List.replicate k false ++ q) := by
  induction k generalizing q with
  | zero => rfl
  | succ k ih => rw [ByteSeq.shiftRightTimes, shiftRightOnce_ofBits, ih, List.replicate_succ', List.append_assoc]; rfl

theorem orLast_append_singleton (m b : Byte) (bytes : List Byte) :
    orLast m (bytes ++ [b]) = bytes ++ [b ||| m] := by
  induction bytes with
  | nil => rfl
  | cons c bytes ih =>
    have hne := List.append_ne_nil_of_right_ne_nil bytes (List.cons_ne_nil b [])
    obtain ⟨d, rest, hrest⟩ := List.exists_cons_of_ne_nil hne
    rw [List.cons_append, List.cons_append, ← ih, hrest, orLast]

theorem exists_append_of_append_eq {α : Type} {a b c d : List α} (h : a ++ b = c ++ d) (hle : c.length ≤ a.length) :
    ∃ x, a = c ++ x ∧ d = x ++ b := by
  obtain ⟨x, rfl⟩ := List.prefix_of_prefix_length_le ⟨d, rfl⟩ ⟨b, h⟩ hle
  exact ⟨x, rfl, (List.append_cancel_left (by rwa [← List.append_assoc])).symm⟩

/-- R85: where the last byte has `m` free bits and the shifted copy `8 - m` zeros in front, the join appends. -/
theorem flatMap_byteBits_join {p t : List Byte} {q o : BitSeq} {m n : Nat} (hm : 0 < m) (hn : 0 < n) (hmn : m + n = 8)
    (hp : p.flatMap byteBits = q ++ List.replicate m false) (ht : t.flatMap byteBits = List.replicate n false ++ o) :
    (orLast (t.headD 0) p ++ t.tail).flatMap byteBits = q ++ o := by
  have hpne : p ≠ [] := by rintro rfl; simp [hm.ne'] at hp
  have htne : t ≠ [] := by rintro rfl; simp [hn.ne'] at ht
  obtain ⟨init, last, rfl⟩ := p.eq_nil_or_concat'.resolve_left hpne
  obtain ⟨first, rest, rfl⟩ := List.exists_cons_of_ne_nil htne
  rw [List.flatMap_append, List.flatMap_singleton] at hp
  rw [List.flatMap_cons] at ht
  have hlen := congrArg List.length hp
  simp only [List.length_append, byteBits_length, List.length_replicate] at hlen
  obtain ⟨x, rfl, hlast⟩ := exists_append_of_append_eq hp.symm (by omega)
  obtain ⟨y, hfirst, rfl⟩ := exists_append_of_append_eq ht (by simp; omega)
  have hx : x.length = n := by rw [List.length_append] at hlen; omega
  rw [orLast_append_singleton, List.headD_cons, List.tail_cons]
  simp [byteBits_or_of_disjoint hx hlast hfirst]

/-- R85: `concat` on canonical storage. -/
theorem concat_ofBits (q o : BitSeq) :
    (ByteSeq.ofBits q).concat (ByteSeq.ofBits o) = ByteSeq.ofBits (concat q o) := by
  have hq := flatMap_byteBits_backingBytes q
  unfold ByteSeq.concat
  simp only [ofBits_len, ofBits_bytes, shiftRightTimes_ofBits]
  split
  · next ho =>
    rw [List.eq_nil_of_length_eq_zero ho, concat, List.append_nil]
  · split
    · next ho hfull =>
      obtain ⟨k, hk, hbits⟩ := ofBits_flatMap_byteBits o
      refine (eq_ofBits_iff _ _).mpr ⟨List.length_append.symm, k, hk, ?_⟩
      have hpad : 8 * nbytes q.length - q.length = 0 := by unfold nbytes; omega
      rw [hpad, List.replicate_zero, List.append_nil] at hq
      rw [List.flatMap_append, hq, concat, List.append_assoc, ← hbits, ofBits_bytes]
    · next ho hfree =>
      obtain ⟨k, hk, hbits⟩ := ofBits_flatMap_byteBits (List.replicate (q.length % 8) false ++ o)
      refine (eq_ofBits_iff _ _).mpr ⟨List.length_append.symm, k, hk, ?_⟩
      rw [List.append_assoc] at hbits
      rw [concat, List.append_assoc]
      exact flatMap_byteBits_join (by unfold nbytes; omega) (by omega) (by unfold nbytes; omega) hq hbits

/-- Settles O17: the fast path appends the bits that the bytes show, and the slow path does so after the join. -/
theorem byteLevelConcatRefinesTheBitLists : Obligations.ByteLevelConcatRefinesTheBitLists := by
  unfold Obligations.ByteLevelConcatRefinesTheBitLists
  exact concat_ofBits

/-! ### The comparisons (R86, R87) -/

/-- R86: the mask has the byte's first `r` bits. -/
theorem byteBits_and_prefixMask (a : Byte) {r : Nat} (hpos : 0 < r) (hle : r ≤ 8) :
    byteBits (a &&& prefixMask r) = (byteBits a).take r ++ List.replicate (8 - r) false := by
  have hcases : r ∈ [1, 2, 3, 4, 5, 6, 7, 8] := by simp; omega
  fin_cases hcases <;> simp [byteBits_eq, prefixMask, List.replicate]

theorem prefixMask_add_eight (M : Nat) : prefixMask (M + 8) = prefixMask M := by simp [prefixMask]

/-- R86: the masked comparison compares the first `r` bits of two bytes. -/
theorem and_prefixMask_eq_iff (a b : Byte) {r : Nat} (hpos : 0 < r) (hle : r ≤ 8) :
    a &&& prefixMask r = b &&& prefixMask r ↔ (byteBits a).take r = (byteBits b).take r := by
  rw [← byteBits_injective.eq_iff, byteBits_and_prefixMask a hpos hle, byteBits_and_prefixMask b hpos hle,
    List.append_left_inj]

theorem mkbits_cons_add_eight (b : Byte) (bytes : List Byte) (L : Nat) :
    mkbits (b :: bytes) (L + 8) = byteBits b ++ mkbits bytes L := by
  simp [mkbits, List.take_append, List.take_of_length_le]

theorem mkbits_cons_of_le (b : Byte) (bytes : List Byte) {L : Nat} (h : L ≤ 8) :
    mkbits (b :: bytes) L = (byteBits b).take L := by
  rw [mkbits, List.flatMap_cons, List.take_append_of_le_length (by simpa using h)]

/-- R86: the comparison of bytes compares the first `M` bits, where `M` ends in the last byte of the second operand. -/
theorem startWithBytes_iff {qs os : List Byte} (hle : os.length ≤ qs.length) {M : Nat} (hM : M ≤ 8 * os.length)
    (hlast : 8 * os.length < M + 8) :
    startWithBytes (prefixMask M) qs os = true ↔ mkbits os M = mkbits qs M := by
  induction os generalizing qs M with
  | nil =>
    obtain rfl : M = 0 := by simpa using hM
    simp [mkbits, startWithBytes]
  | cons b os ih =>
    cases qs with
    | nil => simp at hle
    | cons a qs =>
      simp only [List.length_cons] at hle hM hlast
      cases os with
      | nil =>
        rw [List.length_nil, Nat.zero_add, Nat.mul_one] at hM hlast
        rw [startWithBytes, beq_iff_eq, and_prefixMask_eq_iff a b (by omega) hM, mkbits_cons_of_le b _ hM,
          mkbits_cons_of_le a _ hM, eq_comm]
      | cons c os =>
        rw [List.length_cons] at *
        obtain ⟨L, rfl⟩ : ∃ L, M = L + 8 := ⟨M - 8, by omega⟩
        rw [startWithBytes, prefixMask_add_eight, Bool.and_eq_true, beq_iff_eq, ih (by omega) (by omega) (by omega),
          mkbits_cons_add_eight, mkbits_cons_add_eight, List.append_eq_append_iff_of_size_eq_left (by simp),
          byteBits_injective.eq_iff, @eq_comm _ a]

theorem mkbits_backingBytes_take {q : BitSeq} {M : Nat} (h : M ≤ q.length) :
    mkbits (backingBytes q) M = q.take M := by
  rw [mkbits, flatMap_byteBits_backingBytes, List.take_append_of_le_length h]

/-- R86: `start_with` on canonical storage. -/
theorem startWith_ofBits (q o : BitSeq) : (ByteSeq.ofBits q).startWith (ByteSeq.ofBits o) = startWith q o := by
  rw [ByteSeq.startWith, ofBits_len, ofBits_len]
  by_cases ho : o.length = 0
  · rw [if_pos ho, List.eq_nil_of_length_eq_zero ho]
    exact ((startWith_iff q []).mpr q.nil_prefix).symm
  rw [if_neg ho, Bool.eq_iff_iff, startWith_iff]
  by_cases hlong : o.length > q.length
  · rw [if_pos hlong]
    exact iff_of_false Bool.false_ne_true fun hp => absurd hp.length_le (by omega)
  have hle : o.length ≤ q.length := by omega
  have hbytes : (backingBytes o).length ≤ (backingBytes q).length := by
    simpa only [backingBytes_length] using nbytes_mono hle
  have hlast : 8 * (backingBytes o).length < o.length + 8 := by
    simpa only [backingBytes_length] using eight_nbytes_lt _
  have hreach : o.length ≤ 8 * (backingBytes o).length := by
    simpa only [backingBytes_length] using le_eight_nbytes _
  rw [if_neg hlong, ofBits_bytes, ofBits_bytes, startWithBytes_iff hbytes hreach hlast, mkbits_backingBytes,
    mkbits_backingBytes_take hle, List.prefix_iff_eq_take]

/-- R87: equality on canonical storage. -/
theorem eqBytes_ofBits (q o : BitSeq) : (ByteSeq.ofBits q).eqBytes (ByteSeq.ofBits o) = eqBits q o := by
  rw [Bool.eq_iff_iff, eqBits_iff, ← ofBits_injective.eq_iff]
  simp [ByteSeq.eqBytes, ByteSeq.ofBits]

/-- Settles O18: the masked bytes are equal exactly when the bits they show are, and equal values have equal bytes. -/
theorem byteLevelComparisonsRefineTheBitLists : Obligations.ByteLevelComparisonsRefineTheBitLists := by
  unfold Obligations.ByteLevelComparisonsRefineTheBitLists
  exact fun q o => ⟨startWith_ofBits q o, eqBytes_ofBits q o⟩

end Sys2Proof.Machine

/-!
PROOFS. The BitSequence commands (R90 to R99): the number of a command word, what a write of one register and a fault
leave, and the effect of each command.
-/

namespace Sys2Proof

/-! ### The number of a command word (R60) -/

/-- R60: a packed word is the sum of its fields at their weights. -/
theorem packFields_eq_ofNat (op : Byte) (rd rs : Fin 4) {imm8 : Nat} (himm : imm8 < 256) :
    packFields op rd rs imm8 = BitVec.ofNat 32 (op.toNat + 256 * rd.val + 1024 * rs.val + 65536 * imm8) := by
  have hop := op.isLt
  obtain ⟨heop, herd, hers, heimm, helow, hehigh⟩ := packFields_extract op rd rs himm
  rw [word_eq_iff_fields, heop, herd, hers, heimm, helow, hehigh]
  refine ⟨?_, ?_, ?_, ?_, ?_, ?_⟩ <;> apply BitVec.eq_of_toNat_eq <;>
    simp [BitVec.extractLsb'_toNat, Nat.shiftRight_eq_div_pow] <;> omega

/-- R64, R67: the number of a well-formed command's word decodes to the command. -/
theorem decode_ofNat {i : Instr} {rd rs : Fin 4} {imm8 : Nat} (hi : i.wellFormed = true) (himm : imm8 < 256)
    (hword : encode i = packFields i.opcode rd rs imm8) :
    decode (BitVec.ofNat 32 (i.opcode.toNat + 256 * rd.val + 1024 * rs.val + 65536 * imm8)) = .ok i := by
  rw [← packFields_eq_ofNat i.opcode rd rs himm, ← hword]
  exact decodeOfEncodeGivesTheCommand i hi

/-- R61: a command of the format `R`. -/
theorem decode_ofNat_formatR {i : Instr} (rd : Fin 4) (hi : i.wellFormed = true)
    (hword : encode i = packFields i.opcode rd 0 0) :
    decode (BitVec.ofNat 32 (i.opcode.toNat + 256 * rd.val)) = .ok i := by
  simpa using decode_ofNat hi (by decide) hword

/-- R61: a command of the format `RR`. -/
theorem decode_ofNat_formatRR {i : Instr} (rd rs : Fin 4) (hi : i.wellFormed = true)
    (hword : encode i = packFields i.opcode rd rs 0) :
    decode (BitVec.ofNat 32 (i.opcode.toNat + 256 * rd.val + 1024 * rs.val)) = .ok i := by
  simpa using decode_ofNat hi (by decide) hword

end Sys2Proof

namespace Sys2Proof.Machine

/-! ### What a command answers (R190) -/

theorem State.drawn_bsReg (s : State) (i : Fin 4) : s.drawn.bsReg i = s.bsReg i := rfl

theorem setsBs_setBs (rd : Fin 4) (v : BitSeq) (s : State) : SetsBs rd v s (.next (s.setBs rd v)) :=
  ⟨_, rfl, State.bsReg_setBs_same s rd v, fun j hj => State.bsReg_setBs_other s rd j v hj, rfl⟩

theorem faultsWith_raiseFault {code : ErrCode} (hcode : code ≠ .decodeExhausted) (info : Nat) (s : State) :
    FaultsWith code info s (raiseFault code info s) :=
  ⟨_, rfl, rfl, rfl, State.takeFault_eq hcode info s⟩

theorem faultsWith_raiseCapacity (r : Resource) (s : State) :
    FaultsWith .capacityExceeded r.number s (raiseCapacity r s) :=
  faultsWith_raiseFault (by decide) _ s

/-! ### The effect of each command -/

theorem exec_bsPushf_toNat (rd : Fin 4) (b : Bool) (s : State) : exec (.bsPushf rd b.toNat) s =
    if s.cfg.bsCap < (s.bsReg rd).length + 1 then raiseCapacity .bs s else .next (s.setBs rd (b :: s.bsReg rd)) := by
  cases b <;> rfl

theorem exec_bsPushf_illegal (rd : Fin 4) {imm8 : Nat} (h : 1 < imm8) (s : State) :
    exec (.bsPushf rd imm8) s = raiseFault .invalidBitValue imm8 s := by
  have hnone : pushFrontBit (s.bsReg rd) imm8 = none := by
    rw [pushFrontBit, if_neg (by omega), if_neg (by omega)]
  simp only [exec, execBsPushf, hnone]

theorem exec_bsShr (rd : Fin 4) (s : State) : exec (.bsShr rd) s =
    if s.cfg.bsCap < (s.bsReg rd).length + 1 then raiseCapacity .bs s
    else .next (s.setBs rd (false :: s.bsReg rd)) := rfl

theorem exec_bsCat (rd rs : Fin 4) (s : State) : exec (.bsCat rd rs) s =
    if s.cfg.bsCap < (s.bsReg rd).length + (s.bsReg rs).length then raiseCapacity .bs s
    else .next (s.setBs rd (s.bsReg rd ++ s.bsReg rs)) := rfl

theorem exec_bsLd (rd : Fin 4) (s : State) : exec (.bsLd rd) s =
    if s.cfg.bsCap < s.blen.toNat then raiseCapacity .bs s
    else if s.cfg.ibufCap < s.ilen.toNat then raiseCapacity .ibuf s
    else if s.ilen.toNat < nbytes s.blen.toNat then raiseCapacity .ibuf s
    else .next (s.setBs rd (mkbits (s.ibufBytes 0 (nbytes s.blen.toNat)) s.blen.toNat)).drawn := rfl

/-! ### Loading and storing (R91, R99) -/

/-- R91: the bits that `BS.LD` takes, most significant first. -/
theorem mkbits_ibufBytes (s : State) (L : Nat) : (mkbits (s.ibufBytes 0 (nbytes L)) L).length = L ∧
    ∀ i < L, (mkbits (s.ibufBytes 0 (nbytes L)) L)[i]? = some ((s.ibufByte (i / 8)).getLsbD (7 - i % 8)) := by
  have hle : L ≤ 8 * (s.ibufBytes 0 (nbytes L)).length := by rw [ibufBytes_length]; exact le_eight_nbytes L
  refine ⟨mkbits_length _ _ hle, fun i hi => ?_⟩
  have hbyte := ibufBytes_getElem? s 0 (nbytes L) (i / 8) (by rw [ibufBytes_length] at hle; omega)
  rw [mkbits_getElem? _ _ _ hle hi, List.getD_eq_getElem?_getD, hbyte, Option.getD_some, Nat.zero_add]

/-- Settles O12: the tests in their order, then the register takes the bits of the bytes that were read. -/
theorem loadTakesBitsMostSignificantFirst : Obligations.LoadTakesBitsMostSignificantFirst := by
  unfold Obligations.LoadTakesBitsMostSignificantFirst
  intro s rd
  refine ⟨decode_ofNat_formatR (i := .bsLd rd) rd rfl rfl, fun hbs => ?_, fun hbs hin => ?_,
    fun hbs hilen hbytes => ?_⟩ <;> rw [exec_bsLd]
  · rw [if_pos hbs]
    exact faultsWith_raiseCapacity .bs s
  · rw [if_neg (by omega)]
    split
    · exact faultsWith_raiseCapacity .ibuf s
    · next hilen =>
      have hbytes : s.ilen.toNat < nbytes s.blen.toNat := hin.resolve_left hilen
      rw [if_pos hbytes]
      exact faultsWith_raiseCapacity .ibuf s
  · rw [if_neg (by omega), if_neg (by omega), if_neg (by unfold nbytes; omega)]
    obtain ⟨hlen, hbits⟩ := mkbits_ibufBytes s s.blen.toNat
    refine ⟨_, rfl, ?_, ?_, fun j hj => State.bsReg_setBs_other s rd j _ hj, rfl⟩ <;>
      rw [State.drawn_bsReg, State.bsReg_setBs_same]
    · exact hlen
    · exact hbits

/-- R81, R99: a buffer that the backing bytes were stored in shows each of them, bit by bit. -/
theorem read?_writeBytes_backingBytes (m : Memory) (q : BitSeq) {j : Nat} (hj : j < nbytes q.length) :
    (m.writeBytes 0 (backingBytes q)).read? j = some (byteAt q j) := by
  rw [Memory.read?_writeBytes, backingBytes_length, if_pos (by omega), Nat.sub_zero, backingBytes_getElem? q j hj]

/-- Settles O13: the capacity keeps both lengths below `2^32`, and the stored bytes are the backing bytes. -/
theorem storeWritesTheBackingBytes : Obligations.StoreWritesTheBackingBytes := by
  unfold Obligations.StoreWritesTheBackingBytes
  intro s rd hcfg hfits
  obtain ⟨-, -, -, -, -, hbsCap⟩ := hcfg
  have hlen : (s.bsReg rd).length < 2 ^ 32 := by omega
  have hnbytes : nbytes (s.bsReg rd).length < 2 ^ 32 := by unfold nbytes; omega
  refine ⟨decode_ofNat_formatR (i := .bsSt rd) rd rfl rfl, _, rfl, Nat.mod_eq_of_lt hnbytes,
    Nat.mod_eq_of_lt hlen, fun j hj => ?_, fun a ha => ?_, rfl⟩
  · exact ⟨_, read?_writeBytes_backingBytes _ _ hj, fun k hk => byteAt_getLsbD _ j k hk⟩
  · exact Memory.read?_writeBytes_beyond _ _ (by rwa [backingBytes_length])

/-! ### Clearing, shifting, prepending and appending (R90, R92 to R95) -/

/-- Settles O9: both commands write the register alone, with no test. -/
theorem clearAndShiftLeft : Obligations.ClearAndShiftLeft := by
  unfold Obligations.ClearAndShiftLeft
  intro s rd
  have hshl : exec (.bsShl rd) s = .next (s.setBs rd (shiftLeftOnce (s.bsReg rd))) := rfl
  refine ⟨decode_ofNat_formatR (i := .bsClr rd) rd rfl rfl, decode_ofNat_formatR (i := .bsShl rd) rd rfl rfl,
    setsBs_setBs rd [] s, fun hnil => ?_, fun b q hcons => ?_⟩
  · rw [hshl, hnil]
    exact setsBs_setBs rd [] s
  · rw [hshl, hcons]
    exact setsBs_setBs rd q s

/-- Settles O10: an immediate above 1 never reaches the capacity test, and a legal one is a bit. -/
theorem pushFrontAndShiftRight : Obligations.PushFrontAndShiftRight := by
  unfold Obligations.PushFrontAndShiftRight
  intro s rd imm8
  refine ⟨fun himm => decode_ofNat (i := .bsPushf rd imm8) (rs := 0) (decide_eq_true himm) himm rfl,
    decode_ofNat_formatR (i := .bsShr rd) rd rfl rfl, fun hroom => ?_, fun hillegal => ?_, fun hfull => ?_⟩
  · have hpush (b : Bool) : SetsBs rd (b :: s.bsReg rd) s (exec (.bsPushf rd b.toNat) s) := by
      rw [exec_bsPushf_toNat, if_neg (by omega)]
      exact setsBs_setBs rd _ s
    refine ⟨hpush false, hpush true, ?_⟩
    rw [exec_bsShr, if_neg (by omega)]
    exact setsBs_setBs rd _ s
  · rw [exec_bsPushf_illegal rd hillegal]
    exact faultsWith_raiseFault (by decide) imm8 s
  · refine ⟨fun hlegal => ?_, ?_⟩
    · obtain ⟨b, rfl⟩ : ∃ b : Bool, imm8 = b.toNat := by
        obtain rfl | rfl := Nat.le_one_iff_eq_zero_or_eq_one.mp hlegal
        exacts [⟨false, rfl⟩, ⟨true, rfl⟩]
      rw [exec_bsPushf_toNat, if_pos hfull]
      exact faultsWith_raiseCapacity .bs s
    · rw [exec_bsShr, if_pos hfull]
      exact faultsWith_raiseCapacity .bs s

/-- Settles O11: the appended list is made of the registers as they were before the write. -/
theorem concatenationAppends : Obligations.ConcatenationAppends := by
  unfold Obligations.ConcatenationAppends
  intro s rd rs
  refine ⟨decode_ofNat_formatRR (i := .bsCat rd rs) rd rs rfl rfl, fun hroom => ?_,
    fun hfull => ?_⟩ <;> rw [exec_bsCat]
  · rw [if_neg (by omega)]
    exact setsBs_setBs rd _ s
  · rw [if_pos hfull]
    exact faultsWith_raiseCapacity .bs s

/-! ### Tests and laws (R89, R96, R97) -/

/-- Settles O14: the flag is `start_with`, the order of leading parts, or `eq`, the equality of lists. -/
theorem testsSetTheFlag : Obligations.TestsSetTheFlag := by
  unfold Obligations.TestsSetTheFlag
  intro s rd rs
  exact ⟨decode_ofNat_formatRR (i := .bsStw rd rs) rd rs rfl rfl,
    decode_ofNat_formatRR (i := .bsEq rd rs) rd rs rfl rfl,
    ⟨_, rfl, startWith_iff _ _, rfl⟩, ⟨_, rfl, eqBits_iff _ _, rfl⟩⟩

/-- R89 (d): the left shift takes back a prepend. -/
theorem shiftLeftOnce_of_pushFrontBit {q r : BitSeq} {bit : Nat} (h : pushFrontBit q bit = some r) :
    shiftLeftOnce r = q := by
  unfold pushFrontBit at h
  split at h
  · cases h; rfl
  · split at h
    · cases h; rfl
    · cases h

/-- Settles O15: the laws of leading parts and of append, and the shifts by cases. -/
theorem bitSequenceLaws : Obligations.BitSequenceLaws := by
  unfold Obligations.BitSequenceLaws
  refine ⟨fun q => ⟨(startWith_iff q q).mpr List.prefix_rfl, (startWith_iff q []).mpr q.nil_prefix⟩,
    fun o ho => ?_, List.append_assoc, fun q hq => ?_, fun q => rfl, fun q r bit h => shiftLeftOnce_of_pushFrontBit h,
    fun a b => (startWith_iff _ _).mpr (List.prefix_append a b)⟩
  · rw [Bool.eq_false_iff, Ne, startWith_iff, List.prefix_nil]
    exact ho
  · obtain ⟨b, q, rfl⟩ := List.exists_cons_of_ne_nil hq
    rfl

end Sys2Proof.Machine

/-!
PROOFS. The encoder commands that are a pass over bytes or symbols: the frequency counter (R110), the empty input
(R117), the header (R121 to R124) and the packer (R126).
-/

namespace Sys2Proof.Machine

/-! ### The counter and the empty input (R110, R117) -/

/-- R110: how often a byte occurs among those that were read. -/
theorem ibufBytes_count (s : State) (n : Nat) (x : Byte) :
    (s.ibufBytes 0 n).count x = ((List.range n).filter fun i => s.ibufByte i = x).length := by
  simp [State.ibufBytes, List.count, List.countP_eq_length_filter, List.filter_map, Function.comp_def, beq_eq_decide]

/-- Settles O19: `ILEN` is below `2^32`, so no counter wraps. -/
theorem countCountsEveryByte : Obligations.CountCountsEveryByte := by
  unfold Obligations.CountCountsEveryByte
  refine ⟨decodeOfEncodeGivesTheCommand .encCount rfl, fun s => ⟨fun hlong => ?_, fun hfits => ?_⟩⟩
  · rw [show exec .encCount s = raiseCapacity .ibuf s from if_pos hlong]
    exact faultsWith_raiseCapacity .ibuf s
  · refine ⟨_, if_neg (by omega), fun x => ?_, rfl⟩
    calc (count (countBytes s.input) x).toNat
        = s.input.count x := count_countBytes s.input x (by simpa [State.input] using s.ilen.isLt)
      _ = _ := ibufBytes_count s _ x

/-- Settles O20: no distinct byte is left to seed a leaf with. -/
theorem emptyInputHasNoTree : Obligations.EmptyInputHasNoTree := by
  unfold Obligations.EmptyInputHasNoTree
  intro s hzero
  rw [show exec .encTree s = raiseFault .emptyInput 0 s from if_pos ((distinctBytes_eq_nil s.freq).mpr hzero)]
  exact faultsWith_raiseFault (by decide) 0 s

/-! ### The header (R121 to R124) -/

/-- R81: the backing bytes as the list of all `byte(q, j)`. -/
theorem backingBytes_eq_map_byteAt (q : BitSeq) : backingBytes q = (List.range (nbytes q.length)).map (byteAt q) := by
  apply List.ext_getElem?
  intro j
  rcases Nat.lt_or_ge j (nbytes q.length) with hj | hj
  · simp [backingBytes_getElem? q j hj, hj]
  · rw [List.getElem?_eq_none (by rwa [backingBytes_length]), List.getElem?_eq_none (by simpa using hj)]

/-- R124: the entries are those of the symbols in ascending order. -/
theorem headerBody_eq (T : Table) : headerBody T = symbols.flatMap fun x => headerEntry x (T.slot x) := by
  simp only [headerBody, SymFile.pairs_eq, List.flatMap_map]
  rfl

theorem headerBytes_length (T : Table) : (headerBytes T).length = 4 + (headerBody T).length := by
  simp [headerBytes]

/-- R6, R122: the length field is big-endian. -/
theorem beBytes_getElem? (n : Nat) {j : Nat} (hj : j < 4) :
    (beBytes n)[j]? = some (BitVec.ofNat 8 (n / 256 ^ (3 - j))) := by
  match j, hj with
  | 0, _ | 1, _ | 2, _ | 3, _ => simp [beBytes]

/-- R121: on a table whose codewords fit, `ENC.HDR` writes the header. -/
theorem exec_encHdr_of_fits {s : State} (hfits : s.cw.Fits) : exec .encHdr s = .next { s with
    obuf := s.obuf.writeBytes 0 (headerBytes s.cw)
    olen := BitVec.ofNat 32 (headerBytes s.cw).length
    hlen := BitVec.ofNat 32 (headerBytes s.cw).length } := by
  have hnone : s.cw.pairs.find? (fun p => overlong p.2) = none :=
    List.find?_eq_none.mpr fun p hp => by simp [s.cw.fits_iff.mp hfits p hp]
  simp only [exec, execEncHdr, hnone]

/-- R122: the length of a header fits the 32 bits of `OLEN`. -/
theorem toNat_headerBytes_length {T : Table} (hfits : T.Fits) :
    (BitVec.ofNat 32 (headerBytes T).length).toNat = (headerBytes T).length := by
  have := headerBytes_length_le T (T.fits_iff.mp hfits)
  rw [BitVec.toNat_ofNat]
  omega

/-- A write of bytes at the front of a buffer leaves each of them at its index. -/
theorem Memory.read?_writeBytes_front (m : Memory) (bytes : List Byte) {j : Nat} (h : j < bytes.length) :
    (m.writeBytes 0 bytes).read? j = bytes[j]? := by
  rw [Memory.read?_writeBytes, if_pos (by omega), Nat.sub_zero]

/-- Settles O26: the bytes in `OBUF` are those of the header, the length field before the entries. -/
theorem headerIsWrittenByteForByte : Obligations.HeaderIsWrittenByteForByte := by
  unfold Obligations.HeaderIsWrittenByteForByte
  intro s hfits body
  have hbody : body = headerBody s.cw := by
    rw [headerBody_eq]
    refine congrArg (List.flatMap · symbols) (funext fun x => ?_)
    cases s.cw.slot x with
    | none => rfl
    | some c => simp [headerEntry, backingBytes_eq_map_byteAt, nbytes]
  have hlen : (headerBytes s.cw).length = 4 + body.length := by rw [hbody, headerBytes_length]
  have hread (j : Nat) (hj : j < 4 + body.length) :
      (s.obuf.writeBytes 0 (headerBytes s.cw)).read? j = (headerBytes s.cw)[j]? :=
    Memory.read?_writeBytes_front _ _ (by rwa [hlen])
  have holen := toNat_headerBytes_length hfits
  rw [hlen] at holen
  refine ⟨_, exec_encHdr_of_fits hfits, by rw [hlen, holen], by rw [hlen, holen], fun j hj => ?_, fun j hj => ?_,
    fun a ha => Memory.read?_writeBytes_beyond _ _ (by omega), rfl⟩
  · rw [hread j (by omega), headerBytes, List.getElem?_append_left (by simpa using hj), beBytes_getElem? _ hj, hbody]
  · rw [hread _ (by omega), headerBytes, List.getElem?_append_right (by simp), hbody]
    simp

/-- R124: the first overlong slot in the order of the loop is that of the smallest overlong symbol. -/
theorem find?_overlong {T : Table} {x : Byte} (hx : overlong (T.slot x) = true)
    (hbelow : ∀ y : Byte, y.toNat < x.toNat → overlong (T.slot y) = false) :
    T.pairs.find? (fun p => overlong p.2) = some (x, T.slot x) := by
  have hsymbol (i : Nat) (hi : i < symbols.length) : symbols[i] = BitVec.ofNat 8 i := by simp [symbols]
  have hfirst : symbols.find? (fun y => overlong (T.slot y)) = some x := by
    refine List.find?_eq_some_iff_getElem.mpr ⟨hx, x.toNat, by simpa [symbols] using x.isLt, ?_, fun j hj => ?_⟩
    · rw [hsymbol]; simp
    · have := x.isLt
      rw [hsymbol, hbelow _ (by rw [BitVec.toNat_ofNat]; omega)]
      rfl
  rw [SymFile.pairs_eq, List.find?_map]
  exact congrArg (Option.map _) hfirst

/-- Settles O27: the symbols are tested in ascending order. -/
theorem overlongCodewordsAreRejected : Obligations.OverlongCodewordsAreRejected := by
  unfold Obligations.OverlongCodewordsAreRejected
  intro s x c hslot hlong hbelow
  have hfind : s.cw.pairs.find? (fun p => overlong p.2) = some (x, s.cw.slot x) :=
    find?_overlong (by simpa [hslot, overlong] using hlong)
      fun y hy => (overlong_eq_false_iff _).mpr fun d hd => hbelow y d hy hd
  simp only [exec, execEncHdr, hfind]
  exact faultsWith_raiseFault (by decide) _ s

/-! ### The packer (R126) -/

/-- R126: with a codeword for every byte and room for all of them, `PAY` takes their concatenation. -/
theorem exec_encPack_of_covers {s : State} (h : s.ilen.toNat ≤ s.cfg.ibufCap) (hcovers : s.cw.covers s.input)
    (hroom : (packed s.cw s.input).length ≤ s.cfg.payCap) :
    exec .encPack s = .next { s with pay := packed s.cw s.input }.drawn := by
  simp [exec, execEncPack, Nat.not_lt.mpr h, packLoop_bits s.cw s.cfg.payCap 0 [] s.input hcovers hroom]

/-- Settles O29: the loop runs through the bytes that are covered and fit, and stops at the first that is not. -/
theorem packerConcatenatesCodewords : Obligations.PackerConcatenatesCodewords := by
  unfold Obligations.PackerConcatenatesCodewords
  refine ⟨decodeOfEncodeGivesTheCommand .encPack rfl, fun s => ⟨fun hlong => ?_, fun hfits => ⟨fun hcovers hroom => ?_,
    fun i x hx hcovers hroom => ?_⟩⟩⟩
  · rw [show exec .encPack s = raiseCapacity .ibuf s from if_pos hlong]
    exact faultsWith_raiseCapacity .ibuf s
  · exact ⟨_, exec_encPack_of_covers hfits hcovers hroom, rfl, rfl⟩
  · obtain ⟨hi, rfl⟩ := List.getElem?_eq_some_iff.mp hx
    have hsplit : s.input.take i ++ s.input[i] :: s.input.drop (i + 1) = s.input := by simp
    have hindex : 0 + (s.input.take i).length = i := by simp; omega
    have hstop := packLoop_stops s.cw s.cfg.payCap 0 [] (s.input.take i) s.input[i] (s.input.drop (i + 1)) hcovers hroom
    rw [hsplit, hindex] at hstop
    obtain ⟨hunknown, hfull⟩ := hstop
    simp only [exec, execEncPack, if_neg (Nat.not_lt.mpr hfits)]
    refine ⟨fun hnone => ?_, fun c hc hover => ?_⟩
    · rw [hunknown hnone]
      exact faultsWith_raiseFault (by decide) i s
    · rw [hfull c hc hover]
      exact faultsWith_raiseCapacity .pay s

end Sys2Proof.Machine

/-!
PROOFS. The tree as it is built: the seeded leaves (R113, R116), and the pop order of the joins (R114, R115).
-/

namespace Sys2Proof.Machine

/-! ### The leaves (R113, R116) -/

/-- R113: the bytes that occur, in ascending order, are the ones the leaves are made of. -/
theorem distinctBytes_eq_of_ascending {f : SymFile Word} {D : List Byte}
    (hasc : D.Pairwise fun x y => x.toNat < y.toNat) (hmem : ∀ x, x ∈ D ↔ count f x ≠ 0) : distinctBytes f = D := by
  have hasc' : (distinctBytes f).Pairwise fun x y => x.toNat < y.toNat :=
    distinctBytes_eq f ▸ symbols_ascending.filter _
  have hnodup : D.Nodup := hasc.imp fun h e => absurd (congrArg BitVec.toNat e) (Nat.ne_of_lt h)
  have hperm : (distinctBytes f).Perm D :=
    (List.perm_ext_iff_of_nodup (distinctBytes_nodup f) hnodup).mpr fun x => by rw [mem_distinctBytes, hmem]
  exact hperm.eq_of_pairwise (fun x y _ _ hxy hyx => absurd hxy (Nat.lt_asymm hyx)) hasc' hasc

/-- R115: the loop of joins only adds entries behind those the arena has. -/
theorem joinLoop_isPrefix (fuel : Nat) (nodes : List Node) (Q : List Weighted) : nodes <+: joinLoop fuel nodes Q := by
  induction fuel generalizing nodes Q with
  | zero => exact List.prefix_rfl
  | succ fuel ih =>
    rw [joinLoop]
    split
    · exact List.prefix_rfl
    · split
      · exact List.prefix_rfl
      · exact (List.prefix_append _ _).trans (ih _ _)

/-! ### The order of the joins (R114, R115) -/

/-- R114, R115: the Internal at index `k` joins the two waiting nodes that pop first, the first popped left. -/
def JoinsLightest (nodes : List Node) (k : Nat) : Prop :=
  Waiting nodes k (nodeAt nodes k).left.toNat ∧ Waiting nodes k (nodeAt nodes k).right.toNat ∧
  PopsBefore nodes (nodeAt nodes k).left.toNat (nodeAt nodes k).right.toNat ∧
  (∀ i, Waiting nodes k i → i ≠ (nodeAt nodes k).left.toNat → i ≠ (nodeAt nodes k).right.toNat →
    PopsBefore nodes (nodeAt nodes k).right.toNat i) ∧
  (nodeAt nodes k).occ.toNat =
    (nodeAt nodes (nodeAt nodes k).left.toNat).occ.toNat + (nodeAt nodes (nodeAt nodes k).right.toNat).occ.toNat

theorem waiting_append {nodes : List Node} {n : Node} {k i : Nat} (hk : k ≤ nodes.length) :
    Waiting (nodes ++ [n]) k i ↔ Waiting nodes k i := by
  refine and_congr_right fun _ => forall₂_congr fun m hm => ?_
  rw [nodeAt_append_left _ _ _ (by omega)]

theorem popsBefore_append {nodes : List Node} {n : Node} {i j : Nat} (hi : i < nodes.length) (hj : j < nodes.length) :
    PopsBefore (nodes ++ [n]) i j ↔ PopsBefore nodes i j := by
  unfold PopsBefore
  rw [nodeAt_append_left _ _ _ hi, nodeAt_append_left _ _ _ hj]

/-- An entry's order is fixed once it is made: later entries change nothing that it depends on. -/
theorem JoinsLightest.append {nodes : List Node} {k : Nat} (h : JoinsLightest nodes k) (n : Node)
    (hk : k < nodes.length) : JoinsLightest (nodes ++ [n]) k := by
  obtain ⟨hleft, hright, horder, hothers, hweight⟩ := h
  have hl := hleft.1.trans hk
  have hr := hright.1.trans hk
  unfold JoinsLightest
  simp only [nodeAt_append_left nodes n k hk, nodeAt_append_left nodes n _ hl, nodeAt_append_left nodes n _ hr,
    waiting_append hk.le, popsBefore_append hl hr]
  refine ⟨hleft, hright, horder, fun i hi hil hir => ?_, hweight⟩
  exact (popsBefore_append hr (hi.1.trans hk)).mpr (hothers i hi hil hir)

/-- R114: the arena under construction, with the joins made so far in order, and a queue that misses no waiting
node. -/
structure OrderedJoins (leaves : List Node) (total : Nat) (nodes : List Node) (Q : List Weighted) : Prop where
  state : JoinState leaves total nodes Q
  complete : ∀ i, Waiting nodes nodes.length i → i ∈ Q.map Weighted.idx
  ordered : ∀ k < nodes.length, (nodeAt nodes k).kind = .internal → JoinsLightest nodes k

/-- R114: the members of the queue are waiting nodes. -/
theorem JoinState.waiting {leaves : List Node} {total : Nat} {nodes : List Node} {Q : List Weighted}
    (h : JoinState leaves total nodes Q) {w : Weighted} (hw : w ∈ Q) : Waiting nodes nodes.length w.idx := by
  refine ⟨(h.member w hw).1, fun m hm hc => ?_⟩
  have hchild : w.idx ∈ nodes.flatMap Node.children := List.mem_flatMap.mpr ⟨_, nodeAt_mem nodes m hm, hc⟩
  exact (List.disjoint_of_nodup_append h.unshared) hchild (List.mem_map_of_mem hw)

/-- R114: of two different members of the queue, one that no member pops before pops first. -/
theorem JoinState.popsBefore {leaves : List Node} {total : Nat} {nodes : List Node} {Q : List Weighted}
    (h : JoinState leaves total nodes Q) {v w : Weighted} (hv : v ∈ Q) (hw : w ∈ Q) (hne : v.idx ≠ w.idx)
    (hfirst : w.before v = false) : PopsBefore nodes v.idx w.idx := by
  have hnot : ¬ (w.occ < v.occ ∨ (w.occ = v.occ ∧ w.idx < v.idx)) := by rw [← Weighted.before_iff, hfirst]; simp
  unfold PopsBefore
  rw [(h.member v hv).2, (h.member w hw).2]
  omega

/-- R114: no two members of the queue stand for one node. -/
theorem JoinState.idx_nodup {leaves : List Node} {total : Nat} {nodes : List Node} {Q : List Weighted}
    (h : JoinState leaves total nodes Q) : (Q.map Weighted.idx).Nodup :=
  (List.nodup_append.mp h.unshared).2.1

/-- R115: a round of the loop makes an Internal of the two waiting nodes that pop first, and the queue still misses
none. -/
theorem OrderedJoins.join {leaves : List Node} {total : Nat} {nodes : List Node} {Q Q₁ Q₂ : List Weighted}
    {a b : Weighted} (h : OrderedJoins leaves total nodes Q) (hleaves : leaves.length ≤ 256) (htotal : total < 2 ^ 32)
    (ha : popMin Q = some (a, Q₁)) (hb : popMin Q₁ = some (b, Q₂)) :
    OrderedJoins leaves total (nodes ++ [joinNode a b]) (⟨a.occ + b.occ, nodes.length⟩ :: Q₂) := by
  have hstate := h.state.join hleaves htotal ha hb
  have hQ := popMin_twice_perm ha hb
  obtain ⟨-, -, hafirst⟩ := popMin_spec _ _ _ ha
  obtain ⟨hbmem₁, hQ₂, hbfirst⟩ := popMin_spec _ _ _ hb
  have hamem : a ∈ Q := hQ.mem_iff.mpr (by simp)
  have hbmem : b ∈ Q := hQ.mem_iff.mpr (by simp)
  have hnodup := ((hQ.map Weighted.idx).nodup_iff).mp h.state.idx_nodup
  simp only [List.map_cons, List.nodup_cons, List.mem_cons, not_or] at hnodup
  obtain ⟨⟨hab, -⟩, hbQ₂, -⟩ := hnodup
  have hrest (i : Nat) (hi : Waiting nodes nodes.length i) (hia : i ≠ a.idx) (hib : i ≠ b.idx) :
      ∃ w ∈ Q₂, w.idx = i := by
    obtain ⟨w, hw, rfl⟩ := List.mem_map.mp (h.complete i hi)
    refine ⟨w, ?_, rfl⟩
    rcases List.mem_cons.mp (hQ.mem_iff.mp hw) with rfl | hw
    · exact absurd rfl hia
    · exact (List.mem_cons.mp hw).resolve_left fun e => hib (congrArg _ e)
  have hsize := h.state.size
  have hQlen := hQ.length_eq
  simp only [List.length_cons] at hQlen
  have haidx := (h.state.member a hamem).1
  have hbidx := (h.state.member b hbmem).1
  have hnew := nodeAt_append_last nodes (joinNode a b)
  have hleft : (joinNode a b).left.toNat = a.idx := by simp only [joinNode, BitVec.toNat_ofNat]; omega
  have hright : (joinNode a b).right.toNat = b.idx := by simp only [joinNode, BitVec.toNat_ofNat]; omega
  refine ⟨hstate, fun i hi => ?complete, fun k hk hkind => ?ordered⟩
  case complete =>
    rw [List.length_append] at hi
    obtain ⟨hlt, hunused⟩ := hi
    rcases Nat.lt_succ_iff_lt_or_eq.mp hlt with hlt | rfl
    · have hchild := hunused nodes.length (Nat.lt_succ_self _)
      rw [hnew, joinNode_children a b (by omega) (by omega)] at hchild
      simp only [List.mem_cons, List.not_mem_nil, or_false, not_or] at hchild
      obtain ⟨w, hw, rfl⟩ := hrest i ((waiting_append le_rfl).mp ⟨hlt, fun m hm => hunused m (by simp; omega)⟩)
        hchild.1 hchild.2
      exact List.mem_map_of_mem (List.mem_cons_of_mem _ hw)
    · simp
  case ordered =>
    rcases Nat.lt_or_ge k nodes.length with hlt | hge
    · rw [nodeAt_append_left _ _ _ hlt] at hkind
      exact (h.ordered k hlt hkind).append _ hlt
    · obtain rfl : k = nodes.length := by simp at hk; omega
      have hweight := (hstate.member _ List.mem_cons_self).2
      dsimp only at hweight
      rw [JoinsLightest, hweight, hnew, hleft, hright, waiting_append le_rfl, waiting_append le_rfl,
        popsBefore_append haidx hbidx, nodeAt_append_left _ _ _ haidx, nodeAt_append_left _ _ _ hbidx]
      refine ⟨h.state.waiting hamem, h.state.waiting hbmem,
        h.state.popsBefore hamem hbmem hab (hafirst b hbmem), fun i hi hia hib => ?_, ?_⟩
      · obtain ⟨w, hw, rfl⟩ := hrest i ((waiting_append le_rfl).mp hi) hia hib
        have hwQ₁ : w ∈ Q₁ := List.mem_of_mem_erase (hQ₂ ▸ hw)
        have hwQ : w ∈ Q := hQ.mem_iff.mpr (by simp [hw])
        exact (popsBefore_append hbidx (h.state.member w hwQ).1).mpr
          (h.state.popsBefore hbmem hwQ (Ne.symm hib) (hbfirst w hwQ₁))
      · rw [(h.state.member a hamem).2, (h.state.member b hbmem).2]

/-- R113, R114: the seeded leaves all wait, and none of them is an Internal. -/
theorem OrderedJoins.seed (f : SymFile Word) (hne : distinctBytes f ≠ []) :
    OrderedJoins (seedLeaves f) (countTotal f) (seedLeaves f) (seedQueue (seedLeaves f)) := by
  refine ⟨JoinState.seed f hne, fun i hi => ?_, fun k hk hkind => ?_⟩
  · rw [seedQueue_map_idx]
    exact List.mem_range.mpr hi.1
  · obtain ⟨x, c, hleaf⟩ := seedLeaves_eq_leafNode f _ (nodeAt_mem _ k hk)
    rw [hleaf] at hkind
    cases hkind

/-- R112 to R115: the arena of the counts starts with the seeded leaves, has no other, and its joins are in order. -/
theorem buildTree_ordered (f : SymFile Word) (hfit : countTotal f < 2 ^ 32) (hne : distinctBytes f ≠ []) :
    leavesOf (buildTree f) = seedLeaves f ∧ (buildTree f).take (seedLeaves f).length = seedLeaves f ∧
      ∀ k < (buildTree f).length, (nodeAt (buildTree f) k).kind = .internal → JoinsLightest (buildTree f) k := by
  obtain ⟨htwo, hmax⟩ := seedLeaves_length f hne
  have hlen : (seedQueue (seedLeaves f)).length = (seedLeaves f).length := by simp [seedQueue]
  obtain ⟨w, hw⟩ := joinLoop_keeps (OrderedJoins (seedLeaves f) (countTotal f))
    (fun nodes Q a b Q₁ Q₂ h ha hb => h.join hmax hfit ha hb) (seedLeaves f).length (seedLeaves f)
    (seedQueue (seedLeaves f)) (OrderedJoins.seed f hne) (List.length_pos_iff.mp (by omega)) (by omega)
  exact ⟨hw.state.leaves_eq, (List.prefix_iff_eq_take.mp (joinLoop_isPrefix _ _ _)).symm, hw.ordered⟩

/-- Settles O23, by the loop invariant `OrderedJoins`. -/
theorem everyJoinTakesTheTwoLightest : Obligations.EveryJoinTakesTheTwoLightest := by
  unfold Obligations.EveryJoinTakesTheTwoLightest
  rintro s hfit ⟨x, hx⟩
  have hne : distinctBytes s.freq ≠ [] := fun h => hx ((distinctBytes_eq_nil s.freq).mp h x)
  obtain ⟨htree, -⟩ := buildTree_tree s.freq hfit hne
  have hleaves := htree.leaves_le
  obtain ⟨-, hsize, -⟩ := htree
  obtain ⟨heq, htake, hordered⟩ := buildTree_ordered s.freq hfit hne
  have hroot : (BitVec.ofNat 9 ((buildTree s.freq).length - 1)).toNat = (buildTree s.freq).length - 1 := by
    rw [BitVec.toNat_ofNat]
    omega
  exact ⟨_, if_neg hne, hsize, hroot, by rw [heq]; exact htake, hordered⟩

/-- R116: the tree of a single byte. -/
theorem buildTree_of_single {f : SymFile Word} {x : Byte} (hx : distinctBytes f = [x]) :
    buildTree f = [leafNode x (count f x), leafNode (x + 1) 0, ⟨.internal, 0, 1, 0, count f x⟩] := by
  have hpos : 0 < (count f x).toNat := by
    have hne : count f x ≠ 0 := (mem_distinctBytes f x).mp (by simp [hx])
    exact Nat.pos_of_ne_zero fun h => hne (BitVec.eq_of_toNat_eq h)
  have hseed : seedLeaves f = [leafNode x (count f x), leafNode (x + 1) 0] := by simp [seedLeaves, hx]
  have hqueue : seedQueue [leafNode x (count f x), leafNode (x + 1) 0] = [⟨(count f x).toNat, 0⟩, ⟨0, 1⟩] := rfl
  have hfirst : popMin [⟨(count f x).toNat, 0⟩, ⟨0, 1⟩] = some (⟨0, 1⟩, [⟨(count f x).toNat, 0⟩]) := by
    simp [popMin, firstOut, Weighted.before, hpos, hpos.ne']
  have hlast (w : Weighted) : popMin [w] = some (w, []) := by simp [popMin, firstOut]
  have hnone : popMin [] = none := rfl
  rw [buildTree, hseed, hqueue]
  simp [joinLoop, hfirst, hlast, hnone, joinNode]

/-- Settles O22: the leaves are those seeded from the distinct bytes. -/
theorem leavesAreSeededInAscendingOrder : Obligations.LeavesAreSeededInAscendingOrder := by
  unfold Obligations.LeavesAreSeededInAscendingOrder
  intro s D hfit hasc hmem hD
  obtain rfl := distinctBytes_eq_of_ascending hasc hmem
  obtain ⟨heq, htake, -⟩ := buildTree_ordered s.freq hfit hD
  refine ⟨_, if_neg hD, fun htwo => ?_, fun x hx => ?_, rfl⟩
  · obtain ⟨x, hx, -⟩ | ⟨-, hseed⟩ := seedLeaves_cases s.freq
    · rw [hx] at htwo
      exact absurd htwo (by simp)
    · rw [heq]
      refine ⟨hseed, ?_⟩
      rw [hseed, List.length_map] at htake
      rw [htake, hseed]
  · have htree := buildTree_of_single hx
    exact ⟨htree, by rw [htree]; rfl⟩

end Sys2Proof.Machine

/-!
PROOFS. The table generator (R118 to R120): on a tree every entry is reached from the root by exactly one walk, so the
codewords are the walks that end at leaves.
-/

namespace Sys2Proof.Machine

/-! ### Children -/

/-- The child that a branch bit leads to, 0 to the left and 1 to the right (R118). -/
def Node.child (n : Node) (b : Bool) : Nat := if b then n.right.toNat else n.left.toNat

theorem children_internal {n : Node} (h : n.kind = .internal) : n.children = [n.child false, n.child true] := by
  simp [Node.children, Node.child, h]

theorem child_mem_children {n : Node} (h : n.kind = .internal) (b : Bool) : n.child b ∈ n.children := by
  cases b <;> simp [children_internal h]

theorem exists_child_of_mem {n : Node} {c : Nat} (h : c ∈ n.children) : n.kind = .internal ∧ ∃ b, n.child b = c := by
  cases hk : n.kind with
  | leaf => simp [children_leaf hk] at h
  | internal =>
    rw [children_internal hk, List.mem_pair] at h
    exact ⟨rfl, h.elim (fun e => ⟨false, e.symm⟩) fun e => ⟨true, e.symm⟩⟩

theorem lt_length_of_internal {nodes : List Node} {k : Nat} (h : (nodeAt nodes k).kind = .internal) :
    k < nodes.length :=
  (internalsBelow_succ nodes k h).1

/-! ### Walks down an arena -/

theorem follow_cons (nodes : List Node) (i : Nat) (b : Bool) (path : BitSeq) (k : Nat) :
    follow nodes i (b :: path) = some k ↔
      (nodeAt nodes i).kind = .internal ∧ follow nodes ((nodeAt nodes i).child b) path = some k := by
  rw [follow]
  cases (nodeAt nodes i).kind <;> simp [Node.child]

theorem follow_leaf {nodes : List Node} {i k : Nat} {path : BitSeq} (hleaf : (nodeAt nodes i).kind = .leaf) :
    follow nodes i path = some k ↔ path = [] ∧ i = k := by
  cases path with
  | nil => simp [follow]
  | cons b path => simp [follow_cons, hleaf]

theorem follow_append (nodes : List Node) (i : Nat) (front back : BitSeq) (k : Nat) :
    follow nodes i (front ++ back) = some k ↔
      ∃ m, follow nodes i front = some m ∧ follow nodes m back = some k := by
  induction front generalizing i with
  | nil => simp [follow]
  | cons b front ih => simp [follow_cons, ih, and_assoc]

theorem follow_concat (nodes : List Node) (i : Nat) (path : BitSeq) (b : Bool) (k : Nat) :
    follow nodes i (path ++ [b]) = some k ↔
      ∃ m, follow nodes i path = some m ∧ (nodeAt nodes m).kind = .internal ∧ (nodeAt nodes m).child b = k := by
  rw [follow_append]
  refine exists_congr fun m => and_congr_right fun _ => ?_
  rw [follow_cons]
  simp [follow]

theorem nodeAt_eq_getElem {nodes : List Node} {k : Nat} (hk : k < nodes.length) : nodeAt nodes k = nodes[k] := by
  simp [nodeAt, List.getD_eq_getElem?_getD, hk]

/-- What holds of any two entries of an arena holds of the entries at two different indices. -/
theorem nodeAt_of_pairwise {R : Node → Node → Prop} (hsymm : ∀ m n, R m n → R n m) {nodes : List Node}
    (h : nodes.Pairwise R) {i j : Nat} (hi : i < nodes.length) (hj : j < nodes.length) (hne : i ≠ j) :
    R (nodeAt nodes i) (nodeAt nodes j) := by
  rw [nodeAt_eq_getElem hi, nodeAt_eq_getElem hj]
  rcases Nat.lt_or_gt_of_ne hne with hlt | hlt
  · exact List.pairwise_iff_getElem.mp h i j hi hj hlt
  · exact hsymm _ _ (List.pairwise_iff_getElem.mp h j i hj hi hlt)

/-- R22: no child is shared, so a node has one parent and is its child on one side. -/
theorem parent_unique {nodes : List Node} (hnodup : (nodes.flatMap Node.children).Nodup) {m m' : Nat} {b b' : Bool}
    (hm : (nodeAt nodes m).kind = .internal) (hm' : (nodeAt nodes m').kind = .internal)
    (h : (nodeAt nodes m).child b = (nodeAt nodes m').child b') : m = m' ∧ b = b' := by
  obtain ⟨hsides, hdisjoint⟩ := List.nodup_flatMap.mp hnodup
  have hmm' : m = m' := by
    by_contra hne
    have hdisj := nodeAt_of_pairwise (fun _ _ hd => hd.symm) hdisjoint (lt_length_of_internal hm)
      (lt_length_of_internal hm') hne
    exact hdisj (child_mem_children hm b) (h ▸ child_mem_children hm' b')
  subst hmm'
  have hpair := hsides _ (nodeAt_mem nodes m (lt_length_of_internal hm))
  rw [children_internal hm] at hpair
  have hne : (nodeAt nodes m).child false ≠ (nodeAt nodes m).child true := by simpa using hpair
  refine ⟨rfl, ?_⟩
  match b, b' with
  | false, false | true, true => rfl
  | false, true => exact absurd h hne
  | true, false => exact absurd h.symm hne

section
variable {nodes : List Node} (hdown : ∀ k < nodes.length, ∀ c ∈ (nodeAt nodes k).children, c < k)

include hdown

theorem child_lt {i : Nat} (h : (nodeAt nodes i).kind = .internal) (b : Bool) : (nodeAt nodes i).child b < i :=
  hdown i (lt_length_of_internal h) _ (child_mem_children h b)

/-- R22: a walk of any length leads to a smaller index. -/
theorem follow_le {i k : Nat} {path : BitSeq} (h : follow nodes i path = some k) : k + path.length ≤ i := by
  induction path generalizing i with
  | nil => simp [follow] at h; simp [h]
  | cons b path ih =>
    obtain ⟨hk, hpath⟩ := (follow_cons _ _ _ _ _).mp h
    have := ih hpath
    have := child_lt hdown hk b
    simp only [List.length_cons]
    omega

/-- R22, R118: on a tree a walk is determined by where it starts and where it ends. -/
theorem follow_unique (hnodup : (nodes.flatMap Node.children).Nodup) {i k : Nat} {c d : BitSeq}
    (hc : follow nodes i c = some k) (hd : follow nodes i d = some k) : c = d := by
  induction c using List.reverseRecOn generalizing d k with
  | nil =>
    have := follow_le hdown hd
    have := follow_le hdown hc
    simp [follow] at hc
    exact (List.length_eq_zero_iff.mp (by omega)).symm
  | append_singleton c b ih =>
    have hlt := follow_le hdown hc
    obtain ⟨m, hm, hmk, hmb⟩ := (follow_concat _ _ _ _ _).mp hc
    rcases List.eq_nil_or_concat' d with rfl | ⟨d, b', rfl⟩
    · simp [follow] at hd hlt
      omega
    · obtain ⟨m', hm', hmk', hmb'⟩ := (follow_concat _ _ _ _ _).mp hd
      obtain ⟨rfl, rfl⟩ := parent_unique hnodup hmk hmk' (hmb.trans hmb'.symm)
      rw [ih hm hm']

end

/-! ### The entries of a tree (R22) -/

theorem mem_flatMap_children {nodes : List Node} {c : Nat} (h : c ∈ nodes.flatMap Node.children) :
    ∃ m, (nodeAt nodes m).kind = .internal ∧ ∃ b, (nodeAt nodes m).child b = c := by
  obtain ⟨n, hn, hc⟩ := List.mem_flatMap.mp h
  obtain ⟨m, hm, rfl⟩ := List.getElem_of_mem hn
  exact ⟨m, nodeAt_eq_getElem hm ▸ exists_child_of_mem hc⟩

/-- Every Internal of an arena points twice, and every other entry is a Leaf. -/
theorem flatMap_children_length (nodes : List Node) :
    (nodes.flatMap Node.children).length + 2 * (leavesOf nodes).length = 2 * nodes.length := by
  induction nodes with
  | nil => rfl
  | cons n nodes ih =>
    cases hk : n.kind with
    | leaf =>
      have hleaves : leavesOf (n :: nodes) = n :: leavesOf nodes := by simp [leavesOf, hk]
      rw [hleaves, List.flatMap_cons, children_leaf hk, List.nil_append]
      simp only [List.length_cons]
      omega
    | internal =>
      have hleaves : leavesOf (n :: nodes) = leavesOf nodes := by simp [leavesOf, hk]
      rw [hleaves, List.flatMap_cons, children_internal hk, List.length_append]
      simp only [List.length_cons, List.length_nil]
      omega

section
variable {nodes : List Node} {root : NodeIdx} (h : TreeShape nodes root)

include h

theorem TreeShape.root_toNat : root.toNat + 1 = nodes.length := by
  have hle := h.leaves_le
  obtain ⟨htwo, hsize, rfl, -⟩ := h
  rw [BitVec.toNat_ofNat]
  omega

/-- R22: the children of a tree are distinct and one fewer than its entries, so every entry but the root is one. -/
theorem TreeShape.child_of_lt_root {k : Nat} (hk : k < root.toNat) : k ∈ nodes.flatMap Node.children := by
  have hroot := h.root_toNat
  obtain ⟨htwo, hsize, -, hdown, hnodup, -⟩ := h
  have hsub : nodes.flatMap Node.children ⊆ List.range root.toNat := fun c hc => by
    obtain ⟨m, hm, b, rfl⟩ := mem_flatMap_children hc
    have := child_lt hdown hm b
    have := lt_length_of_internal hm
    exact List.mem_range.mpr (by omega)
  have hcount := flatMap_children_length nodes
  have hperm := (hnodup.subperm hsub).perm_of_length_le (by rw [List.length_range]; omega)
  exact hperm.mem_iff.mpr (List.mem_range.mpr hk)

/-- R22: every entry of a tree is reached from the root. -/
theorem TreeShape.reachable {k : Nat} (hk : k < nodes.length) : ∃ c, follow nodes root.toNat c = some k := by
  have hroot := h.root_toNat
  induction hd : root.toNat - k using Nat.strong_induction_on generalizing k with
  | _ d ih =>
    rcases Nat.lt_or_ge k root.toNat with hlt | hge
    · obtain ⟨m, hm, b, rfl⟩ := mem_flatMap_children (h.child_of_lt_root hlt)
      have hmlt := lt_length_of_internal hm
      have ⟨_, _, _, hdown, _⟩ := h
      have := child_lt hdown hm b
      obtain ⟨c, hc⟩ := ih _ (by omega) hmlt rfl
      exact ⟨c ++ [b], (follow_concat _ _ _ _ _).mpr ⟨m, hc, hm, rfl⟩⟩
    · exact ⟨[], by rw [follow]; congr 1; omega⟩

/-- R22: the root of a tree is an Internal, since it does not lead to entry 0 otherwise. -/
theorem TreeShape.root_internal : (nodeAt nodes root.toNat).kind = .internal := by
  have hroot := h.root_toNat
  cases hk : (nodeAt nodes root.toNat).kind with
  | internal => rfl
  | leaf =>
    obtain ⟨c, hc⟩ := h.reachable (k := 0) (by omega)
    obtain ⟨-, hzero⟩ := (follow_leaf hk).mp hc
    obtain ⟨htwo, hsize, -⟩ := h
    omega

/-- R22: no symbol is on two leaves. -/
theorem TreeShape.leaf_unique {j k : Nat} (hj : j < nodes.length) (hk : k < nodes.length)
    (hjleaf : (nodeAt nodes j).kind = .leaf) (hkleaf : (nodeAt nodes k).kind = .leaf)
    (hsym : (nodeAt nodes j).sym = (nodeAt nodes k).sym) : j = k := by
  obtain ⟨-, -, -, -, -, hsyms, -⟩ := h
  have hpair := List.pairwise_filter.mp (List.pairwise_map.mp hsyms)
  by_contra hne
  refine nodeAt_of_pairwise (fun m n hmn hn hm e => hmn hm hn e.symm) hpair hj hk hne ?_ ?_ hsym <;> simpa

/-! ### The table of a tree (R118 to R120) -/

/-- R22, R118: `derive` gives no symbol twice. -/
theorem TreeShape.deriveCodes_syms_nodup {fuel i : Nat} {entries : List (Byte × BitSeq)} (hi : i < nodes.length)
    (hentries : deriveCodes nodes fuel i = some entries) : (entries.map Prod.fst).Nodup := by
  have ⟨_, _, _, hdown, hnodup, _⟩ := h
  induction fuel generalizing i entries with
  | zero => simp [deriveCodes] at hentries
  | succ fuel ih =>
    rw [deriveCodes] at hentries
    cases hk : (nodeAt nodes i).kind with
    | leaf =>
      simp only [hk, Option.some.injEq] at hentries
      subst hentries
      simp
    | internal =>
      simp only [hk] at hentries
      split at hentries
      · next l r hl hr =>
        have hbelow (b : Bool) := child_lt hdown hk b
        simp only [Option.some.injEq] at hentries
        subst hentries
        simp only [List.map_append, List.map_map, Function.comp_def]
        refine List.nodup_append'.mpr ⟨ih ((hbelow false).trans hi) hl, ih ((hbelow true).trans hi) hr, ?_⟩
        intro x hxl hxr
        obtain ⟨⟨_, c⟩, hc, rfl⟩ := List.mem_map.mp hxl
        obtain ⟨⟨_, d⟩, hd, hx⟩ := List.mem_map.mp hxr
        obtain ⟨j, hj, hjleaf, hjsym⟩ := (mem_deriveCodes _ _ _ _ hl _ _).mp hc
        obtain ⟨k, hk', hkleaf, hksym⟩ := (mem_deriveCodes _ _ _ _ hr _ _).mp hd
        have hj' := (follow_cons nodes i false c j).mpr ⟨hk, hj⟩
        have hk' := (follow_cons nodes i true d k).mpr ⟨hk, hk'⟩
        have := follow_le hdown hj'
        have := follow_le hdown hk'
        obtain rfl := h.leaf_unique (by omega) (by omega) hjleaf hkleaf (hjsym.trans (hksym.trans hx).symm)
        simpa using follow_unique hdown hnodup hj' hk'
      · cases hentries

/-- R118: the codewords of a tree are the walks from its root to its leaves. -/
theorem TreeShape.slot_eq_some_iff {T : Table} (hT : deriveTable nodes root = some T) (x : Byte) (c : BitSeq) :
    T.slot x = some c ↔ ∃ k < nodes.length, follow nodes root.toNat c = some k ∧ (nodeAt nodes k).kind = .leaf ∧
      (nodeAt nodes k).sym = x := by
  have hroot := h.root_toNat
  have ⟨_, _, _, hdown, _⟩ := h
  obtain ⟨entries, hentries, rfl⟩ := Option.map_eq_some_iff.mp hT
  rw [slot_tableOf entries (h.deriveCodes_syms_nodup (by omega) hentries), mem_deriveCodes _ _ _ _ hentries]
  refine exists_congr fun k => ⟨fun hk => ⟨?_, hk⟩, And.right⟩
  have := follow_le hdown hk.1
  omega

/-- R118: the symbols with a codeword are those of the leaves. -/
theorem TreeShape.slot_isSome_iff {T : Table} (hT : deriveTable nodes root = some T) (x : Byte) :
    (T.slot x).isSome = true ↔ x ∈ (leavesOf nodes).map Node.sym := by
  simp only [Option.isSome_iff_exists, h.slot_eq_some_iff hT]
  constructor
  · rintro ⟨c, k, hk, -, hleaf, rfl⟩
    exact List.mem_map_of_mem (List.mem_filter.mpr ⟨nodeAt_mem nodes k hk, by simpa using hleaf⟩)
  · intro hx
    obtain ⟨n, hn, rfl⟩ := List.mem_map.mp hx
    obtain ⟨hmem, hleaf⟩ := List.mem_filter.mp hn
    obtain ⟨k, hk, rfl⟩ := List.getElem_of_mem hmem
    obtain ⟨c, hc⟩ := h.reachable hk
    exact ⟨c, k, hk, hc, by simpa [nodeAt_eq_getElem hk] using hleaf, by rw [nodeAt_eq_getElem hk]⟩

/-- R119: a walk that goes on ends at no leaf, so no codeword of a tree leads another. -/
theorem TreeShape.prefixFree {T : Table} (hT : deriveTable nodes root = some T) : T.PrefixFree := by
  refine ⟨?_, ?_⟩
  · rintro x c hc rfl
    obtain ⟨k, -, hk, hleaf, -⟩ := (h.slot_eq_some_iff hT x []).mp hc
    obtain rfl := Option.some.inj hk
    rw [h.root_internal] at hleaf
    cases hleaf
  · rintro x y c d hne hc hd ⟨e, rfl⟩
    obtain ⟨j, -, hj, hjleaf, rfl⟩ := (h.slot_eq_some_iff hT x c).mp hc
    obtain ⟨k, -, hk, -, rfl⟩ := (h.slot_eq_some_iff hT y (c ++ e)).mp hd
    obtain ⟨m, hm, he⟩ := (follow_append _ _ _ _ _).mp hk
    obtain rfl := Option.some.inj (hj.symm.trans hm)
    obtain ⟨-, rfl⟩ := (follow_leaf hjleaf).mp he
    exact hne rfl

end

/-- R118: on a tree `ENC.TABLE` writes its table. -/
theorem exec_encTable_of_deriveTable {s : State} {T : Table} (hroot : s.root ≠ NodeIdx.nil)
    (hT : deriveTable s.nodes s.root = some T) : exec .encTable s = .next { s with cw := T } := by
  simp [exec, execEncTable, hroot, hT]

/-- Settles O24: the walk of `derive` ends, and its entries are the walks to the leaves. -/
theorem codewordsAreThePathsOfTheTree : Obligations.CodewordsAreThePathsOfTheTree := by
  unfold Obligations.CodewordsAreThePathsOfTheTree
  refine fun s => ⟨fun hnil => ?_, fun hroot htree => ?_⟩
  · rw [show exec .encTable s = raiseFault .noTree 0 s from if_pos hnil]
    exact faultsWith_raiseFault (by decide) 0 s
  · obtain ⟨T, hT⟩ := Option.isSome_iff_exists.mp htree.deriveTable_isSome
    exact ⟨_, exec_encTable_of_deriveTable hroot hT, htree.slot_eq_some_iff hT, rfl⟩

/-- Settles O25: the table that `ENC.TABLE` leaves is the one of the tree. -/
theorem derivedTableIsPrefixFree : Obligations.DerivedTableIsPrefixFree := by
  unfold Obligations.DerivedTableIsPrefixFree
  intro s t hroot htree h
  obtain ⟨hnil, -⟩ | ⟨-, T, hT, rfl⟩ := execEncTable_next s t h
  · exact absurd hnil hroot
  · exact ⟨htree.prefixFree hT, deriveTable_fits _ _ T htree hT, htree.slot_isSome_iff hT⟩

end Sys2Proof.Machine

/-!
PROOFS. `ENC.ALL` (R128, R173): command words written one after another do what a composite command does, and what it
leaves on written, non-empty input.
-/

namespace Sys2Proof.Machine

/-! ### A list of command words (R170, R173) -/

/-- The state with other accesses of the host to come. -/
def State.withScript (script : List HostAction) (s : State) : State := { s with script := script }

/-- The host's writes of the words of some commands, one after another. -/
def commandWrites (is : List Instr) : List HostAction := is.map fun i => commandWrite (encode i)

/-- R173: some commands as one composite command. -/
def execInOrder : List Instr → State → Result
  | [], s => .next s
  | i :: is, s => andThen (exec i s) (execInOrder is)

/-- R173: a sequence of three parts is a sequence of two in either way. -/
theorem andThen_assoc (first : Result) (f g : State → Result) :
    andThen (andThen first f) g = andThen first fun s => andThen (f s) g := by
  cases first with
  | next t => by_cases ht : t.err = .none <;> simp [andThen, ht]
  | fault f => rfl
  | refused r => rfl

theorem andThen_next_self (r : Result) : andThen r .next = r := by
  cases r with
  | next t => simp [andThen]
  | fault f => rfl
  | refused r => rfl

/-- R170, R191: a command other than `SYS.RESET` is held off while a fault is recorded. -/
theorem takeCommand_heldOff {i : Instr} (hwf : i.wellFormed = true) (hi : i ≠ .sysReset) {s : State}
    (herr : s.err ≠ .none) : takeCommand (encode i) s = .next s := by
  unfold takeCommand
  rw [decodeOfEncodeGivesTheCommand i hwf]
  split
  · next h => exact absurd (Except.ok.inj h) hi
  · simp [State.faulted, herr]
  · next h => cases h

/-- R45: a step takes the first of the words. -/
theorem step_commandWrites (i : Instr) (is : List Instr) (rest : List HostAction) (s : State) :
    step (s.withScript (commandWrites (i :: is) ++ rest)) =
      takeCommand (encode i) (s.withScript (commandWrites is ++ rest)) :=
  step_of_script (s := s.withScript (commandWrites (i :: is) ++ rest)) rfl

/-- R191: the words of commands other than `SYS.RESET` are taken and held off while a fault is recorded. -/
theorem run_heldOff {is : List Instr} (hwf : ∀ i ∈ is, i.wellFormed = true ∧ i ≠ .sysReset)
    (rest : List HostAction) {s : State} (herr : s.err ≠ .none) :
    core.run is.length (s.withScript (commandWrites is ++ rest)) = .next (s.withScript rest) := by
  induction is with
  | nil => rfl
  | cons i is ih =>
    obtain ⟨hi, his⟩ := List.forall_mem_cons.mp hwf
    have hstep : core.step (s.withScript (commandWrites (i :: is) ++ rest)) =
        .next (s.withScript (commandWrites is ++ rest)) :=
      (step_commandWrites i is rest s).trans (takeCommand_heldOff hi.1 hi.2 herr)
    simp only [List.length_cons, Host.Core.run, hstep]
    exact ih his

/-- R170, R173: the words of some commands written one after another do what the composite command of them does. -/
theorem run_commandWrites {is : List Instr} (hwf : ∀ i ∈ is, i.wellFormed = true ∧ i ≠ .sysReset)
    (hcommutes : ∀ i ∈ is, ∀ script, Commutes (State.withScript script) (exec i)) (rest : List HostAction)
    {s : State} (herr : s.err = .none) :
    core.run is.length (s.withScript (commandWrites is ++ rest)) = execInOrder is (s.withScript rest) := by
  induction is generalizing s with
  | nil => rfl
  | cons i is ih =>
    obtain ⟨hi, his⟩ := List.forall_mem_cons.mp hwf
    obtain ⟨hci, hcis⟩ := List.forall_mem_cons.mp hcommutes
    have hstep : core.step (s.withScript (commandWrites (i :: is) ++ rest)) =
        mapNext (State.withScript (commandWrites is ++ rest)) (exec i (s.withScript rest)) :=
      calc step (s.withScript (commandWrites (i :: is) ++ rest))
          = takeCommand (encode i) (s.withScript (commandWrites is ++ rest)) := step_commandWrites i is rest s
        _ = exec i (s.withScript (commandWrites is ++ rest)) :=
          takeCommand_of_decode (decodeOfEncodeGivesTheCommand i hi.1) (.inl herr)
        _ = _ := hci (commandWrites is ++ rest) (s.withScript rest)
    simp only [List.length_cons, Host.Core.run, hstep, execInOrder]
    cases hrun : exec i (s.withScript rest) with
    | fault f => rfl
    | refused r => rfl
    | next t =>
      have ht : t.withScript rest = t := (hci rest).unchanged hrun rfl
      by_cases herr : t.err = .none
      · simp only [mapNext, andThen, herr, if_true]
        rw [ih his hcis herr, ht]
      · simp only [mapNext, andThen, herr, if_false]
        exact (run_heldOff his rest herr).trans (congrArg Host.Outcome.next ht)

/-! ### The parts of ENC.ALL (R128) -/

/-- The parts of `ENC.ALL` in their order (R128). -/
def encAllParts : List Instr := [.encCount, .encTree, .encTable, .encHdr, .encPack]

/-- R170, R173: `ENC.ALL` is its five parts. -/
theorem exec_encAll_eq (s : State) : exec .encAll s = execInOrder encAllParts s := by
  simp only [exec, execEncAll, encAllParts, execInOrder, andThen_assoc, andThen_next_self]

/-- R13: no part of `ENC.ALL` sees or changes the host's accesses to come. -/
theorem exec_encAllPart_commutes {i : Instr} (hi : i ∈ encAllParts) (script : List HostAction) :
    Commutes (State.withScript script) (exec i) := by
  intro s
  simp only [encAllParts, List.mem_cons, List.not_mem_nil, or_false] at hi
  rcases hi with rfl | rfl | rfl | rfl | rfl <;> simp only [exec]
  · simp only [execEncCount, apply_ite (mapNext _)]
    rfl
  · simp only [execEncTree, apply_ite (mapNext _)]
    rfl
  · have hsame : deriveTable (s.withScript script).nodes (s.withScript script).root =
      deriveTable s.nodes s.root := rfl
    simp only [execEncTable, hsame, apply_ite (mapNext _)]
    cases deriveTable s.nodes s.root <;> rfl
  · have hsame : (s.withScript script).cw = s.cw := rfl
    simp only [execEncHdr, hsame]
    cases s.cw.pairs.find? fun p => overlong p.2 <;> rfl
  · have hsame : packLoop (s.withScript script).cw (s.withScript script).cfg.payCap 0 [] (s.withScript script).input =
      packLoop s.cw s.cfg.payCap 0 [] s.input := rfl
    simp only [execEncPack, hsame, apply_ite (mapNext _)]
    cases packLoop s.cw s.cfg.payCap 0 [] s.input <;> rfl

/-- Settles O30: without a fault recorded both sides are the parts in their order, and with one all words are held
off. -/
theorem encodeAllIsItsFiveParts : Obligations.EncodeAllIsItsFiveParts := by
  unfold Obligations.EncodeAllIsItsFiveParts
  intro s rest
  have hstep : step (s.withScript (commandWrites [.encAll] ++ rest)) =
      core.run encAllParts.length (s.withScript (commandWrites encAllParts ++ rest)) := by
    have hwf : ∀ i ∈ encAllParts, i.wellFormed = true ∧ i ≠ .sysReset := by decide
    rw [step_commandWrites]
    by_cases herr : s.err = .none
    · rw [run_commandWrites hwf (fun i hi => exec_encAllPart_commutes hi) rest herr, ← exec_encAll_eq]
      exact takeCommand_of_decode (decodeOfEncodeGivesTheCommand .encAll rfl) (.inl herr)
    · rw [run_heldOff hwf rest herr]
      exact takeCommand_heldOff rfl (by decide) herr
  exact hstep

/-! ### The tree and the table of an input (R110 to R119) -/

/-- R9, R22: the root of a tree is a node. -/
theorem TreeShape.root_ne_nil {nodes : List Node} {root : NodeIdx} (h : TreeShape nodes root) : root ≠ NodeIdx.nil := by
  have hroot := h.root_toNat
  have hle := h.leaves_le
  obtain ⟨-, hsize, -⟩ := h
  rintro rfl
  have : NodeIdx.nil.toNat = 511 := rfl
  omega

/-- R113: every byte that occurs has a seeded leaf. -/
theorem mem_seedLeaves_syms {f : SymFile Word} {x : Byte} (hx : count f x ≠ 0) :
    x ∈ (seedLeaves f).map Node.sym := by
  have hmem := (mem_distinctBytes f x).mpr hx
  rcases seedLeaves_cases f with ⟨y, hy, hs⟩ | ⟨-, hs⟩ <;> rw [hs]
  · obtain rfl : x = y := by simpa [hy] using hmem
    simp [leafNode]
  · simpa [leafNode, Function.comp_def] using hmem

section
variable {d : List Byte} (hlen : d.length < 2 ^ 32)

include hlen

/-- R110, R113: the counters of an input are not 0 at its bytes. -/
theorem count_countBytes_ne_zero {x : Byte} (hx : x ∈ d) : count (countBytes d) x ≠ 0 := by
  intro hzero
  have hcount := count_countBytes d x hlen
  rw [hzero] at hcount
  exact (List.count_pos_iff.mpr hx).ne hcount

theorem distinctBytes_countBytes_ne_nil (hne : d ≠ []) : distinctBytes (countBytes d) ≠ [] := by
  obtain ⟨x, hx⟩ := List.exists_mem_of_ne_nil d hne
  exact List.ne_nil_of_mem ((mem_distinctBytes _ x).mpr (count_countBytes_ne_zero hlen hx))

theorem countTotal_countBytes_lt : countTotal (countBytes d) < 2 ^ 32 := by
  rwa [countTotal_countBytes d hlen]

/-- R112: a non-empty input has a tree. -/
theorem buildTree_countBytes_tree (hne : d ≠ []) :
    TreeShape (buildTree (countBytes d)) (BitVec.ofNat 9 ((buildTree (countBytes d)).length - 1)) :=
  (buildTree_tree _ (countTotal_countBytes_lt hlen) (distinctBytes_countBytes_ne_nil hlen hne)).1

/-- R118: the table of an input covers it. -/
theorem deriveTable_covers (hne : d ≠ []) {T : Table}
    (hT : deriveTable (buildTree (countBytes d)) (BitVec.ofNat 9 ((buildTree (countBytes d)).length - 1)) = some T) :
    T.covers d := by
  intro x hx
  obtain ⟨hleaves, -⟩ := buildTree_ordered _ (countTotal_countBytes_lt hlen) (distinctBytes_countBytes_ne_nil hlen hne)
  rw [(buildTree_countBytes_tree hlen hne).slot_isSome_iff hT, hleaves]
  exact mem_seedLeaves_syms (count_countBytes_ne_zero hlen hx)

end

/-! ### What ENC.ALL leaves (R128) -/

theorem execInOrder_cons_of_next {i : Instr} {is : List Instr} {s t : State} (h : exec i s = .next t)
    (herr : t.err = .none) : execInOrder (i :: is) s = execInOrder is t := by
  simp [execInOrder, h, andThen, herr]

/-- R128: the state that `ENC.ALL` leaves on the input `d`, whose table is `T`. -/
def State.encoded (s : State) (d : List Byte) (T : Table) : State :=
  { s with
    freq := countBytes d
    nodes := buildTree (countBytes d)
    root := BitVec.ofNat 9 ((buildTree (countBytes d)).length - 1)
    cw := T
    obuf := s.obuf.writeBytes 0 (headerBytes T)
    olen := BitVec.ofNat 32 (headerBytes T).length
    hlen := BitVec.ofNat 32 (headerBytes T).length
    pay := packed T d
    draws := s.draws + 2 }

/-- R19: the bytes of an input are fewer than `2^32`. -/
theorem State.HoldsInput.length_lt {s : State} {d : List Byte} (h : s.HoldsInput d) : d.length < 2 ^ 32 :=
  h.1 ▸ s.ilen.isLt

/-- R25: a command reads the written bytes, whatever free bytes it would draw. -/
theorem State.HoldsInput.input_eq {s : State} {d : List Byte} (h : s.HoldsInput d) : s.input = d := by
  obtain ⟨hilen, -, hread⟩ := h
  apply List.ext_getElem?
  intro i
  rw [State.input, hilen]
  rcases Nat.lt_or_ge i d.length with hi | hi
  · rw [ibufBytes_getElem? s 0 _ i hi, Nat.zero_add, List.getElem?_eq_getElem hi]
    exact congrArg some (ibufByte_written s i _ ((hread i hi).trans (List.getElem?_eq_getElem hi)))
  · rw [List.getElem?_eq_none (by simpa using hi), List.getElem?_eq_none hi]

theorem exec_encCount_of_holdsInput {s : State} {d : List Byte} (h : s.HoldsInput d) :
    exec .encCount s = .next { s with freq := countBytes d }.drawn := by
  have ⟨hilen, hcap, _⟩ := h
  have hfits : ¬ s.inputTooLong := Nat.not_lt.mpr (hilen ▸ hcap)
  simp only [exec, execEncCount, if_neg hfits, h.input_eq]

theorem exec_encTree_of_counts {s : State} (h : distinctBytes s.freq ≠ []) : exec .encTree s = .next { s with
    nodes := buildTree s.freq
    root := BitVec.ofNat 9 ((buildTree s.freq).length - 1) } :=
  if_neg h

theorem exec_encPack_of_holdsInput {s : State} {d : List Byte} (h : s.HoldsInput d) (hcovers : s.cw.covers d)
    (hroom : (packed s.cw d).length ≤ s.cfg.payCap) :
    exec .encPack s = .next { s with pay := packed s.cw d }.drawn := by
  have ⟨hilen, hcap, _⟩ := h
  have hrun := exec_encPack_of_covers (s := s) (hilen ▸ hcap)
  rw [h.input_eq] at hrun
  exact hrun hcovers hroom

/-- R128: none of the five parts takes a fault. -/
theorem exec_encAll_of_holdsInput {s : State} {d : List Byte} {T : Table} (herr : s.err = .none)
    (hinput : s.HoldsInput d) (hne : d ≠ [])
    (hT : deriveTable (buildTree (countBytes d)) (BitVec.ofNat 9 ((buildTree (countBytes d)).length - 1)) = some T)
    (hroom : (packed T d).length ≤ s.cfg.payCap) : exec .encAll s = .next (s.encoded d T) := by
  have hlen := hinput.length_lt
  have htree := buildTree_countBytes_tree hlen hne
  have hcounted := distinctBytes_countBytes_ne_nil hlen hne
  have hfits := deriveTable_fits _ _ T htree hT
  have hcovers := deriveTable_covers hlen hne hT
  refine (exec_encAll_eq s).trans ?_
  refine Eq.trans (execInOrder_cons_of_next (exec_encCount_of_holdsInput hinput) herr) ?_
  refine Eq.trans (execInOrder_cons_of_next (exec_encTree_of_counts hcounted) herr) ?_
  refine Eq.trans (execInOrder_cons_of_next (exec_encTable_of_deriveTable htree.root_ne_nil hT) herr) ?_
  refine Eq.trans (execInOrder_cons_of_next (exec_encHdr_of_fits hfits) herr) ?_
  exact execInOrder_cons_of_next (exec_encPack_of_holdsInput hinput hcovers hroom) herr

/-- Settles O31, with the state that `ENC.ALL` leaves. -/
theorem encodeAllEncodesTheInput : Obligations.EncodeAllEncodesTheInput := by
  unfold Obligations.EncodeAllEncodesTheInput
  intro s d T _ herr hinput hne hT hroom
  have hlen := hinput.length_lt
  have htree := buildTree_countBytes_tree hlen hne
  have holen := toNat_headerBytes_length (deriveTable_fits _ _ T htree hT)
  refine ⟨s.encoded d T, exec_encAll_of_holdsInput herr hinput hne hT hroom, herr,
    fun x => count_countBytes d x hlen, rfl, htree, rfl, deriveTable_covers hlen hne hT, htree.prefixFree hT, rfl,
    ⟨holen, fun i hi => Memory.read?_writeBytes_front _ _ hi⟩, rfl, fun a ha => ?_, rfl⟩
  exact Memory.read?_writeBytes_beyond _ _ (holen ▸ ha)

end Sys2Proof.Machine

/-!
PROOFS. `DEC.HDR` (R140 to R144): how its entry loop ends, what it leaves on a list of framed entries, and that it reads
back what `ENC.HDR` wrote.
-/

namespace Sys2Proof.Machine

/-! ### The end of the entry loop (R140, R142) -/

/-- R140: the loop stops at the end of the declared extent, however many rounds are left. -/
theorem parseEntries_end (rd : Nat → Byte) {fin pos : Nat} (h : fin ≤ pos) (fuel : Nat) (T : Table) :
    parseEntries rd fin fuel pos T = .table T := by
  cases fuel with
  | zero => rfl
  | succ fuel => exact if_pos h

/-- R142: an entry that starts inside the extent and reaches beyond it is broken. -/
theorem parseEntries_broken (rd : Nat → Byte) {fin pos : Nat} (hin : pos < fin)
    (hout : fin < pos + 2 ∨ fin < pos + 2 + nbytes (rd (pos + 1)).toNat) (fuel : Nat) (T : Table) :
    parseEntries rd fin (fuel + 1) pos T = .broken pos := by
  rw [parseEntries, if_neg (by omega)]
  by_cases hframe : fin < pos + 2
  · exact if_pos hframe
  · rw [if_neg hframe]
    exact if_pos (hout.resolve_left hframe)

/-- R122: every entry takes at least two bytes. -/
theorem two_mul_length_le_flatMap_bytes (es : List RawEntry) : 2 * es.length ≤ (es.flatMap RawEntry.bytes).length := by
  induction es with
  | nil => rfl
  | cons e es ih =>
    rw [List.flatMap_cons, List.length_append, RawEntry.bytes_length, List.length_cons]
    omega

/-! ### What DEC.HDR answers (R140, R142) -/

section
variable {s : State} (hcap : s.ilen.toNat ≤ s.cfg.ibufCap)

include hcap

/-- R142: the length field, or the extent that it declares, is beyond the input. -/
theorem exec_decHdr_of_short (h : s.ilen.toNat < 4 ∨ s.ilen.toNat < s.headerExtent) :
    exec .decHdr s = raiseFault .malformedHeader 0 s := by
  simp only [exec, execDecHdr, if_neg (Nat.not_lt.mpr hcap)]
  by_cases h4 : s.ilen.toNat < 4
  · exact if_pos h4
  · rw [if_neg h4]
    exact if_pos (h.resolve_left h4)

variable (hextent : s.headerExtent ≤ s.ilen.toNat)

include hextent

theorem exec_decHdr_of_broken {pos : Nat}
    (h : parseEntries s.ibufByte s.headerExtent s.headerExtent 4 Table.empty = .broken pos) :
    exec .decHdr s = raiseFault .malformedHeader pos s := by
  have h4 : 4 ≤ s.headerExtent := Nat.le_add_right _ _
  simp only [exec, execDecHdr, if_neg (Nat.not_lt.mpr hcap), if_neg (Nat.not_lt.mpr (h4.trans hextent)),
    if_neg (Nat.not_lt.mpr hextent), h]

theorem exec_decHdr_of_table {T : Table}
    (h : parseEntries s.ibufByte s.headerExtent s.headerExtent 4 Table.empty = .table T) :
    exec .decHdr s = .next { s with cw := T, hlen := BitVec.ofNat 32 s.headerExtent }.drawn := by
  have h4 : 4 ≤ s.headerExtent := Nat.le_add_right _ _
  simp only [exec, execDecHdr, if_neg (Nat.not_lt.mpr hcap), if_neg (Nat.not_lt.mpr (h4.trans hextent)),
    if_neg (Nat.not_lt.mpr hextent), h]

end

/-! ### Framed entries (R140, R143) -/

section
variable {s : State} {es : List RawEntry} (hsized : ∀ e ∈ es, e.sized)
  (hbytes : s.ibufBytes 4 (es.flatMap RawEntry.bytes).length = es.flatMap RawEntry.bytes)

include hsized hbytes

/-- R140: with framed entries at the front of the extent, the loop goes on behind them, and one round at least is left
for what follows. -/
theorem parseEntries_header {extent : Nat} (h : 4 + (es.flatMap RawEntry.bytes).length ≤ extent) :
    ∃ fuel, parseEntries s.ibufByte extent extent 4 Table.empty =
      parseEntries s.ibufByte extent (fuel + 1) (4 + (es.flatMap RawEntry.bytes).length)
        (putEntries es Table.empty) := by
  have hcount := two_mul_length_le_flatMap_bytes es
  refine ⟨extent - es.length - 1, ?_⟩
  rw [← parseEntries_framed s.ibufByte extent es hsized _ 4 Table.empty hbytes h]
  congr 1
  omega

/-- R140, R143: an extent that is exactly a list of framed entries is stored. -/
theorem exec_decHdr_of_entries (hcap : s.ilen.toNat ≤ s.cfg.ibufCap)
    (hextent : s.headerExtent = 4 + (es.flatMap RawEntry.bytes).length) (hle : s.headerExtent ≤ s.ilen.toNat) :
    exec .decHdr s = .next { s with
      cw := putEntries es Table.empty
      hlen := BitVec.ofNat 32 s.headerExtent }.drawn := by
  obtain ⟨fuel, hparse⟩ := parseEntries_header hsized hbytes hextent.ge
  exact exec_decHdr_of_table hcap hle (hparse.trans (parseEntries_end _ hextent.le _ _))

end

/-- Settles O32: the table is the one that the entries leave on the empty table. -/
theorem headerOfFramedEntriesIsParsed : Obligations.HeaderOfFramedEntriesIsParsed := by
  unfold Obligations.HeaderOfFramedEntriesIsParsed
  intro s es hsized hcap hle hlength hbytes
  have hextent : s.headerExtent = 4 + (es.flatMap RawEntry.bytes).length := congrArg (4 + ·) hlength
  refine ⟨_, exec_decHdr_of_entries hsized hbytes hcap hextent (hextent ▸ hle), fun x => ?_, ?_, rfl⟩
  · exact (slot_putEntries es Table.empty x).trans (by simp)
  · have := s.ilen.isLt
    rw [← hextent] at hle ⊢
    exact Nat.mod_eq_of_lt (by omega)

/-- Settles O33: the loop stands behind the framed entries, and the next entry is broken. -/
theorem brokenHeadersAreRejected : Obligations.BrokenHeadersAreRejected := by
  unfold Obligations.BrokenHeadersAreRejected
  intro s
  refine ⟨fun hlong => ?_, fun hcap => ⟨fun hshort => ?_, fun es hsized => ?_⟩⟩
  · rw [show exec .decHdr s = raiseCapacity .ibuf s from if_pos hlong]
    exact faultsWith_raiseCapacity .ibuf s
  · rw [exec_decHdr_of_short hcap hshort]
    exact faultsWith_raiseFault (by decide) 0 s
  · intro n N _ hle hbytes hin hout
    have hextent : s.headerExtent = 4 + N := rfl
    obtain ⟨fuel, hparse⟩ := parseEntries_header hsized hbytes (extent := s.headerExtent) (by omega)
    have hbroken := parseEntries_broken s.ibufByte (fin := s.headerExtent) (pos := 4 + n) (by omega)
      (by unfold nbytes; omega) fuel (putEntries es Table.empty)
    rw [exec_decHdr_of_broken hcap hle (hparse.trans hbroken)]
    exact faultsWith_raiseFault (by decide) _ s

/-! ### The entries that ENC.HDR writes (R122, R124) -/

/-- R122: the entry that `ENC.HDR` writes for a symbol and its codeword. -/
def RawEntry.ofSlot (x : Byte) (c : BitSeq) : RawEntry := ⟨x, BitVec.ofNat 8 c.length, backingBytes c⟩

/-- R124: the entries that `ENC.HDR` writes for a table, in ascending order of symbol. -/
def headerEntries (T : Table) : List RawEntry := symbols.flatMap fun x => ((T.slot x).map (RawEntry.ofSlot x)).toList

theorem headerBody_eq_flatMap_bytes (T : Table) : headerBody T = (headerEntries T).flatMap RawEntry.bytes := by
  rw [headerBody_eq, headerEntries, List.flatMap_assoc]
  refine congrArg (List.flatMap · symbols) (funext fun x => ?_)
  cases T.slot x with
  | none => rfl
  | some c => exact (List.append_nil _).symm

theorem mem_headerEntries (T : Table) (e : RawEntry) :
    e ∈ headerEntries T ↔ ∃ x c, T.slot x = some c ∧ e = RawEntry.ofSlot x c := by
  simp [headerEntries, mem_symbols, eq_comm]

/-- R23: the length byte of an entry holds the length of a codeword that fits it. -/
theorem RawEntry.ofSlot_len (x : Byte) {c : BitSeq} (h : c.length ≤ 255) :
    (RawEntry.ofSlot x c).len.toNat = c.length :=
  Nat.mod_eq_of_lt (by omega)

section
variable {T : Table} (hfits : T.Fits)

include hfits

theorem headerEntries_sized : ∀ e ∈ headerEntries T, e.sized := by
  intro e he
  obtain ⟨x, c, hslot, rfl⟩ := (mem_headerEntries T e).mp he
  rw [RawEntry.sized, RawEntry.ofSlot_len x (hfits x c hslot)]
  exact backingBytes_length c

/-- R144: each entry of a table gives back the slot it was written for. -/
theorem slotAfter_headerEntries (x : Byte) : slotAfter (headerEntries T) x = T.slot x := by
  cases hfind : (headerEntries T).reverse.find? fun e => e.sym == x with
  | none =>
    have hslot : T.slot x = none := by
      refine Option.eq_none_iff_forall_ne_some.mpr fun c hc => ?_
      have hmem := (mem_headerEntries T _).mpr ⟨x, c, hc, rfl⟩
      exact List.find?_eq_none.mp hfind _ (List.mem_reverse.mpr hmem) (beq_self_eq_true x)
    rw [slotAfter, hfind, hslot]
    rfl
  | some e =>
    obtain ⟨y, c, hslot, rfl⟩ := (mem_headerEntries T e).mp (List.mem_reverse.mp (List.mem_of_find?_eq_some hfind))
    obtain rfl : y = x := by simpa [RawEntry.ofSlot] using List.find?_some hfind
    rw [slotAfter, hfind, hslot, Option.map_some, RawEntry.ofSlot_len y (hfits y c hslot)]
    exact congrArg some (mkbits_backingBytes c)

theorem putEntries_headerEntries : putEntries (headerEntries T) Table.empty = T :=
  Table.ext_slot _ _ fun x => by rw [slot_putEntries, slotAfter_headerEntries hfits, Table.slot_empty, Option.or_none]

end

/-! ### The header read back (R144) -/

/-- R25: a command reads written bytes as they were written. -/
theorem ibufBytes_of_read {s : State} {i : Nat} {bytes : List Byte}
    (h : ∀ j < bytes.length, s.ibuf.read? (i + j) = bytes[j]?) : s.ibufBytes i bytes.length = bytes := by
  refine List.ext_getElem (ibufBytes_length s i _) fun j hj hj' => ?_
  simpa [State.ibufBytes] using ibufByte_written s (i + j) _ ((h j hj').trans (List.getElem?_eq_getElem hj'))

/-- R144: the state that `DEC.HDR` leaves when it has read the header of the table `T`. -/
def State.tableRead (s : State) (T : Table) : State :=
  { s with cw := T, hlen := BitVec.ofNat 32 (headerBytes T).length }.drawn

/-- R144: with the header of a table at the front of the input, `DEC.HDR` leaves the table. -/
theorem exec_decHdr_of_headerBytes {s : State} {T : Table} (hfits : T.Fits) (hcap : s.ilen.toNat ≤ s.cfg.ibufCap)
    (hle : (headerBytes T).length ≤ s.ilen.toNat)
    (hread : ∀ j < (headerBytes T).length, s.ibuf.read? j = (headerBytes T)[j]?) :
    exec .decHdr s = .next (s.tableRead T) := by
  have hlen := headerBytes_length T
  have hsmall := headerBytes_length_le T (T.fits_iff.mp hfits)
  have hfield : s.ibufBytes 0 4 = beBytes (headerBody T).length := by
    refine ibufBytes_of_read (bytes := beBytes (headerBody T).length) fun j hj => ?_
    rw [Nat.zero_add, hread j (by rw [beBytes_length] at hj; omega), headerBytes, List.getElem?_append_left hj]
  have hbody : s.ibufBytes 4 (headerBody T).length = headerBody T := by
    refine ibufBytes_of_read fun j hj => ?_
    rw [hread (4 + j) (by omega), headerBytes, List.getElem?_append_right (by simp)]
    simp
  have hextent : s.headerExtent = (headerBytes T).length := by
    rw [State.headerExtent, hfield, beValue_beBytes _ (by omega), hlen]
  rw [headerBody_eq_flatMap_bytes] at hbody hlen
  have hrun := exec_decHdr_of_entries (headerEntries_sized hfits) hbody hcap (hextent.trans hlen) (hextent ▸ hle)
  rwa [putEntries_headerEntries hfits, hextent] at hrun

/-- Settles O28: `ENC.HDR` wrote the header of the table, and `DEC.HDR` reads it back. -/
theorem headerRoundTrips : Obligations.HeaderRoundTrips := by
  unfold Obligations.HeaderRoundTrips
  intro s t u hfits hwrite hle hcap hread
  obtain rfl := Host.Outcome.next.inj ((exec_encHdr_of_fits hfits).symm.trans hwrite)
  have hlen := toNat_headerBytes_length hfits
  rw [hlen] at hle hread
  have hheader (j : Nat) (hj : j < (headerBytes s.cw).length) : u.ibuf.read? j = (headerBytes s.cw)[j]? :=
    (hread j hj).trans (Memory.read?_writeBytes_front _ _ hj)
  exact ⟨_, exec_decHdr_of_headerBytes hfits hcap hle hheader, rfl, rfl, rfl⟩

end Sys2Proof.Machine

/-!
PROOFS. `DEC.LOAD` (R145), the match (R147, R149) and `DEC.STEP` (R148): what each answers in each of its cases.
-/

namespace Sys2Proof.Machine

/-! ### The cursor load (R145) -/

/-- R145: the bits of all the payload bytes `IBUF[HLEN..ILEN)`. -/
def State.payloadBits (s : State) : BitSeq :=
  mkbits (s.ibufBytes s.hlen.toNat (s.ilen.toNat - s.hlen.toNat)) (8 * (s.ilen.toNat - s.hlen.toNat))

/-- R145: the state that `DEC.LOAD` leaves when it takes no fault. -/
def State.loaded (s : State) : State := { s with pay := s.payloadBits, olen := 0, dstate := .scanning }.drawn

theorem exec_decLoad (s : State) : exec .decLoad s =
    if s.cfg.ibufCap < s.ilen.toNat then raiseCapacity .ibuf s
    else if s.ilen.toNat < s.hlen.toNat then raiseFault .malformedHeader s.hlen.toNat s
    else if s.cfg.payCap < 8 * (s.ilen.toNat - s.hlen.toNat) then raiseCapacity .pay s
    else .next s.loaded := rfl

theorem exec_decLoad_of_fits {s : State} (hcap : s.ilen.toNat ≤ s.cfg.ibufCap) (hle : s.hlen.toNat ≤ s.ilen.toNat)
    (hroom : 8 * (s.ilen.toNat - s.hlen.toNat) ≤ s.cfg.payCap) : exec .decLoad s = .next s.loaded := by
  rw [exec_decLoad, if_neg (Nat.not_lt.mpr hcap), if_neg (Nat.not_lt.mpr hle), if_neg (Nat.not_lt.mpr hroom)]

theorem payloadBits_length (s : State) : s.payloadBits.length = 8 * (s.ilen.toNat - s.hlen.toNat) :=
  mkbits_length _ _ (by rw [ibufBytes_length])

/-- R6, R145: the bits are most significant first in each byte. -/
theorem payloadBits_getElem? (s : State) {i : Nat} (hi : i < s.payloadBits.length) :
    s.payloadBits[i]? = some ((s.ibufByte (s.hlen.toNat + i / 8)).getLsbD (7 - i % 8)) := by
  rw [payloadBits_length] at hi
  rw [State.payloadBits, mkbits_getElem? _ _ i (by rw [ibufBytes_length]) hi, List.getD_eq_getElem?_getD,
    ibufBytes_getElem? s _ _ (i / 8) (by omega), Option.getD_some]

/-- Settles O34: the tests in their order, then the cursor takes the bits of the bytes that were read. -/
theorem loadFillsTheCursor : Obligations.LoadFillsTheCursor := by
  unfold Obligations.LoadFillsTheCursor
  refine ⟨decodeOfEncodeGivesTheCommand .decLoad rfl, fun s => ⟨fun hlong => ?_, fun hcap => ⟨fun hshort => ?_,
    fun hle => ⟨fun hfull => ?_, fun hroom => ?_⟩⟩⟩⟩
  · rw [exec_decLoad, if_pos hlong]
    exact faultsWith_raiseCapacity .ibuf s
  · rw [exec_decLoad, if_neg (Nat.not_lt.mpr hcap), if_pos hshort]
    exact faultsWith_raiseFault (by decide) _ s
  · rw [exec_decLoad, if_neg (Nat.not_lt.mpr hcap), if_neg (Nat.not_lt.mpr hle), if_pos hfull]
    exact faultsWith_raiseCapacity .pay s
  · exact ⟨_, exec_decLoad_of_fits hcap hle hroom, payloadBits_length s, fun i hi => payloadBits_getElem? s hi, rfl,
      rfl, rfl⟩

/-! ### The match (R147, R149) -/

/-- R147: `best` is the longest codeword of the slots `l`, the smallest symbol among equally long ones, and nothing when
they hold no codeword. -/
def BestOf (l : List (Byte × Option BitSeq)) : Option (Byte × BitSeq) → Prop
  | none => ∀ y d, (y, some d) ∉ l
  | some (x, c) => (x, some c) ∈ l ∧
      ∀ y d, (y, some d) ∈ l → d.length < c.length ∨ (d.length = c.length ∧ x.toNat ≤ y.toNat)

/-- R147: one step of the scan, to a slot of a larger symbol. -/
theorem BestOf.concat {l : List (Byte × Option BitSeq)} {best : Option (Byte × BitSeq)} (h : BestOf l best)
    {q : Byte × Option BitSeq} (hq : ∀ p ∈ l, p.1.toNat < q.1.toNat) : BestOf (l ++ [q]) (betterMatch best q) := by
  obtain ⟨z, slot⟩ := q
  cases slot with
  | none =>
    have hmem (y : Byte) (d : BitSeq) : (y, some d) ∈ l ++ [(z, none)] ↔ (y, some d) ∈ l := by simp
    rw [show betterMatch best (z, none) = best from rfl]
    cases best <;> simpa only [BestOf, hmem] using h
  | some e =>
    have hmem (y : Byte) (d : BitSeq) : (y, some d) ∈ l ++ [(z, some e)] ↔ (y, some d) ∈ l ∨ (y = z ∧ d = e) := by
      simp
    rcases betterMatch_cases best z e with ⟨hkept, x, c, rfl, hle⟩ | ⟨htaken, hlt⟩
    · obtain ⟨hx, hbest⟩ := h
      rw [hkept]
      refine ⟨(hmem x c).mpr (.inl hx), fun y d hy => ?_⟩
      rcases (hmem y d).mp hy with hy | ⟨rfl, rfl⟩
      · exact hbest y d hy
      · have := hq _ hx
        dsimp only at this
        omega
    · rw [htaken]
      refine ⟨(hmem z e).mpr (.inr ⟨rfl, rfl⟩), fun y d hy => ?_⟩
      rcases (hmem y d).mp hy with hy | ⟨rfl, rfl⟩
      · cases best with
        | none => exact absurd hy (h y d)
        | some xc =>
          obtain ⟨-, hbest⟩ := h
          have := hlt _ _ rfl
          have := hbest y d hy
          omega
      · exact .inr ⟨rfl, Nat.le_refl _⟩

/-- R147: a scan in ascending order of symbol ends with the best. -/
theorem bestOf_foldl {l : List (Byte × Option BitSeq)} (h : l.Pairwise fun p q => p.1.toNat < q.1.toNat) :
    BestOf l (l.foldl betterMatch none) := by
  induction l using List.reverseRecOn with
  | nil => exact fun y d => List.not_mem_nil
  | append_singleton l q ih =>
    obtain ⟨hl, -, hlq⟩ := List.pairwise_append.mp h
    rw [List.foldl_append]
    exact (ih hl).concat fun p hp => hlq p hp q (List.mem_singleton.mpr rfl)

theorem pairs_ascending {α : Type} (m : SymFile α) : m.pairs.Pairwise fun p q => p.1.toNat < q.1.toNat := by
  rw [SymFile.pairs_eq]
  exact List.pairwise_map.mpr symbols_ascending

/-- R147, R149: the candidates are the non-empty codewords that the cursor starts with. -/
theorem mem_candidates (pay : BitSeq) (T : Table) (y : Byte) (d : BitSeq) :
    (y, some d) ∈ T.pairs.filter (fun p => candidate pay p.2) ↔ T.slot y = some d ∧ d ≠ [] ∧ d <+: pay := by
  rw [List.mem_filter, SymFile.mem_pairs, candidate_iff]
  rfl

theorem matchSymbol_bestOf (pay : BitSeq) (T : Table) :
    BestOf (T.pairs.filter fun p => candidate pay p.2) (matchSymbol pay T) :=
  bestOf_foldl ((pairs_ascending T).filter _)

/-- R147: the match is a candidate. -/
theorem matchSymbol_candidate {pay : BitSeq} {T : Table} {x : Byte} {c : BitSeq}
    (h : matchSymbol pay T = some (x, c)) : T.slot x = some c ∧ c ≠ [] ∧ c <+: pay := by
  have hbest := matchSymbol_bestOf pay T
  rw [h] at hbest
  exact (mem_candidates pay T x c).mp hbest.1

/-- R147: there is no match exactly when there is no candidate. -/
theorem matchSymbol_eq_none_iff (pay : BitSeq) (T : Table) :
    matchSymbol pay T = none ↔ ∀ y d, T.slot y = some d → d ≠ [] → ¬ d <+: pay := by
  constructor
  · intro h y d hslot hne hprefix
    have hbest := matchSymbol_bestOf pay T
    rw [h] at hbest
    exact hbest y d ((mem_candidates pay T y d).mpr ⟨hslot, hne, hprefix⟩)
  · intro h
    refine Option.eq_none_iff_forall_ne_some.mpr fun p hp => ?_
    obtain ⟨hslot, hne, hprefix⟩ := matchSymbol_candidate hp
    exact h p.1 p.2 hslot hne hprefix

/-- Settles O35: two candidates of one length are the same leading bits of the cursor. -/
theorem matchIsTheLongestThenTheLowest : Obligations.MatchIsTheLongestThenTheLowest := by
  unfold Obligations.MatchIsTheLongestThenTheLowest
  intro pay T
  refine ⟨matchSymbol_eq_none_iff pay T, fun x c h => ?_⟩
  obtain ⟨hslot, hne, hprefix⟩ := matchSymbol_candidate h
  refine ⟨hslot, hne, hprefix, fun y d hd hdne hdprefix => ?_⟩
  have hbest := matchSymbol_bestOf pay T
  rw [h] at hbest
  refine (hbest.2 y d ((mem_candidates pay T y d).mpr ⟨hd, hdne, hdprefix⟩)).imp_right fun ⟨hlen, hxy⟩ => ⟨?_, hxy⟩
  exact (List.prefix_of_prefix_length_le hdprefix hprefix hlen.le).eq_of_length hlen

/-! ### What DEC.STEP answers (R148) -/

theorem exec_decStep_of_idle {s : State} (h : s.dstate ≠ .scanning) : exec .decStep s = .next s := if_pos h

section
variable {s : State} (hscan : s.dstate = .scanning)

include hscan

theorem exec_decStep_of_limit (h : s.limitReached) : exec .decStep s = .next { s with dstate := .exhausted } := by
  simp only [exec, execDecStep, hscan, ne_eq, not_true, if_false]
  exact if_pos h

variable (hlimit : ¬ s.limitReached)

include hlimit

theorem exec_decStep_of_end (hnone : matchSymbol s.pay s.cw = none) (h : s.pay = []) :
    exec .decStep s = .next { s with dstate := .exhausted } := by
  have hempty : ¬ 0 < s.pay.length := by simp [h]
  simp only [exec, execDecStep, hscan, ne_eq, not_true, if_false, if_neg hlimit, hnone, if_neg hempty]

theorem exec_decStep_of_exhausted (hnone : matchSymbol s.pay s.cw = none) (h : s.pay ≠ []) :
    exec .decStep s = raiseFault .decodeExhausted s.pay.length s := by
  simp only [exec, execDecStep, hscan, ne_eq, not_true, if_false, if_neg hlimit, hnone,
    if_pos (List.length_pos_iff.mpr h)]

variable {x : Byte} {c : BitSeq} (hmatch : matchSymbol s.pay s.cw = some (x, c))

include hmatch

theorem exec_decStep_of_full (h : s.cfg.obufCap ≤ s.olen.toNat) : exec .decStep s = raiseCapacity .obuf s := by
  simp only [exec, execDecStep, hscan, ne_eq, not_true, if_false, if_neg hlimit, hmatch, if_pos h]

theorem exec_decStep_of_match (h : s.olen.toNat < s.cfg.obufCap) : exec .decStep s = .next (s.emit x c) := by
  simp only [exec, execDecStep, hscan, ne_eq, not_true, if_false, if_neg hlimit, hmatch, if_neg (Nat.not_le.mpr h)]
  rfl

end

/-- R5, R148: where `OBUF` has room, `OLEN` does not wrap. -/
theorem olen_add_one_toNat {s : State} (hcap : s.cfg.obufCap < 2 ^ 32) (h : s.olen.toNat < s.cfg.obufCap) :
    (s.olen + 1).toNat = s.olen.toNat + 1 :=
  BitVec.toNat_add_of_lt (by simp; omega)

theorem obufCap_lt_of_wellFormed {c : Config} (h : c.WellFormed) : c.obufCap < 2 ^ 32 := by
  obtain ⟨-, ⟨-, h⟩, -⟩ := h
  omega

/-- R148: the matched codeword and what an emission leaves of the cursor make up the cursor. -/
theorem append_emit_pay {s : State} {c : BitSeq} (h : c <+: s.pay) (x : Byte) : c ++ (s.emit x c).pay = s.pay := by
  obtain ⟨rest, hrest⟩ := h
  rw [State.emit_pay, shiftLeftTimes_eq_drop, ← hrest, List.drop_left]

/-- Settles O36: each case of the step, and what an emission leaves. -/
theorem decoderStepFollowsItsTransitions : Obligations.DecoderStepFollowsItsTransitions := by
  unfold Obligations.DecoderStepFollowsItsTransitions
  refine ⟨decodeOfEncodeGivesTheCommand .decStep rfl, fun s => ⟨exec_decStep_of_idle, fun hscan => ⟨fun hlimit => ?_,
    fun hlimit => ⟨fun hnone hend => ?_, fun hnone hleft => ?_, fun x c hmatch => ⟨fun hfull => ?_,
    fun hroom hcfg => ?_⟩⟩⟩⟩⟩
  · exact ⟨_, exec_decStep_of_limit hscan hlimit, rfl, rfl⟩
  · exact ⟨_, exec_decStep_of_end hscan hlimit hnone hend, rfl, rfl⟩
  · exact ⟨_, exec_decStep_of_exhausted hscan hlimit hnone hleft, rfl, rfl, rfl, rfl⟩
  · rw [exec_decStep_of_full hscan hlimit hmatch hfull]
    exact faultsWith_raiseCapacity .obuf s
  · obtain ⟨-, -, hprefix⟩ := matchSymbol_candidate hmatch
    refine ⟨_, exec_decStep_of_match hscan hlimit hmatch hroom, Memory.read?_write_same _ _ _,
      fun a ha => Memory.read?_write_other _ _ _ _ ha, olen_add_one_toNat (obufCap_lt_of_wellFormed hcfg) hroom,
      (append_emit_pay hprefix x).symm, rfl, ?_⟩
    rw [State.emit, hscan]

end Sys2Proof.Machine

/-!
PROOFS. `DEC.RUN` and `DEC.ALL` as their parts written one after another (R153, R155, R173), and that the decoder's loop
ends (R154).
-/

namespace Sys2Proof.Machine

/-! ### A composite command and the words of its parts (R173) -/

/-- R170, R173: the word of a composite command does what the words of its parts do, faults and held-off commands
included. -/
theorem step_eq_run_parts {i : Instr} {is : List Instr} (hi : i.wellFormed = true ∧ i ≠ .sysReset)
    (his : ∀ j ∈ is, j.wellFormed = true ∧ j ≠ .sysReset)
    (hcommutes : ∀ j ∈ is, ∀ script, Commutes (State.withScript script) (exec j)) (rest : List HostAction) (s : State)
    (hexec : exec i (s.withScript rest) = execInOrder is (s.withScript rest)) :
    step (s.withScript (commandWrites [i] ++ rest)) =
      core.run is.length (s.withScript (commandWrites is ++ rest)) := by
  rw [step_commandWrites]
  by_cases herr : s.err = .none
  · rw [run_commandWrites his hcommutes rest herr, ← hexec]
    exact takeCommand_of_decode (decodeOfEncodeGivesTheCommand i hi.1) (.inl herr)
  · rw [run_heldOff his rest herr]
    exact takeCommand_heldOff hi.1 hi.2 herr

section
variable (script : List HostAction)

theorem exec_decHdr_commutes_withScript : Commutes (State.withScript script) (exec .decHdr) := by
  intro s
  have hsame : parseEntries (s.withScript script).ibufByte (s.withScript script).headerExtent
      (s.withScript script).headerExtent 4 Table.empty =
    parseEntries s.ibufByte s.headerExtent s.headerExtent 4 Table.empty := rfl
  simp only [exec, execDecHdr, hsame, apply_ite (mapNext _)]
  cases parseEntries s.ibufByte s.headerExtent s.headerExtent 4 Table.empty <;> rfl

theorem exec_decLoad_commutes_withScript : Commutes (State.withScript script) (exec .decLoad) := by
  intro s
  simp only [exec_decLoad, apply_ite (mapNext _)]
  rfl

theorem exec_decStep_commutes_withScript : Commutes (State.withScript script) (exec .decStep) := by
  intro s
  have hsame : matchSymbol (s.withScript script).pay (s.withScript script).cw = matchSymbol s.pay s.cw := rfl
  simp only [exec, execDecStep, hsame, apply_ite (mapNext _)]
  cases matchSymbol s.pay s.cw <;> simp only [apply_ite (mapNext _)] <;> rfl

theorem exec_decRun_commutes_withScript : Commutes (State.withScript script) (exec .decRun) := by
  have hloop (fuel : Nat) : Commutes (State.withScript script) (stepLoop fuel) :=
    Commutes.stepLoop (g := State.withScript script) (fun _ => rfl) (fun _ => rfl)
      (exec_decStep_commutes_withScript script) fuel
  exact Commutes.andThen (fun _ => rfl) (exec_decLoad_commutes_withScript script) fun s => hloop (s.pay.length + 1) s

end

/-- Settles O38: `DEC.ALL` is its two parts in their order. -/
theorem decodeAllIsHeaderAndRun : Obligations.DecodeAllIsHeaderAndRun := by
  unfold Obligations.DecodeAllIsHeaderAndRun
  intro s rest
  have hcommutes : ∀ j ∈ [Instr.decHdr, .decRun], ∀ script, Commutes (State.withScript script) (exec j) := by
    simp only [List.mem_cons, List.not_mem_nil, or_false, forall_eq_or_imp, forall_eq]
    exact ⟨exec_decHdr_commutes_withScript, exec_decRun_commutes_withScript⟩
  refine step_eq_run_parts (i := .decAll) (is := [.decHdr, .decRun]) (by decide) (by decide) hcommutes rest s ?_
  exact congrArg (andThen _) (funext fun u => (andThen_next_self _).symm)

/-! ### The decoder's loop ends (R154) -/

/-- R153: the loop does nothing once the decoder is not Scanning. -/
theorem stepLoop_of_not_scanning {s : State} (h : s.dstate ≠ .scanning) (fuel : Nat) : stepLoop fuel s = .next s := by
  cases fuel with
  | zero => rfl
  | succ fuel => exact if_neg h

/-- R153: a round of the loop that takes no fault. -/
theorem stepLoop_succ_of_next {s u : State} (hscan : s.dstate = .scanning) (h : exec .decStep s = .next u)
    (herr : u.err = .none) (fuel : Nat) : stepLoop (fuel + 1) s = stepLoop fuel u := by
  have hstep : execDecStep s = .next u := h
  simp [stepLoop, hscan, hstep, andThen, herr]

/-- R153: the loop has come to its end: the decoder is not Scanning, or a fault is recorded. -/
def State.DecoderStopped (s : State) : Prop := s.dstate ≠ .scanning ∨ s.err ≠ .none

/-- R149, R154: a step of the scanning decoder stops it or consumes a bit, since no codeword that matches is empty. -/
theorem execDecStep_stops_or_consumes {s u : State} (h : execDecStep s = .next u) :
    u.DecoderStopped ∨ u.pay.length < s.pay.length := by
  rcases execDecStep_next s u h with ⟨hidle, rfl⟩ | ⟨-, ⟨-, rfl⟩ | ⟨-, -, ⟨-, rfl⟩ | ⟨-, rfl⟩⟩ |
    ⟨-, x, c, hmatch, ⟨-, rfl⟩ | ⟨-, rfl⟩⟩⟩
  · exact .inl (.inl hidle)
  · exact .inl (.inl (by simp))
  · exact .inl (.inl (by simp))
  · exact .inl (.inr (by simp))
  · exact .inl (.inr (by simp))
  · obtain ⟨-, hne, hprefix⟩ := matchSymbol_candidate hmatch
    have hlen := congrArg List.length (append_emit_pay hprefix x)
    rw [List.length_append] at hlen
    have := List.length_pos_iff.mpr hne
    exact .inr (by omega)

/-- R153, R154: with more rounds than the cursor has bits, the loop is some number of `DEC.STEP`s, no more than its
rounds, and ends. -/
theorem stepLoop_eq_steps (fuel : Nat) (s : State) (h : s.pay.length < fuel) :
    ∃ k ≤ fuel, ∃ t, stepLoop fuel s = .next t ∧ execInOrder (List.replicate k .decStep) s = .next t ∧
      t.DecoderStopped := by
  induction fuel generalizing s with
  | zero => omega
  | succ fuel ih =>
    by_cases hscan : s.dstate = .scanning
    · obtain ⟨u, hu⟩ := execDecStep_completes s
      have hsteps (k : Nat) : execInOrder (List.replicate (k + 1) .decStep) s =
        andThen (.next u) (execInOrder (List.replicate k .decStep)) := congrArg (andThen · _) hu
      have hloop : stepLoop (fuel + 1) s = andThen (.next u) (stepLoop fuel) :=
        (if_pos hscan).trans (congrArg (andThen · _) hu)
      by_cases hstop : u.DecoderStopped
      · have hrest : andThen (.next u) (stepLoop fuel) = .next u := by
          by_cases herr : u.err = .none
          · simp [andThen, herr, stepLoop_of_not_scanning (hstop.resolve_right (not_not.mpr herr))]
          · simp [andThen, herr]
        exact ⟨1, by omega, u, hloop.trans hrest, (hsteps 0).trans (andThen_next_self _), hstop⟩
      · have herr : u.err = .none := by
          by_contra hne
          exact hstop (.inr hne)
        have hless := (execDecStep_stops_or_consumes hu).resolve_left hstop
        obtain ⟨k, hk, t, hrun, hin, ht⟩ := ih u (by omega)
        refine ⟨k + 1, by omega, t, ?_, ?_, ht⟩
        · simpa [hloop, andThen, herr] using hrun
        · simpa [hsteps, andThen, herr] using hin
    · exact ⟨0, Nat.zero_le _, s, stepLoop_of_not_scanning hscan _, rfl, .inl hscan⟩

/-- R145: `DEC.LOAD` answers a next state, with the cursor loaded or with a fault recorded. -/
theorem exec_decLoad_completes (s : State) : ∃ u, exec .decLoad s = .next u ∧ (u = s.loaded ∨ u.err ≠ .none) := by
  have hfault (code : ErrCode) (info : Nat) (hcode : code ≠ .none) :
      ∃ u, raiseFault code info s = .next u ∧ (u = s.loaded ∨ u.err ≠ .none) := ⟨_, rfl, .inr hcode⟩
  rw [exec_decLoad]
  split
  · exact hfault _ _ (by decide)
  · split
    · exact hfault _ _ (by decide)
    · split
      · exact hfault _ _ (by decide)
      · exact ⟨_, rfl, .inl rfl⟩

/-- R153, R154: `DEC.RUN` is a `DEC.LOAD` and a bounded number of `DEC.STEP`s, and ends. -/
theorem exec_decRun_eq_steps (s : State) : ∃ k ≤ 8 * (s.ilen.toNat - s.hlen.toNat) + 1, ∃ t,
    exec .decRun s = .next t ∧ execInOrder (.decLoad :: List.replicate k .decStep) s = .next t ∧
      t.DecoderStopped := by
  obtain ⟨u, hu, hload⟩ := exec_decLoad_completes s
  have hrun : exec .decRun s = andThen (.next u) runSteps := congrArg (andThen · _) hu
  by_cases herr : u.err = .none
  · obtain rfl := hload.resolve_right (not_not.mpr herr)
    obtain ⟨k, hk, t, hloop, hsteps, ht⟩ := stepLoop_eq_steps _ s.loaded (Nat.lt_succ_self _)
    have hlen : s.loaded.pay.length = 8 * (s.ilen.toNat - s.hlen.toNat) := payloadBits_length s
    refine ⟨k, by omega, t, ?_, (execInOrder_cons_of_next hu herr).trans hsteps, ht⟩
    rw [hrun, andThen, if_pos herr]
    exact hloop
  · refine ⟨0, Nat.zero_le _, u, ?_, (congrArg (andThen · _) hu).trans (andThen_next_self _), .inr herr⟩
    rw [hrun, andThen, if_neg herr]

/-- Settles O37: the words of the parts do what the loop does. -/
theorem decodeRunIsLoadAndBoundedSteps : Obligations.DecodeRunIsLoadAndBoundedSteps := by
  unfold Obligations.DecodeRunIsLoadAndBoundedSteps
  intro s rest herr
  obtain ⟨k, hk, t, hrun, hsteps, ht⟩ := exec_decRun_eq_steps (s.withScript rest)
  refine ⟨k, hk, t, ?_, ?_, ht⟩
  · refine (step_commandWrites .decRun [] rest s).trans (Eq.trans ?_ hrun)
    exact takeCommand_of_decode (decodeOfEncodeGivesTheCommand .decRun rfl) (.inl herr)
  · have hmem {j : Instr} (hj : j ∈ Instr.decLoad :: List.replicate k .decStep) : j = .decLoad ∨ j = .decStep :=
      (List.mem_cons.mp hj).imp_right List.eq_of_mem_replicate
    have hwords := run_commandWrites (is := .decLoad :: List.replicate k .decStep)
      (fun j hj => by rcases hmem hj with rfl | rfl <;> decide)
      (fun j hj => by
        rcases hmem hj with rfl | rfl
        · exact exec_decLoad_commutes_withScript
        · exact exec_decStep_commutes_withScript) rest herr
    rw [hsteps, List.length_cons, List.length_replicate, commandWrites, List.map_cons, List.map_replicate] at hwords
    exact hwords

end Sys2Proof.Machine

/-!
PROOFS. What `DEC.RUN` gives back: the packed bytes (R153), and the padding behind them when there is no limit (R157).
-/

namespace Sys2Proof.Machine

/-! ### The match in a packed cursor (R119, R147) -/

section
variable {T : Table} (hfree : T.PrefixFree)

include hfree

/-- R119, R147: where no codeword starts another one, a cursor that starts with a codeword matches its symbol. -/
theorem matchSymbol_of_slot {x : Byte} {c : BitSeq} (hslot : T.slot x = some c) (rest : BitSeq) :
    matchSymbol (c ++ rest) T = some (x, c) := by
  obtain ⟨hne, hapart⟩ := hfree
  have hprefix : c <+: c ++ rest := List.prefix_append c rest
  cases hmatch : matchSymbol (c ++ rest) T with
  | none => exact absurd hprefix ((matchSymbol_eq_none_iff _ T).mp hmatch x c hslot (hne x c hslot))
  | some yd =>
    obtain ⟨y, d⟩ := yd
    obtain ⟨hd, -, hdprefix⟩ := matchSymbol_candidate hmatch
    obtain rfl : y = x := by
      by_contra hyx
      rcases List.prefix_or_prefix_of_prefix hprefix hdprefix with hcd | hdc
      · exact hapart x y c d (Ne.symm hyx) hslot hd hcd
      · exact hapart y x d c hyx hd hslot hdc
    rw [hslot] at hd
    rw [Option.some.inj hd]

/-- R119: every codeword has a bit, so the packed bytes are at most as many as their bits. -/
theorem length_le_packed {d : List Byte} (hcovers : T.covers d) : d.length ≤ (packed T d).length := by
  induction d with
  | nil => exact Nat.zero_le _
  | cons x d ih =>
    obtain ⟨hx, hd⟩ := List.forall_mem_cons.mp hcovers
    obtain ⟨c, hslot⟩ := Option.isSome_iff_exists.mp hx
    have hpos := List.length_pos_iff.mpr (hfree.1 x c hslot)
    have hcode : codeOf T x = c := by rw [codeOf, hslot, Option.getD_some]
    have := ih hd
    rw [packed, List.flatMap_cons, List.length_append, hcode, List.length_cons]
    rw [packed] at this
    omega

end

theorem packed_cons_of_slot {T : Table} {x : Byte} {c : BitSeq} (hslot : T.slot x = some c) (d : List Byte) :
    packed T (x :: d) = c ++ packed T d := by
  rw [packed, List.flatMap_cons, codeOf, hslot, Option.getD_some]
  rfl

/-! ### The loop over packed bytes (R148, R153) -/

/-- R148: the state once the bytes `d` have been emitted, with `rest` left in the cursor. -/
def State.decoded (s : State) (d : List Byte) (rest : BitSeq) : State :=
  { s with
    obuf := s.obuf.writeBytes s.olen.toNat d
    olen := s.olen + BitVec.ofNat 32 d.length
    pay := rest }

/-- R151: no limit, or one that leaves `n` more symbols. -/
def State.LimitLeaves (s : State) (n : Nat) : Prop := s.limitEn = true → s.olen.toNat + n ≤ s.symlimit.toNat

/-- R153: the loop gives back the packed bytes, one in each round. -/
theorem stepLoop_packed (d : List Byte) (rest : BitSeq) (fuel : Nat) {s : State} (hcap : s.cfg.obufCap < 2 ^ 32)
    (herr : s.err = .none) (hscan : s.dstate = .scanning) (hfree : s.cw.PrefixFree) (hcovers : s.cw.covers d)
    (hlimit : s.LimitLeaves d.length) (hroom : s.olen.toNat + d.length ≤ s.cfg.obufCap)
    (hpay : s.pay = packed s.cw d ++ rest) :
    stepLoop (d.length + fuel) s = stepLoop fuel (s.decoded d rest) := by
  induction d generalizing s with
  | nil =>
    have hsame : s.decoded [] rest = s := by
      rw [State.decoded, show rest = s.pay from hpay.symm]
      simp [Memory.writeBytes]
    rw [hsame, List.length_nil, Nat.zero_add]
  | cons x d ih =>
    obtain ⟨hx, hd⟩ := List.forall_mem_cons.mp hcovers
    obtain ⟨c, hslot⟩ := Option.isSome_iff_exists.mp hx
    rw [packed_cons_of_slot hslot, List.append_assoc] at hpay
    rw [List.length_cons] at hlimit hroom
    have hmatch : matchSymbol s.pay s.cw = some (x, c) := by rw [hpay]; exact matchSymbol_of_slot hfree hslot _
    have hbelow : ¬ s.limitReached := fun ⟨hen, hle⟩ => by have := hlimit hen; omega
    have hstep : exec .decStep s = .next (s.emit x c) := exec_decStep_of_match hscan hbelow hmatch (by omega)
    have holen := olen_add_one_toNat hcap (by omega)
    have hleft : (s.emit x c).pay = packed s.cw d ++ rest := by
      rw [State.emit_pay, shiftLeftTimes_eq_drop, hpay, List.drop_left]
    have hdone : (s.emit x c).decoded d rest = s.decoded (x :: d) rest := by
      simp only [State.decoded, State.emit, holen, Memory.writeBytes, List.length_cons, hscan, BitVec.add_assoc]
      congr 2
      rw [Nat.add_comm, BitVec.ofNat_add]
      rfl
    have hlimit' : (s.emit x c).LimitLeaves d.length := fun hen => by
      have := hlimit hen
      rw [State.emit_olen, holen, State.emit_symlimit]
      omega
    have hroom' : (s.emit x c).olen.toNat + d.length ≤ s.cfg.obufCap := by
      rw [State.emit_olen, holen]
      omega
    calc stepLoop ((x :: d).length + fuel) s
        = stepLoop (d.length + fuel + 1) s := by rw [List.length_cons, Nat.add_right_comm]
      _ = stepLoop (d.length + fuel) (s.emit x c) := stepLoop_succ_of_next hscan hstep herr _
      _ = stepLoop fuel ((s.emit x c).decoded d rest) :=
        ih (s := s.emit x c) hcap herr rfl hfree hd hlimit' hroom' hleft
      _ = _ := by rw [hdone]

/-! ### DEC.RUN on a packed payload (R153) -/

/-- R145, R153: the payload of `s` fits and packs `d`, followed by `pad`. -/
structure State.HoldsPacked (s : State) (d : List Byte) (pad : BitSeq) : Prop where
  cfg : s.cfg.WellFormed
  err : s.err = .none
  prefixFree : s.cw.PrefixFree
  covers : s.cw.covers d
  input : s.ilen.toNat ≤ s.cfg.ibufCap
  header : s.hlen.toNat ≤ s.ilen.toNat
  room : 8 * (s.ilen.toNat - s.hlen.toNat) ≤ s.cfg.payCap
  packs : s.payloadBits = packed s.cw d ++ pad

section
variable {s : State} {d : List Byte} {pad : BitSeq} (h : s.HoldsPacked d pad) (hroom : d.length ≤ s.cfg.obufCap)

include h hroom

/-- R153: `DEC.RUN` gives back the packed bytes and goes on with the padding; a round at least is left for each bit of
it, and one more. -/
theorem exec_decRun_of_packed (hlimit : s.loaded.LimitLeaves d.length) :
    ∃ fuel, pad.length ≤ fuel ∧ exec .decRun s = stepLoop (fuel + 1) (s.loaded.decoded d pad) := by
  have hlen := congrArg List.length h.packs
  rw [List.length_append] at hlen
  have hle := length_le_packed h.prefixFree h.covers
  have hsplit : s.payloadBits.length + 1 = d.length + (s.payloadBits.length - d.length + 1) := by omega
  refine ⟨s.payloadBits.length - d.length, by omega, ?_⟩
  calc exec .decRun s
      = andThen (.next s.loaded) runSteps :=
        congrArg (andThen · _) (exec_decLoad_of_fits h.input h.header h.room)
    _ = stepLoop (s.payloadBits.length + 1) s.loaded := if_pos h.err
    _ = stepLoop (s.payloadBits.length - d.length + 1) (s.loaded.decoded d pad) := by
      rw [hsplit]
      refine stepLoop_packed d pad _ (obufCap_lt_of_wellFormed h.cfg) h.err rfl h.prefixFree h.covers hlimit ?_ h.packs
      exact (Nat.zero_add d.length).le.trans hroom

/-- R5, R153: the output length after the packed bytes. -/
theorem decoded_olen : (s.loaded.decoded d pad).olen.toNat = d.length := by
  have := obufCap_lt_of_wellFormed h.cfg
  have hzero : (s.loaded.decoded d pad).olen = BitVec.ofNat 32 d.length := BitVec.zero_add _
  rw [hzero, BitVec.toNat_ofNat]
  omega

/-- R151, R153: with the limit at the number of packed bytes, `DEC.RUN` stops behind them. -/
theorem exec_decRun_of_limit (hen : s.limitEn = true) (hlimit : s.symlimit.toNat = d.length) :
    exec .decRun s = .next { s.loaded.decoded d pad with dstate := .exhausted } := by
  obtain ⟨fuel, -, hrun⟩ := exec_decRun_of_packed h hroom fun _ => (Nat.zero_add d.length).le.trans hlimit.ge
  have hreached : (s.loaded.decoded d pad).limitReached := ⟨hen, hlimit.le.trans (decoded_olen h hroom).ge⟩
  rw [hrun, stepLoop_succ_of_next rfl (exec_decStep_of_limit rfl hreached) h.err]
  exact stepLoop_of_not_scanning (by simp) fuel

end

/-- Settles O39, with the state that `DEC.RUN` leaves. -/
theorem decodeRunRestoresThePackedBytes : Obligations.DecodeRunRestoresThePackedBytes := by
  unfold Obligations.DecodeRunRestoresThePackedBytes
  intro s d pad hcfg herr hfree hcovers hen hlimit hroom hinput hheader hpay hpacks
  have h : s.HoldsPacked d pad := ⟨hcfg, herr, hfree, hcovers, hinput, hheader, hpay, hpacks⟩
  exact ⟨_, exec_decRun_of_limit h hroom hen hlimit, herr, rfl,
    ⟨decoded_olen h hroom, fun i hi => Memory.read?_writeBytes_front _ _ hi⟩, rfl,
    fun a ha => Memory.read?_writeBytes_beyond _ _ ha, rfl⟩

/-! ### The padding without a limit (R157) -/

/-- R157: `u` comes from `s` by decoding padding: one symbol at most for each bit, behind what `s` has written, and no
fault but that of bits that match no codeword. -/
structure DecodesPadding (s u : State) : Prop where
  cfg : u.cfg = s.cfg
  limitEn : u.limitEn = false
  fault : u.err = .none ∨ (u.err = .decodeExhausted ∧ u.dstate = .exhausted)
  dstate : u.dstate ≠ .matched
  olen_le : s.olen.toNat ≤ u.olen.toNat
  bits : u.olen.toNat + u.pay.length ≤ s.olen.toNat + s.pay.length
  obuf : ∀ a < s.olen.toNat, u.obuf.read? a = s.obuf.read? a

/-- R148, R157: a step decodes padding further where `OBUF` has room for a symbol for each bit. -/
theorem DecodesPadding.step {s u v : State} (h : DecodesPadding s u) (hcap : s.cfg.obufCap < 2 ^ 32)
    (hroom : s.olen.toNat + s.pay.length ≤ s.cfg.obufCap) (hstep : execDecStep u = .next v) : DecodesPadding s v := by
  obtain ⟨hcfg, hlimit, hfault, hdstate, hle, hbits, hobuf⟩ := h
  rcases execDecStep_next u v hstep with ⟨-, rfl⟩ | ⟨hscan, ⟨-, rfl⟩ | ⟨-, -, ⟨-, rfl⟩ | ⟨-, rfl⟩⟩ |
    ⟨-, x, c, hmatch, hout⟩⟩
  · exact ⟨hcfg, hlimit, hfault, hdstate, hle, hbits, hobuf⟩
  · exact ⟨hcfg, hlimit, hfault.imp_right fun hf => ⟨hf.1, rfl⟩, by simp, hle, hbits, hobuf⟩
  · exact ⟨hcfg, hlimit, hfault.imp_right fun hf => ⟨hf.1, rfl⟩, by simp, hle, hbits, hobuf⟩
  · exact ⟨hcfg, hlimit, .inr ⟨rfl, rfl⟩, by simp [dstateAfterFault], hle, hbits, hobuf⟩
  · obtain ⟨-, hne, hprefix⟩ := matchSymbol_candidate hmatch
    have hpos := List.length_pos_iff.mpr hne
    have hlen := congrArg List.length (append_emit_pay hprefix x)
    rw [List.length_append] at hlen
    have hfits : u.olen.toNat < u.cfg.obufCap := by rw [hcfg]; omega
    have holen := olen_add_one_toNat (hcfg ▸ hcap) hfits
    have herr : u.err = .none := hfault.resolve_right fun hf => by rw [hscan] at hf; cases hf.2
    obtain rfl : v = u.emit x c := by
      rcases hout with ⟨hfull, -⟩ | ⟨-, hv⟩
      · omega
      · exact hv
    refine ⟨hcfg, hlimit, .inl herr, by simp, ?_, ?_, fun a ha => ?_⟩
    · rw [State.emit_olen]; omega
    · rw [State.emit_olen]; omega
    · exact (Memory.read?_write_other _ _ _ _ (by omega)).trans (hobuf a ha)

/-- R154, R157: without a limit the loop over padding ends with the decoder Exhausted. -/
theorem stepLoop_padding {s : State} (hcap : s.cfg.obufCap < 2 ^ 32)
    (hroom : s.olen.toNat + s.pay.length ≤ s.cfg.obufCap) (hlimit : s.limitEn = false) (herr : s.err = .none)
    (hscan : s.dstate = .scanning) {fuel : Nat} (hfuel : s.pay.length < fuel) :
    ∃ t, stepLoop fuel s = .next t ∧ DecodesPadding s t ∧ t.dstate = .exhausted := by
  obtain ⟨_, -, t, hrun, -, hstop⟩ := stepLoop_eq_steps fuel s hfuel
  have hstart : DecodesPadding s s := ⟨rfl, hlimit, .inl herr, by simp [hscan], Nat.le_refl _, Nat.le_refl _,
    fun _ _ => rfl⟩
  have ht : DecodesPadding s t :=
    stepLoop_keeps (DecodesPadding s) (fun _ _ hu => hu.step hcap hroom) fuel s t hstart hrun
  refine ⟨t, hrun, ht, ?_⟩
  rcases ht.fault with hnone | ⟨-, hdone⟩
  · have hidle := hstop.resolve_right (not_not.mpr hnone)
    cases hd : t.dstate with
    | exhausted => rfl
    | scanning => exact absurd hd hidle
    | matched => exact absurd hd ht.dstate
  · exact hdone

/-- Settles O40: the packed bytes come first, and then the padding is decoded. -/
theorem decodeRunWithoutLimitDecodesPadding : Obligations.DecodeRunWithoutLimitDecodesPadding := by
  unfold Obligations.DecodeRunWithoutLimitDecodesPadding
  intro s d pad hcfg herr hfree hcovers hen hroom hpad hinput hheader hpay hpacks
  have h : s.HoldsPacked d pad := ⟨hcfg, herr, hfree, hcovers, hinput, hheader, hpay, hpacks⟩
  have hd : d.length ≤ s.cfg.obufCap := (Nat.le_add_right _ _).trans hroom
  have holen := decoded_olen h hd
  obtain ⟨fuel, hfuel, hrun⟩ := exec_decRun_of_packed h hd fun hlimited =>
    absurd (hen.symm.trans hlimited) Bool.false_ne_true
  obtain ⟨t, hloop, ht, hdone⟩ := stepLoop_padding (s := s.loaded.decoded d pad) (obufCap_lt_of_wellFormed hcfg)
    (holen ▸ hroom) hen herr rfl (Nat.lt_succ_of_le hfuel)
  have hbits : t.olen.toNat + t.pay.length ≤ d.length + pad.length := holen ▸ ht.bits
  refine ⟨t, hrun.trans hloop, ht.fault.imp_right And.left, hdone, holen ▸ ht.olen_le, by omega, fun i hi => ?_⟩
  exact (ht.obuf i (holen ▸ hi)).trans (Memory.read?_writeBytes_front _ _ hi)

end Sys2Proof.Machine

/-!
PROOFS. The round trips: `DEC.ALL` on an artifact (R155), and on what `ENC.ALL` has written (R156).
-/

namespace Sys2Proof.Machine

/-! ### An artifact in the input (R155) -/

/-- R145, R155: behind the header, the payload bits are those of the payload bytes. -/
theorem payloadBits_of_artifact {s : State} {header payload : List Byte} (hinput : s.HoldsInput (header ++ payload))
    (hhlen : s.hlen.toNat = header.length) : s.payloadBits = mkbits payload (8 * payload.length) := by
  obtain ⟨hilen, -, hread⟩ := hinput
  rw [List.length_append] at hilen hread
  have hlen : s.ilen.toNat - s.hlen.toNat = payload.length := by omega
  have hbytes : s.ibufBytes header.length payload.length = payload := by
    refine ibufBytes_of_read fun j hj => ?_
    rw [hread _ (by omega), List.getElem?_append_right (Nat.le_add_right _ _), Nat.add_sub_cancel_left]
  rw [State.payloadBits, hlen, hhlen, hbytes]

/-- R144, R155: on an artifact, `DEC.ALL` reads the table and goes on as `DEC.RUN`. -/
theorem exec_decAll_of_artifact {s : State} {T : Table} {payload : List Byte} (hfits : T.Fits) (herr : s.err = .none)
    (hinput : s.HoldsInput (headerBytes T ++ payload)) : exec .decAll s = exec .decRun (s.tableRead T) := by
  obtain ⟨hilen, hcap, hread⟩ := hinput
  rw [List.length_append] at hilen hcap hread
  have hhdr : exec .decHdr s = .next (s.tableRead T) :=
    exec_decHdr_of_headerBytes hfits (by omega) (by omega) fun j hj => by
      rw [hread j (by omega), List.getElem?_append_left hj]
  exact (congrArg (andThen · _) hhdr).trans (if_pos herr)

/-- Settles O41: `DEC.HDR` reads the table back, and the payload behind the header is the packed one. -/
theorem decodeAllDecodesAnArtifact : Obligations.DecodeAllDecodesAnArtifact := by
  unfold Obligations.DecodeAllDecodesAnArtifact
  intro s d T payload pad hcfg herr hfree hfits hcovers hinput hpacks hpay hen hlimit hroom
  have ⟨hilen, hcap, _⟩ := hinput
  have hhlen : (s.tableRead T).hlen.toNat = (headerBytes T).length := toNat_headerBytes_length hfits
  have hsize : (s.tableRead T).ilen.toNat = (s.tableRead T).hlen.toNat + payload.length := by
    rw [hhlen, ← List.length_append]
    exact hilen
  obtain ⟨t, hrun, ht, hdone, hout, htpay, hobuf, hframe⟩ :=
    decodeRunRestoresThePackedBytes (s.tableRead T) d pad hcfg herr hfree hcovers hen hlimit hroom (hilen.trans_le hcap)
      (by omega) (by rw [hsize, Nat.add_sub_cancel_left]; exact hpay)
      ((payloadBits_of_artifact (s := s.tableRead T) hinput hhlen).trans hpacks)
  have hcw : t.cw = T := by rw [hframe]; rfl
  have hthlen : t.hlen = (s.tableRead T).hlen := by rw [hframe]
  refine ⟨t, (exec_decAll_of_artifact hfits herr hinput).trans hrun, ht, hdone, hout, hcw, hthlen ▸ hhlen, htpay, hobuf,
    ?_⟩
  rw [hcw, hthlen]
  exact hframe

/-! ### What a fault-free ENC.ALL has left (R126, R128) -/

/-- R126: the bits that the packer's loop ends with are the codewords of the bytes, within the capacity. -/
theorem packLoop_eq_bits {T : Table} {cap i : Nat} {acc : BitSeq} {bytes : List Byte} {q : BitSeq}
    (h : packLoop T cap i acc bytes = .bits q) : q = acc ++ packed T bytes := by
  induction bytes generalizing i acc with
  | nil => cases h; exact (List.append_nil _).symm
  | cons x bytes ih =>
    rw [packLoop] at h
    split at h
    · cases h
    · next c hslot =>
      split at h
      · cases h
      · exact (ih h).trans (by rw [packed_cons_of_slot hslot, concat, List.append_assoc])

/-- R126, R188: an `ENC.PACK` that leaves no fault had room for the packed input. -/
theorem packed_length_le_of_exec_encPack {s t : State} {d : List Byte} (hinput : s.HoldsInput d)
    (h : exec .encPack s = .next t) (ht : t.err = .none) : (packed s.cw d).length ≤ s.cfg.payCap := by
  rcases execEncPack_next s t h with ⟨-, rfl⟩ | ⟨-, ⟨i, -, rfl⟩ | ⟨-, rfl⟩ | ⟨q, hq, -⟩⟩
  · cases ht
  · cases ht
  · cases ht
  · rw [hinput.input_eq] at hq
    obtain rfl := packLoop_eq_bits hq
    exact packLoop_length_le _ _ _ _ _ _ (Nat.zero_le _) hq

/-- R128: the state in which `ENC.ALL` comes to `ENC.PACK` on the input `d`, whose table is `T`. -/
def State.unpacked (s : State) (d : List Byte) (T : Table) : State :=
  { s.encoded d T with pay := s.pay, draws := s.draws + 1 }

section
variable {s : State} {d : List Byte} (hinput : s.HoldsInput d) (hne : d ≠ []) (hs : s.err = .none)

include hinput hne hs

/-- R128: on written, non-empty input, `ENC.ALL` comes to `ENC.PACK` with the table of that input. -/
theorem exec_encAll_eq_encPack {T : Table}
    (hT : deriveTable (buildTree (countBytes d)) (BitVec.ofNat 9 ((buildTree (countBytes d)).length - 1)) = some T) :
    exec .encAll s = exec .encPack (s.unpacked d T) := by
  have hlen := hinput.length_lt
  have htree := buildTree_countBytes_tree hlen hne
  have hcounted := distinctBytes_countBytes_ne_nil hlen hne
  refine (exec_encAll_eq s).trans ?_
  refine Eq.trans (execInOrder_cons_of_next (exec_encCount_of_holdsInput hinput) hs) ?_
  refine Eq.trans (execInOrder_cons_of_next (exec_encTree_of_counts hcounted) hs) ?_
  refine Eq.trans (execInOrder_cons_of_next (exec_encTable_of_deriveTable htree.root_ne_nil hT) hs) ?_
  refine Eq.trans (execInOrder_cons_of_next (exec_encHdr_of_fits (deriveTable_fits _ _ T htree hT)) hs) ?_
  exact andThen_next_self _

/-- R128: a fault-free `ENC.ALL` had room for the payload, so it has left the table, the header and the payload of its
input. -/
theorem exec_encAll_eq_encoded {t : State} (h : exec .encAll s = .next t) (ht : t.err = .none) :
    ∃ T : Table, T.PrefixFree ∧ T.Fits ∧ T.covers d ∧ t = s.encoded d T := by
  have hlen := hinput.length_lt
  have htree := buildTree_countBytes_tree hlen hne
  obtain ⟨T, hT⟩ := Option.isSome_iff_exists.mp htree.deriveTable_isSome
  have hpack : exec .encPack (s.unpacked d T) = .next t := (exec_encAll_eq_encPack hinput hne hs hT).symm.trans h
  have hroom : (packed T d).length ≤ s.cfg.payCap :=
    packed_length_le_of_exec_encPack (s := s.unpacked d T) hinput hpack ht
  have hrun := exec_encAll_of_holdsInput hs hinput hne hT hroom
  exact ⟨T, htree.prefixFree hT, deriveTable_fits _ _ T htree hT, deriveTable_covers hlen hne hT,
    Host.Outcome.next.inj (h.symm.trans hrun)⟩

end

/-! ### The round trip (R156) -/

/-- R19: what the output buffer shows is determined. -/
theorem State.ShowsOutput.unique {s : State} {d e : List Byte} (hd : s.ShowsOutput d) (he : s.ShowsOutput e) :
    d = e := by
  obtain ⟨hdlen, hd⟩ := hd
  obtain ⟨helen, he⟩ := he
  refine List.ext_getElem? fun i => ?_
  rcases Nat.lt_or_ge i d.length with hi | hi
  · rw [← hd i hi, ← he i (by omega)]
  · rw [List.getElem?_eq_none hi, List.getElem?_eq_none (by omega)]

/-- R6, R81: all bits of the backing bytes are the sequence and its padding. -/
theorem mkbits_backingBytes_all (q : BitSeq) : mkbits (backingBytes q) (8 * (backingBytes q).length) =
    q ++ List.replicate (8 * nbytes q.length - q.length) false := by
  rw [← flatMap_byteBits_backingBytes, mkbits, ← flatMap_byteBits_length, List.take_length]

/-- Settles O42: `OBUF` and `PAYB` make up an artifact of the table that `ENC.ALL` derived. -/
theorem encodeThenDecodeRestoresTheInput : Obligations.EncodeThenDecodeRestoresTheInput := by
  unfold Obligations.EncodeThenDecodeRestoresTheInput
  intro s t u d header _ hs hinput hne hencode ht hheader hcfg hu hartifact hpay hroom hen hlimit
  obtain ⟨T, hfree, hfits, hcovers, rfl⟩ := exec_encAll_eq_encoded hinput hne hs hencode ht
  have hshows : (s.encoded d T).ShowsOutput (headerBytes T) :=
    ⟨toNat_headerBytes_length hfits, fun i hi => Memory.read?_writeBytes_front _ _ hi⟩
  obtain rfl := hheader.unique hshows
  rw [show (s.encoded d T).pay = packed T d from rfl] at hartifact hpay
  have hpayload : (List.range (((packed T d).length + 7) / 8)).map (byteAt (packed T d)) = backingBytes (packed T d) :=
    (backingBytes_eq_map_byteAt _).symm
  rw [hpayload] at hartifact
  have hsize : (backingBytes (packed T d)).length = ((packed T d).length + 7) / 8 := backingBytes_length _
  obtain ⟨v, hdecode, hv, -, hout, -⟩ := decodeAllDecodesAnArtifact u d T _ _ hcfg hu hfree hfits hcovers hartifact
    (mkbits_backingBytes_all _) (hsize ▸ hpay) hen hlimit hroom
  exact ⟨v, hdecode, hv, hout⟩

end Sys2Proof.Machine

/-!
PROOFS. The system rules (R170 to R174): the order in which the taking of a command word decides, `SYS.NOP`, and that
no command newly records `EncodingOverflow`.
-/

namespace Sys2Proof.Machine

/-! ### The taking of a command word (R170) -/

/-- R170 step 2: with a fault recorded, a word that is not that of `SYS.RESET` is held off, a command or not. -/
theorem takeCommand_of_faulted {w : Word} {s : State} (hw : decode w ≠ .ok .sysReset) (herr : s.err ≠ .none) :
    takeCommand w s = .next s := by
  have hfault : s.faulted = true := decide_eq_true herr
  unfold takeCommand
  split
  · next h => exact absurd h hw
  · exact if_pos hfault
  · exact if_pos hfault

/-- R170 step 3: with no fault recorded, a word that is no command raises `IllegalCommand`. -/
theorem takeCommand_of_illegal {w : Word} {e : Illegal} {s : State} (hw : decode w = .error e) (herr : s.err = .none) :
    takeCommand w s = raiseFault .illegalCommand w.toNat s := by
  simp [takeCommand, hw, State.faulted, herr]

/-- R40, R170: a step with neither a write of `CMD` nor a power-on reset changes what the host may write, what it has
read and the draw number, and nothing else. -/
theorem step_without_command {s t : State} (h : step s = .next t)
    (hcommand : ∀ w, s.script.head? ≠ some (commandWrite w)) (hreset : s.script.head? ≠ some .powerOnReset) :
    t = { s with script := t.script, replies := t.replies, draws := t.draws, limitEn := t.limitEn, ilen := t.ilen,
                 hlen := t.hlen, symlimit := t.symlimit, blen := t.blen, ibuf := t.ibuf } := by
  obtain ⟨-, rfl⟩ | ⟨a, rest, u, hscript, rfl, hdone⟩ := step_next s t h
  · rfl
  · have hhead : s.script.head? = some a := by rw [hscript, List.head?_cons]
    rcases hdone with ⟨r, d, rfl⟩ | ⟨l, i, j, k, m, rfl⟩ | ⟨idx, b, -, -, rfl⟩ | ⟨rfl, -⟩ | ⟨w, rfl, -⟩
    · rfl
    · rfl
    · rfl
    · exact absurd hhead hreset
    · exact absurd hhead (hcommand w)

/-- Settles O5: a write of `CMD` is the taking of its word, whose four branches are the four steps; the other accesses
are by the cases of `step_next`. -/
theorem commandWordsAreTakenInTheStatedOrder : Obligations.CommandWordsAreTakenInTheStatedOrder := by
  unfold Obligations.CommandWordsAreTakenInTheStatedOrder
  refine ⟨fun s w rest hscript => ?_, fun s t => step_without_command⟩
  have hstep : step s = takeCommand w { s with script := rest } := step_of_script hscript
  rw [hstep]
  refine ⟨fun hw => takeCommand_of_decode hw (.inr rfl), fun hw herr => takeCommand_of_faulted hw herr,
    fun e hw herr => ?_, fun i _ hw herr => takeCommand_of_decode hw (.inl herr)⟩
  exact ⟨_, takeCommand_of_illegal hw herr, rfl, by simp, rfl⟩

/-- Settles O7: `0` is the word of `SYS.NOP`, which encodes to no other, and taken or held off it changes nothing. -/
theorem nopChangesNothing : Obligations.NopChangesNothing := by
  unfold Obligations.NopChangesNothing
  have hzero : decode 0 = .ok .sysNop := by decide
  refine ⟨fun s => rfl, fun w => ⟨fun hw => ?_, fun hw => hw ▸ hzero⟩, fun s rest hscript => ?_⟩
  · obtain ⟨-, hword⟩ := encodeOfDecodeGivesTheWord w .sysNop hw
    exact hword.symm
  · have hstep : step s = takeCommand 0 { s with script := rest } := step_of_script hscript
    rw [hstep]
    by_cases herr : s.err = .none
    · exact takeCommand_of_decode hzero (.inl herr)
    · exact takeCommand_of_faulted (by decide) herr

/-! ### EncodingOverflow is dead (R120, R183) -/

/-- R123, R183: of the primitive commands only `ENC.HDR` could record `EncodingOverflow`, and under the invariant no
codeword is long enough for it. -/
theorem exec_err_ne_encodingOverflow {i : Instr} (hi : isComposite i = false) {s t : State} (hs : s.Inv)
    (herr : s.err ≠ .encodingOverflow) (h : exec i s = .next t) : t.err ≠ .encodingOverflow := by
  cases i with
  | encHdr =>
    rcases execEncHdr_next s t h with ⟨x, hlong, -⟩ | ⟨-, rfl⟩
    · have ⟨_, ⟨_, _, hcw⟩, _⟩ := hs
      have hshort := hcw (x, s.cw.slot x) ((SymFile.mem_pairs s.cw _).mpr rfl)
      exact absurd hlong (by simp [hshort])
    · exact herr
  | bsLd rd => rcases execBsLd_next rd s t h with rfl | rfl | ⟨-, -, -, rfl⟩ <;> simp [herr]
  | bsPushf rd imm8 =>
    rcases execBsPushf_next rd imm8 s t h with ⟨-, rfl⟩ | ⟨-, -, rfl⟩ | ⟨-, -, rfl⟩ <;> simp [herr]
  | bsShr rd => rcases execBsShr_next rd s t h with ⟨-, rfl⟩ | ⟨-, rfl⟩ <;> simp [herr]
  | bsCat rd rs => rcases execBsCat_next rd rs s t h with ⟨-, rfl⟩ | ⟨-, rfl⟩ <;> simp [herr]
  | encCount => rcases execEncCount_next s t h with ⟨-, rfl⟩ | ⟨-, rfl⟩ <;> simp [herr]
  | encTree => rcases execEncTree_next s t h with ⟨-, rfl⟩ | ⟨-, rfl⟩ <;> simp [herr]
  | encTable => rcases execEncTable_next s t h with ⟨-, rfl⟩ | ⟨-, _, -, rfl⟩ <;> simp [herr]
  | encPack =>
    rcases execEncPack_next s t h with ⟨-, rfl⟩ | ⟨-, ⟨_, -, rfl⟩ | ⟨-, rfl⟩ | ⟨_, -, rfl⟩⟩ <;> simp [herr]
  | decHdr =>
    rcases execDecHdr_next s t h with ⟨-, rfl⟩ | ⟨-, -, rfl⟩ | ⟨-, -, -, ⟨_, -, rfl⟩ | ⟨_, -, rfl⟩⟩ <;> simp [herr]
  | decLoad =>
    rcases execDecLoad_next s t h with ⟨-, rfl⟩ | ⟨-, rfl⟩ | ⟨-, rfl⟩ | ⟨-, -, -, rfl⟩ <;> simp [herr]
  | decStep =>
    rcases execDecStep_next s t h with ⟨-, rfl⟩ | ⟨-, ⟨-, rfl⟩ | ⟨-, -, ⟨-, rfl⟩ | ⟨-, rfl⟩⟩ |
      ⟨-, _, _, -, ⟨-, rfl⟩ | ⟨-, rfl⟩⟩⟩ <;> simp [herr]
  | encAll | decRun | decAll => cases hi
  | sysReset => cases h; simp
  | sysNop | bsClr | bsSt | bsShl | bsStw | bsEq => cases h; exact herr

/-- Settles O45: every command completes under the invariant, and the invariant with a record that is not
`EncodingOverflow` is kept by every primitive command, so by every command. -/
theorem everyCommandHasANextState : Obligations.EveryCommandHasANextState := by
  unfold Obligations.EveryCommandHasANextState
  intro i s hs
  obtain ⟨t, ht, -⟩ := exec_completesInv i s hs
  refine ⟨t, ht, fun herr => ?_⟩
  obtain ⟨-, hkept⟩ := exec_keeps (fun u => u.Inv ∧ u.err ≠ .encodingOverflow)
    (fun j hj u v ⟨hu, herr⟩ hv => ⟨exec_inv j u v hu hv, exec_err_ne_encodingOverflow hj hu herr hv⟩) i s t
    ⟨hs, herr⟩ ht
  exact hkept

end Sys2Proof.Machine

/-!
PROOFS. The faults (R191): what a recorded fault holds off.
-/

namespace Sys2Proof.Machine

/-- R170, R191: of a faulted core the write of a word that is not that of `SYS.RESET` takes the write from the script,
and does nothing else. -/
theorem step_commandWrite_of_faulted {s t : State} {w : Word} (h : step s = .next t) (herr : s.err ≠ .none)
    (hwrite : s.script.head? = some (commandWrite w)) (hw : decode w ≠ .ok .sysReset) :
    t = { s with script := t.script } := by
  obtain ⟨rest, hscript⟩ := List.head?_eq_some_iff.mp hwrite
  obtain ⟨htaken, -⟩ := commandWordsAreTakenInTheStatedOrder
  obtain ⟨-, hheldOff, -⟩ := htaken s w rest hscript
  cases h.symm.trans (hheldOff hw herr)
  rfl

/-- Settles O8: with a fault recorded a write of `CMD` is held off, and the other accesses but the power-on reset reach
only what the host may write. -/
theorem faultsAreStickyUntilReset : Obligations.FaultsAreStickyUntilReset := by
  unfold Obligations.FaultsAreStickyUntilReset
  intro s t h herr
  by_cases hreset : s.script.head? = some .powerOnReset
  · exact .inr (.inl hreset)
  by_cases hcommand : ∃ w, s.script.head? = some (commandWrite w)
  · obtain ⟨w, hwrite⟩ := hcommand
    by_cases hw : decode w = .ok .sysReset
    · exact .inr (.inr ⟨w, hwrite, hw⟩)
    · rw [step_commandWrite_of_faulted h herr hwrite hw]
      exact .inl rfl
  · exact .inl (step_without_command h (not_exists.mp hcommand) hreset)

end Sys2Proof.Machine

/-!
PROOFS. The draws of free bytes (R225, assumption 2): no step takes a draw number back, and an UNSPECIFIED read uses
one up.
-/

namespace Sys2Proof.Machine

/-! ### The draw counter never falls -/

/-- Of the primitive commands some use the draw number up, by a fault or by reading `IBUF`; none takes one back. -/
theorem exec_draws_le_of_primitive {i : Instr} (hi : isComposite i = false) {s t : State} (h : exec i s = .next t) :
    s.draws ≤ t.draws := by
  cases i with
  | bsLd rd => rcases execBsLd_next rd s t h with rfl | rfl | ⟨-, -, -, rfl⟩ <;> simp
  | bsPushf rd imm8 => rcases execBsPushf_next rd imm8 s t h with ⟨-, rfl⟩ | ⟨-, -, rfl⟩ | ⟨-, -, rfl⟩ <;> simp
  | bsShr rd => rcases execBsShr_next rd s t h with ⟨-, rfl⟩ | ⟨-, rfl⟩ <;> simp
  | bsCat rd rs => rcases execBsCat_next rd rs s t h with ⟨-, rfl⟩ | ⟨-, rfl⟩ <;> simp
  | encCount => rcases execEncCount_next s t h with ⟨-, rfl⟩ | ⟨-, rfl⟩ <;> simp
  | encTree => rcases execEncTree_next s t h with ⟨-, rfl⟩ | ⟨-, rfl⟩ <;> simp
  | encTable => rcases execEncTable_next s t h with ⟨-, rfl⟩ | ⟨-, _, -, rfl⟩ <;> simp
  | encHdr => rcases execEncHdr_next s t h with ⟨_, -, rfl⟩ | ⟨-, rfl⟩ <;> simp
  | encPack =>
    rcases execEncPack_next s t h with ⟨-, rfl⟩ | ⟨-, ⟨_, -, rfl⟩ | ⟨-, rfl⟩ | ⟨_, -, rfl⟩⟩ <;> simp
  | decHdr =>
    rcases execDecHdr_next s t h with ⟨-, rfl⟩ | ⟨-, -, rfl⟩ | ⟨-, -, -, ⟨_, -, rfl⟩ | ⟨_, -, rfl⟩⟩ <;> simp
  | decLoad => rcases execDecLoad_next s t h with ⟨-, rfl⟩ | ⟨-, rfl⟩ | ⟨-, rfl⟩ | ⟨-, -, -, rfl⟩ <;> simp
  | decStep =>
    rcases execDecStep_next s t h with ⟨-, rfl⟩ | ⟨-, ⟨-, rfl⟩ | ⟨-, -, ⟨-, rfl⟩ | ⟨-, rfl⟩⟩ |
      ⟨-, _, _, -, ⟨-, rfl⟩ | ⟨-, rfl⟩⟩⟩ <;> simp
  | encAll | decRun | decAll => cases hi
  | sysNop | sysReset | bsClr | bsSt | bsShl | bsStw | bsEq => cases h; exact le_rfl

theorem exec_draws_le (i : Instr) {s t : State} (h : exec i s = .next t) : s.draws ≤ t.draws :=
  exec_keeps (fun u => s.draws ≤ u.draws)
    (fun _ hi _ _ hu hv => hu.trans (exec_draws_le_of_primitive hi hv)) i s t le_rfl h

theorem takeCommand_draws_le {w : Word} {s t : State} (h : takeCommand w s = .next t) : s.draws ≤ t.draws := by
  rcases takeCommand_next w s t h with ⟨-, hi⟩ | ⟨-, rfl⟩ | ⟨i, -, -, hi⟩ | ⟨_, -, -, rfl⟩
  · exact exec_draws_le _ hi
  · exact le_rfl
  · exact exec_draws_le i hi
  · simp

theorem perform_draws_le {a : HostAction} {s t : State} (h : perform a s = .next t) : s.draws ≤ t.draws := by
  cases a with
  | read space idx =>
    rcases performRead_next space idx s t h with ⟨_, -, rfl⟩ | ⟨-, rfl⟩
    · exact le_rfl
    · exact Nat.le_succ _
  | write space idx value =>
    rcases performWrite_next space idx value s t h with ⟨w, -, -, -, hw⟩ | ⟨v, -, -, hreg⟩ | ⟨b, -, -, -, rfl⟩
    · exact takeCommand_draws_le hw
    · rcases hreg with ⟨-, rfl⟩ | ⟨-, rfl⟩ | ⟨-, rfl⟩ | ⟨-, rfl⟩ | ⟨-, rfl⟩ <;> exact le_rfl
    · exact le_rfl
  | powerOnReset => cases h; exact le_rfl

theorem step_draws_le {s t : State} (h : step s = .next t) : s.draws ≤ t.draws := by
  cases hscript : s.script with
  | nil =>
    cases (hostStep_idle s hscript).symm.trans h
    exact le_rfl
  | cons a rest =>
    rw [step_of_script hscript] at h
    exact perform_draws_le (s := { s with script := rest }) h

/-! ### UNSPECIFIED reads (R25, R56, R225) -/

/-- R25, R56: the host may read there, and no byte of the core's state is there to be read: from `OLEN` on in `OBUF`,
a byte of `IBUF` that was never written, and behind the last backing byte of the cursor or of a codeword. -/
def State.ReadsUnspecified (s : State) (space : Space) (idx : Nat) : Prop :=
  readAllowed s.cfg space idx = true ∧
    ((space = .obuf ∧ s.olen.toNat ≤ idx) ∨ (space = .ibuf ∧ s.ibuf.read? idx = none) ∨
      (space = .payb ∧ nbytes s.pay.length ≤ idx) ∨
      (space = .cwdata ∧ ∃ x : Byte, idx / 32 = x.toNat ∧ nbytes (codeOf s.cw x).length ≤ idx % 32))

theorem backingRead_beyond {q : BitSeq} {j : Nat} (h : nbytes q.length ≤ j) : backingRead q j = .unspecified :=
  if_neg (Nat.not_lt.mpr h)

theorem slotBits_slot (T : Table) (x : Byte) : slotBits (T.slot x) = codeOf T x := by
  rw [codeOf]
  cases T.slot x <;> rfl

theorem hostRead_unspecified {s : State} {space : Space} {idx : Nat} (h : s.ReadsUnspecified space idx) :
    s.hostRead space idx = .unspecified := by
  obtain ⟨hallowed, ⟨rfl, holen⟩ | ⟨rfl, hread⟩ | ⟨rfl, hlen⟩ | ⟨rfl, x, hx, hlen⟩⟩ := h
  · have hcap : idx < s.cfg.obufCap := of_decide_eq_true hallowed
    simp [State.hostRead, hcap, holen]
  · have hcap : idx < s.cfg.ibufCap := of_decide_eq_true hallowed
    simp [State.hostRead, hcap, hread, ReadResult.ofByte?]
  · have hcap : idx < s.cfg.payCap / 8 := of_decide_eq_true hallowed
    simp [State.hostRead, hcap, backingRead_beyond hlen]
  · have hcap : idx < 8192 := Nat.lt_succ_of_le (of_decide_eq_true hallowed)
    simp [State.hostRead, hcap, hx, slotBits_slot, backingRead_beyond hlen]

/-- R225 (a): an UNSPECIFIED read hands over the free byte of the present draw number, and uses the number up. -/
theorem performRead_unspecified {s : State} {space : Space} {idx : Nat} (h : s.hostRead space idx = .unspecified) :
    performRead space idx s =
      .next { s with replies := .byte (Config.freeByte s.draws idx) :: s.replies, draws := s.draws + 1 } := by
  rw [performRead, h]

/-- Settles O49: no command and no access lowers the draw counter, and each of the four kinds of read finds no byte. -/
theorem unspecifiedReadsAreFreshDraws : Obligations.UnspecifiedReadsAreFreshDraws := by
  unfold Obligations.UnspecifiedReadsAreFreshDraws
  refine ⟨fun s t => step_draws_le, fun s space idx rest hscript hallowed hkind => ?_⟩
  have hread : State.hostRead { s with script := rest } space idx = .unspecified :=
    hostRead_unspecified ⟨hallowed, hkind⟩
  exact ⟨_, (step_of_script hscript).trans (performRead_unspecified hread), rfl, Nat.lt_succ_self _, rfl⟩

end Sys2Proof.Machine
